-- ==== Sys2Proof/Word.lean ====
section
/-! DEFINITION. The word types of the engine: a control register, a descriptor word and CP are 32 bits (spec 00_scope.md
R7, `WORD`); memory is made of 8-bit bytes (spec 20_memory.md R70). Components, lengths and sums are naturals (R8). -/

namespace Sys2Proof

/-- A 32-bit word: control register, descriptor word, command pointer (R7). -/
abbrev Word := BitVec 32

/-- One byte of memory (R70). -/
abbrev Byte := BitVec 8

end Sys2Proof
end

