-- ==== Sys2Proof/Config.lean ====
section
/-! DEFINITION. The parameters spec 00_scope.md R7 fixes, and the free values: constants with no body, so that nothing can
be proved of a value the spec leaves unspecified. MEM_BYTES and NLANES, which R7 leaves OPEN, are carried in State
(`memBytes`, the length of `workers`; logs 3 and 4), so that every statement holds for every value of them. -/

namespace Sys2Proof.Config

/-- `DESC_BYTES` (R7): length of a command descriptor. -/
def descBytes : Nat := 40

/-- `KMAX` (R7): the largest kernel_size of GAUSS. -/
def kMax : Nat := 255

/-- `ONE = 2^COEF_FRAC` (R7): the Gaussian coefficient that stands for 1. -/
def one : Nat := 65536

/-- The least `MEM_BYTES` the engine may be built with (R7). -/
def memBytesMin : Nat := 40

/-- The greatest `MEM_BYTES` the engine may be built with (R7). -/
def memBytesMax : Nat := 4294967296

/-- FREE VALUE (spec 70_reset_and_hazards.md R301, U13; log 12): the byte left at an address of the destination pixel area
of a command cut by reset, at the given draw. -/
opaque cutByte : (draw address : Nat) → Byte

/-- FREE VALUE (R306, U14; log 11): the byte a host read returns during RUN inside the destination footprint of a command
that has not completed, at the given draw. -/
opaque hostRunByte : (draw address : Nat) → Byte

/-- FREE VALUE (spec 10_state.md R29; log 10): picks which descriptor address of the run, from the starting one to the
current one, a read of CP returns while RUN, at the given draw. -/
opaque cpChoice : (draw : Nat) → Nat

end Sys2Proof.Config
end

