-- ==== Sys2Proof/Syntax.lean ====
section
/-! DEFINITION. The command set SFFE-CMD version 1: one constructor of `Instr` per row of spec/opcode_table.json, with the
operands of spec 30_encoding.md R101 to R107 as the naturals R103 to R105 make of the fields. -/

namespace Sys2Proof

/-- Channel selector (R106): closed, 3 or 4 interleaved components per pixel. -/
inductive Channels where
  | c3
  | c4
  deriving DecidableEq, Repr

/-- Component width (R106): closed, 8-bit or 16-bit unsigned. -/
inductive CompWidth where
  | u8
  | u16
  deriving DecidableEq, Repr

/-- Components per pixel. -/
def Channels.count : Channels → Nat
  | .c3 => 3
  | .c4 => 4

/-- Bytes per component. -/
def CompWidth.bytes : CompWidth → Nat
  | .u8 => 1
  | .u16 => 2

/-- `MAXV(cw)` (R7): the largest component value. -/
def CompWidth.maxValue : CompWidth → Nat
  | .u8 => 255
  | .u16 => 65535

/-- A PixelBuffer description (spec 10_state.md R40): `base` is a byte address, `stride` and `len` count components,
`width` and `height` pixels. -/
structure Buffer where
  base : Nat
  stride : Nat
  len : Nat
  width : Nat
  height : Nat
  channels : Channels
  cw : CompWidth
  deriving DecidableEq, Repr

/-- The commands (R107). The in-place commands FGAUSS and FGAUSSN have one buffer, the one of the `DST` fields (R101). -/
inductive Instr where
  | halt
  | box (src dst : Buffer) (radius : Nat)
  | tent (src dst : Buffer) (radius : Nat)
  | gbox (src dst : Buffer) (radius : Nat)
  | fgauss (buf : Buffer) (radius : Nat)
  | fgaussn (buf : Buffer) (radius : Nat)
  | gauss (src dst : Buffer) (kernelSize sigma : Nat)
  | median (src dst : Buffer) (radius : Nat)
  deriving DecidableEq, Repr

/-- The ten 32-bit words of a descriptor (R100, R101); also the latch file `D[0..9]` (R21). -/
structure Desc where
  w0 : Word
  w1 : Word
  w2 : Word
  w3 : Word
  w4 : Word
  w5 : Word
  w6 : Word
  w7 : Word
  w8 : Word
  w9 : Word
  deriving DecidableEq, Repr

/-- Why a descriptor is no command (spec 30_encoding.md R108, spec 60_exceptions.md R263); the three subcauses of
IllegalCommand, by name. -/
inductive Illegal where
  /-- `OPCODE` in `0x08 .. 0xFF` (R108 a, subcause 1). -/
  | opcode
  /-- `CMD[15:12] != 0`, or HALT with `CMD[31:8] != 0` (R108 b, subcause 2). -/
  | reservedBits
  /-- A must-be-zero word or source bit is set (R108 c, subcause 3). -/
  | mustBeZero
  deriving DecidableEq, Repr

end Sys2Proof
end

