-- ==== Sys2Proof/Machine/State.lean ====
section
/-! DEFINITION. The state of the engine as plain data: everything spec 10_state.md R20 lists, with the sequencer's hidden
state (R39) and memory, and the fields of the model's own, marked so. -/

namespace Sys2Proof.Machine

/-- `STATUS.STATE` (R28): the codes are 0 to 3 in this order. -/
inductive RunState where
  | idle
  | run
  | halted
  | faulted
  deriving DecidableEq, Repr

/-- The phase of the command cycle (R39, spec 40_pipeline.md R140); `idle` when not in RUN. -/
inductive Phase where
  | idle
  | fetch
  | validate
  | execute
  | complete
  deriving DecidableEq, Repr

/-- What a line worker is doing (spec 40_pipeline.md R152): nothing, a line whose load (a) is done, or a line whose line
function (b) has run and whose store (c) is due. -/
inductive Stage where
  | free
  | loaded (line : Nat)
  | computed (line : Nat)
  deriving DecidableEq, Repr

/-- The histogram store of one channel (R38): `table` is `H` for 8-bit components and `HC` for 16-bit ones, `fine` is `HF`. -/
structure Hist where
  table : List Nat
  fine : List Nat
  deriving DecidableEq, Repr

/-- One line worker: the line buffer `LB[j][ch]` (R35; after computing it holds the line's outputs, log 19), per channel the running sums `ACC` (R36) and the histogram store
`HIST` (R38). -/
structure Worker where
  stage : Stage
  lb : List (List Nat)
  acc : List (List Nat)
  hist : List Hist
  deriving DecidableEq, Repr

/-- The sequencer's hidden state (R39): the phase of the current command, the index of the current pass, the lines not yet
started, in progress and finished, and the writes issued that have not yet reached memory, oldest first; they may reach it in
any order (spec 20_memory.md R78, R79; log 20). -/
structure Sequencer where
  phase : Phase
  pass : Nat
  notStarted : List Nat
  inProgress : List Nat
  finished : List Nat
  pending : List Host.Cell
  deriving DecidableEq, Repr

/-- Memory: the bytes that differ from 0, addresses strictly rising (spec 20_memory.md R70; log 5). -/
abbrev Memory := List Host.Cell

/-- The state of the engine and its memory. -/
structure State where
  /-- The descriptor latches `D[0..9]` (R21). -/
  d : Desc
  /-- The command pointer `CP` (R23). -/
  cp : Word
  /-- `STATUS.STATE` (R28). -/
  runState : RunState
  /-- `ERR` (R30). -/
  err : Word
  /-- `IRQ_EN` (R31). -/
  irqEn : Word
  /-- `IRQ_STAT` (R32). -/
  irqStat : Word
  /-- The level of the `rst` input (spec 00_scope.md R6, spec 70_reset_and_hazards.md R300; log 21). -/
  rst : Bool
  /-- The coefficient store `COEF` (R37), shared by the workers (spec 60_exceptions.md R276). -/
  coef : List Nat
  /-- The line workers `LW[0..NLANES-1]` (spec 00_scope.md R5, R7); `NLANES` is the length. -/
  workers : List Worker
  /-- The sequencer's hidden state (R39). -/
  seq : Sequencer
  /-- `MEM` (spec 20_memory.md R70): addresses strictly rising, no zero byte listed; an unlisted byte reads 0 (log 5). -/
  mem : Memory
  /-- MODEL'S OWN: the parameter `MEM_BYTES` (spec 00_scope.md R7; log 3). No step changes it. -/
  memBytes : Nat
  /-- MODEL'S OWN: `CP` at the last accepted START, for reads of CP during RUN (R29; log 10). -/
  runStart : Word
  /-- MODEL'S OWN: how many commands have completed since the last accepted START, for reads of CP during RUN (R29; log 10). -/
  runDone : Nat
  /-- MODEL'S OWN: how many free values have been drawn (log 13). -/
  draws : Nat
  deriving DecidableEq, Repr

/-- The causes of the spec's faults (spec 60_exceptions.md R261). Taking one is a NEXT state, never a stop of the model. -/
inductive Cause where
  | invalidGeometry
  | invalidParameter
  | sizeMismatch
  | overlap
  | illegalCommand
  | descriptorFault
  deriving DecidableEq, Repr

/-- A fault as VALIDATE or FETCH finds it: a cause and a subcause (R261). -/
structure Trap where
  cause : Cause
  sub : Nat
  deriving DecidableEq, Repr

/-- Why the model stops with a fault. Closed. -/
inductive Fault where
  /-- An access to a byte outside `0 .. MEM_BYTES-1`, which the spec says does not exist (spec 20_memory.md R70). Raised by a
  host memory access there, and by opening a pass on a buffer outside memory, which no validated command does (R271).
  Safe: the model stops (log 15). -/
  | outsideMemory (address : Nat)
  deriving DecidableEq, Repr

/-- Why the model gives no meaning. Closed. -/
inductive Refusal where
  /-- `exec` has no meaning for the instruction yet. Raised by no arm of this model. Safe. -/
  | notModelled (mnemonic : String)
  /-- A host write during RUN to a byte of a footprint or descriptor the running list still uses: the spec asks that a model
  refuse such a run (spec 70_reset_and_hazards.md R306, U15). Raised by the host's memory write. Safe (log 11). -/
  | hostRace (address : Nat)
  deriving DecidableEq, Repr

/-- A line worker with nothing to do: its per-line state is released (R35, R36, R38; log 8). -/
def Worker.idle : Worker := ⟨.free, [], [], []⟩

/-- The empty hidden state, in the given phase (R39). -/
def Sequencer.empty (phase : Phase) : Sequencer := ⟨phase, 0, [], [], [], []⟩

/-- The machine right after reset (R43, spec 70_reset_and_hazards.md R300). The spec states the values of `cp`, `runState`,
`err`, `irqEn`, `irqStat` and the empty hidden state, with `rst` gone low (R300); the others are DESIGN CHOICEs: `d` (log 6), `coef` and the workers'
stores (log 7), one worker (log 4), `mem` lists nothing (log 5), `memBytes` (log 3), `runStart` and `runDone`
(log 10), `draws` (log 13). -/
def State.reset : State where
  d := ⟨0#32, 0#32, 0#32, 0#32, 0#32, 0#32, 0#32, 0#32, 0#32, 0#32⟩
  cp := 0#32
  runState := .idle
  err := 0#32
  irqEn := 0#32
  irqStat := 0#32
  rst := false
  coef := []
  workers := [Worker.idle]
  seq := Sequencer.empty .idle
  mem := []
  memBytes := 65536
  runStart := 0#32
  runDone := 0
  draws := 0

end Sys2Proof.Machine
end

