-- ==== Sys2Proof/Machine/Operands.lean ====
section
/-! DEFINITION. The operands of a command: clamp-to-edge indexing (spec 00_scope.md R11), the one addressing mode (spec
40_pipeline.md R143, R144), footprints (spec 10_state.md R40) and the checks of VALIDATE on them (spec 60_exceptions.md
R264 to R267), all in unbounded naturals (R8). -/

namespace Sys2Proof.Machine

/-- `clamp(i, n)` (R11): 0 below the line, `n - 1` above it, `i` inside. -/
def clamp (i : Int) (n : Nat) : Nat :=
  if i < 0 then 0 else if (n : Int) - 1 < i then n - 1 else i.toNat

/-- The clamp-extended line `xe[i] = x[clamp(i, n)]` (R11). -/
def clampedAt (x : List Nat) (i : Int) : Nat := x.getD (clamp i x.length) 0

/-- `Addr(b, row, col, ch)` (R143, R144). -/
def bufAddr (b : Buffer) (row col ch : Nat) : Nat :=
  b.base + (row * b.stride + col * b.channels.count + ch) * b.cw.bytes

/-- The first byte past the footprint `[base, base + len * cw)` (R40). -/
def bufEnd (b : Buffer) : Nat := b.base + b.len * b.cw.bytes

/-- The address lies in the buffer's footprint (R40). -/
def inFootprint (b : Buffer) (a : Nat) : Bool := decide (b.base ≤ a) && decide (a < bufEnd b)

/-- The byte addresses of component `(row, col, ch)` (R144, R145). -/
def componentBytes (b : Buffer) (row col ch : Nat) : List Nat :=
  (List.range b.cw.bytes).map fun k => bufAddr b row col ch + k

/-- The pixel area of a buffer: the byte addresses of its in-bounds components (spec 20_memory.md R75, spec 40_pipeline.md
R159). -/
def pixelArea (b : Buffer) : List Nat :=
  (List.range b.height).flatMap fun row =>
    (List.range b.width).flatMap fun col =>
      (List.range b.channels.count).flatMap fun ch => componentBytes b row col ch

/-- InvalidGeometry checks 1 to 5 in order; the number of the first that holds (R264). -/
def geometrySub (b : Buffer) (memBytes : Nat) : Option Nat :=
  if b.width = 0 ∨ b.height = 0 then some 1
  else if b.stride < b.width * b.channels.count then some 2
  else if b.len < b.stride * b.height then some 3
  else if b.cw = .u16 ∧ b.base % 2 = 1 then some 4
  else if memBytes < bufEnd b then some 5
  else none

/-- InvalidGeometry of the source buffer: the subcause is the check's number (R264). -/
def checkSource (b : Buffer) (memBytes : Nat) : Option Trap :=
  (geometrySub b memBytes).map fun n => ⟨.invalidGeometry, n⟩

/-- InvalidGeometry of the destination buffer: the check's number plus 0x10 (R264). -/
def checkDest (b : Buffer) (memBytes : Nat) : Option Trap :=
  (geometrySub b memBytes).map fun n => ⟨.invalidGeometry, n + 16⟩

/-- InvalidParameter, raised by GAUSS only: `K` even, sigma zero, `K > KMAX`, in this order (R265). -/
def checkKernel (kernelSize sigma : Nat) : Option Trap :=
  if kernelSize % 2 = 0 then some ⟨.invalidParameter, 1⟩
  else if sigma = 0 then some ⟨.invalidParameter, 2⟩
  else if Config.kMax < kernelSize then some ⟨.invalidParameter, 3⟩
  else none

/-- SizeMismatch: width, height, channels, component width, in this order (R266). -/
def checkSizes (src dst : Buffer) : Option Trap :=
  if src.width ≠ dst.width then some ⟨.sizeMismatch, 1⟩
  else if src.height ≠ dst.height then some ⟨.sizeMismatch, 2⟩
  else if src.channels ≠ dst.channels then some ⟨.sizeMismatch, 3⟩
  else if src.cw ≠ dst.cw then some ⟨.sizeMismatch, 4⟩
  else none

/-- Overlap: the footprints of source and destination share a byte (R267). -/
def checkOverlap (src dst : Buffer) : Option Trap :=
  if src.base < bufEnd dst ∧ dst.base < bufEnd src then some ⟨.overlap, 0⟩ else none

/-- VALIDATE of BOX, TENT, GBOX and MEDIAN after decoding, in the order of R268; the first check that holds. -/
def checkTwoBuffers (src dst : Buffer) (memBytes : Nat) : Option Trap :=
  ((checkSource src memBytes).or (checkDest dst memBytes)).or ((checkSizes src dst).or (checkOverlap src dst))

/-- VALIDATE of FGAUSS and FGAUSSN after decoding: the one buffer, as the destination (R264). -/
def checkInPlace (buf : Buffer) (memBytes : Nat) : Option Trap := checkDest buf memBytes

/-- VALIDATE of GAUSS after decoding: the parameter checks stand between the geometry and the size checks (R268). -/
def checkGauss (src dst : Buffer) (kernelSize sigma memBytes : Nat) : Option Trap :=
  ((checkSource src memBytes).or (checkDest dst memBytes)).or
    ((checkKernel kernelSize sigma).or ((checkSizes src dst).or (checkOverlap src dst)))

end Sys2Proof.Machine
end

