-- ==== Sys2Proof/Machine/BoxLine.lean ====
section
/-! DEFINITION. The `box_blur_accumulator`: the line function `BoxLine_r` in closed form (spec 41_box.md R180) and by the
running sum the hardware keeps (R181). -/

namespace Sys2Proof.Machine

/-- What running a line function on one channel leaves: the output samples and the accumulators' last values (R36). -/
structure LineResult where
  out : List Nat
  acc : List Nat
  deriving DecidableEq, Repr

/-- The sum of the `2r + 1` values of `f` centred on `j` (R180). -/
def windowSum (f : Int → Nat) (r : Nat) (j : Int) : Nat :=
  (List.range (2 * r + 1)).foldl (fun acc (k : Nat) => acc + f (j - r + k)) 0

/-- The running sum from position `j`, where it is `acc`, over `n` positions: to move on, add the entering value and
subtract the leaving one (R181). -/
def slide (f : Int → Nat) (r : Nat) : Int → Nat → Nat → List Nat
  | _, _, 0 => []
  | j, acc, n + 1 => acc :: slide f r (j + 1) (acc + f (j + 1 + r) - f (j - r)) n

/-- The sums at `n` positions from `j`: the initial window, then the running sum (R181). -/
def slidingSums (f : Int → Nat) (r : Nat) (j : Int) (n : Nat) : List Nat := slide f r j (windowSum f r j) n

/-- `(S + r) div L` with `L = 2r + 1`: round to nearest (R180, R182). -/
def boxRound (r sum : Nat) : Nat := (sum + r) / (2 * r + 1)

/-- `BoxLine_r` in closed form (R180). -/
def boxLine (r : Nat) (x : List Nat) : List Nat :=
  (List.range x.length).map fun (i : Nat) => boxRound r (windowSum (clampedAt x) r i)

/-- `BoxLine_r` by the accumulator `ACC` (R181). -/
def boxRun (r : Nat) (x : List Nat) : LineResult :=
  let sums := slidingSums (clampedAt x) r 0 x.length
  { out := sums.map (boxRound r), acc := [sums.getLastD 0] }

end Sys2Proof.Machine
end

