-- ==== Sys2Proof/Machine/FirLine.lean ====
section
/-! DEFINITION. The line function `FirLine_q` of GAUSS (spec 43_gauss.md R219, R220): evaluated directly, `K` multiply-adds
per output. -/

namespace Sys2Proof.Machine

/-- The centre tap index `c = (K - 1) div 2` (R215). -/
def centreTap (kernelSize : Nat) : Nat := (kernelSize - 1) / 2

/-- `A[i] = sum over k of q[k] * xe[i + k - c]` (R219). -/
def firSum (q x : List Nat) (i : Nat) : Nat :=
  (List.range q.length).foldl
    (fun acc (k : Nat) => acc + q.getD k 0 * clampedAt x ((i : Int) + k - centreTap q.length)) 0

/-- `min(M, (A + 32768) div 65536)` (R219, R220). -/
def firRound (maxValue sum : Nat) : Nat := min maxValue ((sum + 32768) / Config.one)

/-- `FirLine_q` (R219). -/
def firLine (q : List Nat) (maxValue : Nat) (x : List Nat) : List Nat :=
  (List.range x.length).map fun i => firRound maxValue (firSum q x i)

/-- `FirLine_q` with the accumulator's last value. -/
def firRun (q : List Nat) (maxValue : Nat) (x : List Nat) : LineResult :=
  let sums := (List.range x.length).map (firSum q x)
  { out := sums.map (firRound maxValue), acc := [sums.getLastD 0] }

end Sys2Proof.Machine
end

