-- ==== Sys2Proof/Machine/MedianLine.lean ====
section
/-! DEFINITION. The `median_histogram_engine`: the median by rank (spec 44_median.md R240, R241) and the histogram mechanism
the hardware runs along an output row, one table for 8-bit components (R243 to R245) and coarse to fine for 16-bit ones
(R246). A window is read through `g row col`, the clamped sample of one channel (R146). -/

namespace Sys2Proof.Machine

/-- The offsets `-r .. r`. -/
def offsets (r : Nat) : List Int := (List.range (2 * r + 1)).map fun k => (k : Int) - r

/-- The samples of column `col` of the window of row `y` (R240, R244). -/
def windowColumn (g : Int → Int → Nat) (r y : Nat) (col : Int) : List Nat := (offsets r).map fun dy => g (y + dy) col

/-- The `N = L * L` clamped samples of the window at `(y, c)` (R240). -/
def windowSamples (g : Int → Int → Nat) (r y c : Nat) : List Nat :=
  (offsets r).flatMap fun dy => (offsets r).map fun dx => g (y + dy) (c + dx)

/-- `(N + 1) div 2` with `N = L * L` (R241). -/
def medianRank (r : Nat) : Nat := ((2 * r + 1) * (2 * r + 1) + 1) / 2

/-- The element at position `rank`, counting from 1, of the values in non-decreasing order (R241). -/
def elementOfRank (rank : Nat) (values : List Nat) : Nat := (values.insertionSort (· ≤ ·)).getD (rank - 1) 0

/-- `Median(Win_r(y, c))` (R241). -/
def medianAt (g : Int → Int → Nat) (r y c : Nat) : Nat := elementOfRank (medianRank r) (windowSamples g r y c)

/-- 256 counters at zero (R243). -/
def emptyTable : List Nat := List.replicate 256 0

/-- `H[v] <- H[v] + 1` (R243, R244). -/
def countIn (table : List Nat) (v : Nat) : List Nat := table.modify v (· + 1)

/-- `H[v] <- H[v] - 1` (R244). -/
def countOut (table : List Nat) (v : Nat) : List Nat := table.modify v (· - 1)

/-- Clear the table, then count every sample (R243). -/
def fillTable (samples : List Nat) : List Nat := samples.foldl countIn emptyTable

/-- The bucket of a sample in the table kept along the row: the value itself for 8-bit components (R243), the high byte
for 16-bit ones (R246). -/
def bucketOf (cw : CompWidth) (v : Nat) : Nat :=
  match cw with
  | .u8 => v
  | .u16 => v / 256

/-- The table at column 0 (R243, R246). -/
def tableAtStart (cw : CompWidth) (g : Int → Int → Nat) (r y : Nat) : List Nat :=
  fillTable ((windowSamples g r y 0).map (bucketOf cw))

/-- From column `c` to `c + 1`: per row of the window the leaving sample is counted out and the entering one in (R244). -/
def slideTable (cw : CompWidth) (g : Int → Int → Nat) (r y c : Nat) (table : List Nat) : List Nat :=
  (offsets r).foldl
    (fun t dy => countIn (countOut t (bucketOf cw (g (y + dy) ((c : Int) - r)))) (bucketOf cw (g (y + dy) ((c : Int) + 1 + r))))
    table

/-- The tables at `n` columns from `c`, where it is `table`. -/
def tablesFrom (cw : CompWidth) (g : Int → Int → Nat) (r y : Nat) : Nat → List Nat → Nat → List (List Nat)
  | _, _, 0 => []
  | c, table, n + 1 => table :: tablesFrom cw g r y (c + 1) (slideTable cw g r y c table) n

/-- The rank scan (R245): from value `v` with `t` elements below it, the first value at which the running total reaches
`rank`, and the total below it. -/
def rankScan (rank : Nat) : List Nat → Nat → Nat → Nat × Nat
  | [], t, v => (v, t)
  | n :: rest, t, v => if t + n < rank then rankScan rank rest (t + n) (v + 1) else (v, t)

/-- The fine table of coarse bucket `b`: the low bytes of the window's samples whose high byte is `b` (R246). -/
def fineTable (samples : List Nat) (b : Nat) : List Nat :=
  fillTable ((samples.filter fun s => s / 256 == b).map (· % 256))

/-- One output and the fine table behind it (empty for 8-bit components): R245 for 8-bit, R246 for 16-bit. -/
def medianFromTable (cw : CompWidth) (g : Int → Int → Nat) (r y c : Nat) (table : List Nat) : Nat × List Nat :=
  match cw with
  | .u8 => ((rankScan (medianRank r) table 0 0).1, [])
  | .u16 =>
    let coarse := rankScan (medianRank r) table 0 0
    let fine := fineTable (windowSamples g r y c) coarse.1
    (256 * coarse.1 + (rankScan (medianRank r) fine coarse.2 0).1, fine)

/-- What running a row of MEDIAN leaves for one channel: the outputs and the histogram store's last contents (R38). -/
structure RowResult where
  out : List Nat
  hist : Hist
  deriving DecidableEq, Repr

/-- Output row `y` of one channel, `n` columns, by the histogram mechanism (R243 to R246). -/
def medianRow (cw : CompWidth) (g : Int → Int → Nat) (r y n : Nat) : RowResult :=
  let tables := tablesFrom cw g r y 0 (tableAtStart cw g r y) n
  let results := tables.mapIdx fun c table => medianFromTable cw g r y c table
  { out := results.map (·.1), hist := ⟨tables.getLastD [], (results.map (·.2)).getLastD []⟩ }

end Sys2Proof.Machine
end

