-- ==== Sys2Proof/WellFormed.lean ====
section
/-! DEFINITION. Which terms of `Instr` a descriptor can carry: every operand fits the field spec 30_encoding.md R101 to
R105 gives it. This is encodability, not legality: a zero width or an even kernel size is encodable, and VALIDATE faults
on it (spec 60_exceptions.md R264 to R267). -/

namespace Sys2Proof

/-- The buffer's numbers fit their fields (R101, R104): 32 bits for base, stride and length, 16 for width and height. -/
def Buffer.wf (b : Buffer) : Bool :=
  decide (b.base < 4294967296) && decide (b.stride < 4294967296) && decide (b.len < 4294967296) &&
    decide (b.width < 65536) && decide (b.height < 65536)

/-- A radius or kernel size fits `PARAM`, `CMD[31:16]` (R102, R103). -/
def paramWf (p : Nat) : Bool := decide (p < 65536)

/-- A sigma fits `W9` (R105). -/
def sigmaWf (v : Nat) : Bool := decide (v < 4294967296)

/-- The command has an encoding. -/
def Instr.wf : Instr → Bool
  | .halt => true
  | .box src dst r => src.wf && dst.wf && paramWf r
  | .tent src dst r => src.wf && dst.wf && paramWf r
  | .gbox src dst r => src.wf && dst.wf && paramWf r
  | .fgauss buf r => buf.wf && paramWf r
  | .fgaussn buf r => buf.wf && paramWf r
  | .gauss src dst k sigma => src.wf && dst.wf && paramWf k && sigmaWf sigma
  | .median src dst r => src.wf && dst.wf && paramWf r

end Sys2Proof
end

