-- ==== Sys2Proof/Decode.lean ====
section
/-! DEFINITION. The decoder and the encoder of descriptors, from spec 30_encoding.md R100 to R109 and the match and mask of
spec/opcode_table.json. Decoding is total: every ten words are a command or rejected by the name of R108's clause. -/

namespace Sys2Proof

/-- `w[hi:lo]` (spec 00_scope.md R9): the natural formed by bits `hi` down to `lo`. -/
def bits (w : Word) (hi lo : Nat) : Nat := w.toNat / 2 ^ lo % 2 ^ (hi + 1 - lo)

/-- The natural whose bytes, lowest address first, are given (R71: little-endian). -/
def natOfBytes : List Byte → Nat
  | [] => 0
  | b :: bs => b.toNat + 256 * natOfBytes bs

/-- The `n` bytes of a natural, lowest address first (R71, R72). -/
def bytesOfNat : Nat → Nat → List Byte
  | 0, _ => []
  | n + 1, v => BitVec.ofNat 8 v :: bytesOfNat n (v / 256)

/-- Channel selector bit: 0 = 3 channels, 1 = 4 channels (R102). -/
def channelsOf (bit : Nat) : Channels := if bit = 0 then .c3 else .c4

/-- Component width bit: 0 = 8-bit, 1 = 16-bit (R102). -/
def compWidthOf (bit : Nat) : CompWidth := if bit = 0 then .u8 else .u16

/-- The source PixelBuffer read from the words (spec 10_state.md R40). -/
def Desc.srcBuffer (d : Desc) : Buffer where
  base := d.w1.toNat
  stride := d.w2.toNat
  len := d.w3.toNat
  width := bits d.w4 15 0
  height := bits d.w4 31 16
  channels := channelsOf (bits d.w0 8 8)
  cw := compWidthOf (bits d.w0 9 9)

/-- The destination PixelBuffer read from the words (R40). -/
def Desc.dstBuffer (d : Desc) : Buffer where
  base := d.w5.toNat
  stride := d.w6.toNat
  len := d.w7.toNat
  width := bits d.w8 15 0
  height := bits d.w8 31 16
  channels := channelsOf (bits d.w0 10 10)
  cw := compWidthOf (bits d.w0 11 11)

/-- `PARAM = CMD[31:16]`, used as it stands (R102, R103). -/
def Desc.param (d : Desc) : Nat := bits d.w0 31 16

/-- `OPCODE = CMD[7:0]` (R102). -/
def Desc.opcode (d : Desc) : Nat := bits d.w0 7 0

/-- `CMD[15:12]`, reserved, must be zero (R102). -/
def Desc.reserved (d : Desc) : Nat := bits d.w0 15 12

/-- A source given to an in-place command: any of `W1..W4` or `CMD[9:8]` non-zero (R108 c). -/
def Desc.hasSource (d : Desc) : Bool :=
  d.w1 != 0#32 || d.w2 != 0#32 || d.w3 != 0#32 || d.w4 != 0#32 || bits d.w0 9 8 != 0

/-- A filter other than GAUSS has `W9 = 0` (R108 c). -/
def Desc.withoutSigma (d : Desc) (i : Instr) : Except Illegal Instr :=
  if d.w9 != 0#32 then .error .mustBeZero else .ok i

/-- An in-place command has `W9 = 0` and no source (R108 c). -/
def Desc.inPlace (d : Desc) (i : Instr) : Except Illegal Instr :=
  if d.w9 != 0#32 || d.hasSource then .error .mustBeZero else .ok i

/-- The command of ten words, or the clause of R108 that makes them illegal, in the order (a), (b), (c). HALT ignores
`W1..W9` (R109). -/
def decode (d : Desc) : Except Illegal Instr :=
  if 7 < d.opcode then .error .opcode
  else if d.reserved ≠ 0 then .error .reservedBits
  else
    match d.opcode with
    | 0 => if bits d.w0 31 8 ≠ 0 then .error .reservedBits else .ok .halt
    | 1 => d.withoutSigma (.box d.srcBuffer d.dstBuffer d.param)
    | 2 => d.withoutSigma (.tent d.srcBuffer d.dstBuffer d.param)
    | 3 => d.withoutSigma (.gbox d.srcBuffer d.dstBuffer d.param)
    | 4 => d.inPlace (.fgauss d.dstBuffer d.param)
    | 5 => d.inPlace (.fgaussn d.dstBuffer d.param)
    | 6 => .ok (.gauss d.srcBuffer d.dstBuffer d.param d.w9.toNat)
    | 7 => d.withoutSigma (.median d.srcBuffer d.dstBuffer d.param)
    | _ => .error .opcode

/-- Word `Wi` of a descriptor laid out in memory order: bytes `4i .. 4i+3`, little-endian (R100). -/
def wordAt (bytes : List Byte) (i : Nat) : Word :=
  BitVec.ofNat 32 (natOfBytes ((bytes.drop (4 * i)).take 4))

/-- The ten words of a descriptor's bytes (R100); bytes that are not there count as zero. -/
def descOfBytes (bytes : List Byte) : Desc where
  w0 := wordAt bytes 0
  w1 := wordAt bytes 1
  w2 := wordAt bytes 2
  w3 := wordAt bytes 3
  w4 := wordAt bytes 4
  w5 := wordAt bytes 5
  w6 := wordAt bytes 6
  w7 := wordAt bytes 7
  w8 := wordAt bytes 8
  w9 := wordAt bytes 9

/-- Why bytes are no command: fewer than a descriptor's 40 (R100), or an illegal encoding (R108). -/
inductive Reject where
  | truncated
  | illegal (why : Illegal)
  deriving DecidableEq, Repr

/-- Decodes the command at the head of a byte sequence and gives the bytes that follow it; total on any bytes. -/
def decodeBytes (bytes : List Byte) : Except Reject (Instr × List Byte) :=
  if bytes.length < 40 then .error .truncated
  else
    match decode (descOfBytes bytes) with
    | .ok i => .ok (i, bytes.drop 40)
    | .error e => .error (.illegal e)

/-- The bit of a channel selector (R102). -/
def Channels.bit : Channels → Nat
  | .c3 => 0
  | .c4 => 1

/-- The bit of a component width (R102). -/
def CompWidth.bit : CompWidth → Nat
  | .u8 => 0
  | .u16 => 1

/-- The opcode of a command (R107). -/
def Instr.opcode : Instr → Nat
  | .halt => 0
  | .box _ _ _ => 1
  | .tent _ _ _ => 2
  | .gbox _ _ _ => 3
  | .fgauss _ _ => 4
  | .fgaussn _ _ => 5
  | .gauss _ _ _ _ => 6
  | .median _ _ _ => 7

/-- `CMD` of a two-buffer command (R102). -/
def cmdWord (opcode : Nat) (src dst : Buffer) (param : Nat) : Word :=
  BitVec.ofNat 32 (opcode + 256 * src.channels.bit + 512 * src.cw.bit + 1024 * dst.channels.bit + 2048 * dst.cw.bit
    + 65536 * param)

/-- `CMD` of an in-place command: the `SRC` bits are zero (R101, R108 c). -/
def cmdWordInPlace (opcode : Nat) (buf : Buffer) (param : Nat) : Word :=
  BitVec.ofNat 32 (opcode + 1024 * buf.channels.bit + 2048 * buf.cw.bit + 65536 * param)

/-- `WIDTH` in bits 15:0, `HEIGHT` in bits 31:16 (R101). -/
def dimsWord (b : Buffer) : Word := BitVec.ofNat 32 (b.width + 65536 * b.height)

/-- The ten words of a two-buffer command (R101). -/
def encodeTwo (opcode : Nat) (src dst : Buffer) (param sigma : Nat) : Desc where
  w0 := cmdWord opcode src dst param
  w1 := BitVec.ofNat 32 src.base
  w2 := BitVec.ofNat 32 src.stride
  w3 := BitVec.ofNat 32 src.len
  w4 := dimsWord src
  w5 := BitVec.ofNat 32 dst.base
  w6 := BitVec.ofNat 32 dst.stride
  w7 := BitVec.ofNat 32 dst.len
  w8 := dimsWord dst
  w9 := BitVec.ofNat 32 sigma

/-- The ten words of an in-place command: the buffer in the `DST` fields, the rest zero (R101). -/
def encodeInPlace (opcode : Nat) (buf : Buffer) (param : Nat) : Desc where
  w0 := cmdWordInPlace opcode buf param
  w1 := 0#32
  w2 := 0#32
  w3 := 0#32
  w4 := 0#32
  w5 := BitVec.ofNat 32 buf.base
  w6 := BitVec.ofNat 32 buf.stride
  w7 := BitVec.ofNat 32 buf.len
  w8 := dimsWord buf
  w9 := 0#32

/-- Ten zero words: what HALT assembles to (R112). -/
def Desc.zero : Desc := ⟨0#32, 0#32, 0#32, 0#32, 0#32, 0#32, 0#32, 0#32, 0#32, 0#32⟩

/-- The ten words of a well-formed command (R101, R102, R107; must-be-zero words are zero, R110). -/
def encode : Instr → Desc
  | .halt => Desc.zero
  | .box src dst r => encodeTwo 1 src dst r 0
  | .tent src dst r => encodeTwo 2 src dst r 0
  | .gbox src dst r => encodeTwo 3 src dst r 0
  | .fgauss buf r => encodeInPlace 4 buf r
  | .fgaussn buf r => encodeInPlace 5 buf r
  | .gauss src dst k sigma => encodeTwo 6 src dst k sigma
  | .median src dst r => encodeTwo 7 src dst r 0

/-- The words of a descriptor in order, `W0` first. -/
def Desc.words (d : Desc) : List Word := [d.w0, d.w1, d.w2, d.w3, d.w4, d.w5, d.w6, d.w7, d.w8, d.w9]

/-- The 40 bytes of a descriptor as memory holds them (R100, R71). -/
def Desc.bytes (d : Desc) : List Byte := d.words.flatMap fun w => bytesOfNat 4 w.toNat

/-- The 40 bytes of a well-formed command as memory holds them. -/
def encodeBytes (i : Instr) : List Byte := (encode i).bytes

/-- The 40 bytes of the instruction whose low `nbits` bits are `w`, bit 0 the least significant bit of `W0`, and whose
bits above are 0. -/
def tableBytes (nbits w : Nat) : List Byte := bytesOfNat 40 (w % 2 ^ nbits)

/-- The instruction the decoder reads from an instruction whose bits are `w`, numbered as spec/opcode_table.json numbers
them; none where the decoder refuses. -/
def decodeTableWord (nbits w : Nat) : Option Instr :=
  match decodeBytes (tableBytes nbits w) with
  | .ok (i, _) => some i
  | .error _ => none

end Sys2Proof
end

