-- ==== Sys2Proof/Machine/Flags.lean ====
section
/-! DEFINITION. The status bits. The engine has no arithmetic flags (spec 10_state.md R34): the only status bits are
`STATUS.STATE`, `ERR` and `IRQ_STAT`, and every rule that computes one of them calls a function of this file. -/

namespace Sys2Proof.Machine

/-- The `STATE` code in `STATUS[1:0]` (R28). -/
def RunState.code : RunState → Nat
  | .idle => 0
  | .run => 1
  | .halted => 2
  | .faulted => 3

/-- The value `STATUS` reads: `STATE` in bits 1:0, the rest zero (R28). -/
def State.statusWord (s : State) : Word := BitVec.ofNat 32 s.runState.code

/-- `ERR.CODE` of a cause (spec 60_exceptions.md R261). -/
def Cause.code : Cause → Nat
  | .invalidGeometry => 1
  | .invalidParameter => 2
  | .sizeMismatch => 3
  | .overlap => 4
  | .illegalCommand => 5
  | .descriptorFault => 6

/-- The value recorded: `ERR = CODE + 256 * SUB` (R261, R269). -/
def Trap.errWord (t : Trap) : Word := BitVec.ofNat 32 (t.cause.code + 256 * t.sub)

/-- The subcause of IllegalCommand (R263). -/
def illegalSub : Illegal → Nat
  | .opcode => 1
  | .reservedBits => 2
  | .mustBeZero => 3

/-- The IllegalCommand fault of a rejected descriptor (R263). -/
def illegalTrap (e : Illegal) : Trap := ⟨.illegalCommand, illegalSub e⟩

/-- `HALT_IP`, `HALT_IE`: bit 0 (R31, R32). -/
def haltBit : Word := 1#32

/-- `FAULT_IP`, `FAULT_IE`: bit 1 (R31, R32). -/
def faultBit : Word := 2#32

/-- The implemented bits of IRQ_EN and IRQ_STAT; bits 31:2 read as zero and ignore writes (R31, R32). -/
def irqMask : Word := 3#32

/-- The next `IRQ_STAT`: the host clears the bits whose written value is 1, the hardware sets bits, and the set wins (R32,
U23). -/
def irqStatNext (old clear set : Word) : Word := (old &&& ~~~clear ||| set) &&& irqMask

/-- `irq = (HALT_IP and HALT_IE) or (FAULT_IP and FAULT_IE)`, at all times (R273). -/
def State.irq (s : State) : Bool :=
  (s.irqStat &&& haltBit != 0#32 && s.irqEn &&& haltBit != 0#32) ||
    (s.irqStat &&& faultBit != 0#32 && s.irqEn &&& faultBit != 0#32)

end Sys2Proof.Machine
end

