-- ==== Sys2Proof/Machine/Ops.lean ====
section
/-! DEFINITION. The named operations over memory and registers: the memory primitives (spec 20_memory.md R70 to R72), FETCH
(spec 40_pipeline.md R141), fault entry and the return from it (spec 60_exceptions.md R269, R270), HALT and COMPLETE. -/

namespace Sys2Proof.Machine

/-- The canonical form of memory: addresses strictly rising and no entry equal to what an unlisted address reads as. -/
abbrev Memory.wf (m : Memory) : Prop := m.Pairwise (fun x y => x.1 < y.1) ∧ ∀ c ∈ m, c.2 ≠ 0#8

/-- What a byte that nothing has written reads as (DESIGN CHOICE, unsafe: log 5). -/
def Memory.unwritten : Byte := 0#8

/-- `MEM[a]` (R70). -/
def Memory.read : Memory → Nat → Byte
  | [], _ => Memory.unwritten
  | (k, b) :: m, a => if k = a then b else Memory.read m a

/-- `MEM[a] <- b`, no other byte changed (R72); the canonical form is kept. -/
def Memory.write : Memory → Nat → Byte → Memory
  | [], a, b => if b = Memory.unwritten then [] else [(a, b)]
  | (k, c) :: m, a, b =>
    if a < k then (if b = Memory.unwritten then (k, c) :: m else (a, b) :: (k, c) :: m)
    else if a = k then (if b = Memory.unwritten then m else (a, b) :: m)
    else (k, c) :: Memory.write m a b

/-- Writes reaching memory one after another, in order. -/
def Memory.writeAll (m : Memory) (cells : List Host.Cell) : Memory :=
  cells.foldl (fun m c => m.write c.1 c.2) m

/-- The bytes at `a .. a + n - 1`, lowest address first. -/
def Memory.bytesAt (m : Memory) (a n : Nat) : List Byte := (List.range n).map fun i => m.read (a + i)

/-- `MemRead(a, n)` (R72): little-endian. -/
def Memory.readNat (m : Memory) (a n : Nat) : Nat := natOfBytes (m.bytesAt a n)

/-- The single-byte writes of `MemWrite(a, n, v)` (R72). -/
def cellsOf (a n v : Nat) : List Host.Cell := (List.range n).map fun i => (a + i, BitVec.ofNat 8 (v / 256 ^ i))

/-- `Load(b, row, col, ch)` (spec 40_pipeline.md R145): the component, zero-extended. -/
def loadComponent (b : Buffer) (m : Memory) (row col ch : Nat) : Nat :=
  m.readNat (bufAddr b row col ch) b.cw.bytes

/-- The byte writes of `Store(b, row, col, ch, v)` (R145). -/
def storeCells (b : Buffer) (row col ch v : Nat) : List Host.Cell := cellsOf (bufAddr b row col ch) b.cw.bytes v

/-- `Sample(b, row, col, ch)` (spec 40_pipeline.md R146): clamp-to-edge. -/
def sampleComponent (b : Buffer) (m : Memory) (row col : Int) (ch : Nat) : Nat :=
  loadComponent b m (clamp row b.height) (clamp col b.width) ch

/-- The ten words at an address (R100, R141). -/
def Memory.readDesc (m : Memory) (a : Nat) : Desc := descOfBytes (m.bytesAt a 40)

/-- FETCH (R141, R262): the ten words at CP go to the latches, or DescriptorFault(1) where the 40 bytes are not all in
memory, with no byte read and the latches unchanged. -/
def fetch (s : State) : Except Trap State :=
  if s.memBytes < s.cp.toNat + Config.descBytes then .error ⟨.descriptorFault, 1⟩
  else .ok { s with d := Memory.readDesc s.mem s.cp.toNat, seq := Sequencer.empty .validate }

/-- Fault entry, `raise <Fault>(sub)` (R269): ERR, STATE FAULTED, FAULT_IP; CP and memory unchanged, the hidden state empty
(R39). -/
def raiseTrap (t : Trap) (s : State) : State :=
  { s with
    err := t.errWord
    runState := .faulted
    irqStat := irqStatNext s.irqStat 0#32 faultBit
    seq := Sequencer.empty .idle }

/-- An accepted `CTRL.START` (spec 10_state.md R27), which is also the return from a fault (R270): ERR is cleared and the
sequencer begins with FETCH at CP. IRQ_STAT stays. The start of the run is recorded (log 10). -/
def acceptStart (s : State) : State :=
  { s with err := 0#32, runState := .run, seq := Sequencer.empty .fetch, runStart := s.cp, runDone := 0 }

/-- What HALT does (spec 40_pipeline.md R157): STATE HALTED, HALT_IP; CP unchanged, the hidden state empty (R39). -/
def enterHalted (s : State) : State :=
  { s with
    runState := .halted
    irqStat := irqStatNext s.irqStat 0#32 haltBit
    seq := Sequencer.empty .idle }

/-- COMPLETE (R156, R24): `CP <- (CP + 40) mod 2^32`, STATE stays RUN; the engine keeps nothing of the command, so the
per-command stores are released (log 8); the run counts the command (log 10). -/
def completeCommand (s : State) : State :=
  { s with
    cp := s.cp + 40#32
    coef := []
    workers := s.workers.map fun _ => Worker.idle
    seq := Sequencer.empty .fetch
    runDone := s.runDone + 1 }

/-- One operation after another, stopping at a fault or a refusal. -/
def andThen (o : Host.Outcome State Fault Refusal) (f : State → Host.Outcome State Fault Refusal) :
    Host.Outcome State Fault Refusal :=
  match o with
  | .next s => f s
  | .fault r => .fault r
  | .refused r => .refused r

end Sys2Proof.Machine
end

