-- ==== Sys2Proof/Machine/Tent2Line.lean ====
section
/-! DEFINITION. The line function `Tent2Line_r` of FGAUSSN in closed form (spec 42_fastgauss.md R202) and by the two
cascaded running sums the hardware keeps (R203). -/

namespace Sys2Proof.Machine

/-- `T[i]`: the weights `L - abs(k)`, `k` in `-2r .. 2r`, on the clamp-extended line (R202). -/
def tentSum (x : List Nat) (r : Nat) (i : Nat) : Nat :=
  (List.range (4 * r + 1)).foldl
    (fun acc (k : Nat) => acc + (2 * r + 1 - ((k : Int) - 2 * r).natAbs) * clampedAt x ((i : Int) + k - 2 * r)) 0

/-- `(T + (D - 1) div 2) div D` with `D = L * L`: round to nearest (R202). -/
def tentRound (r sum : Nat) : Nat :=
  (sum + ((2 * r + 1) * (2 * r + 1) - 1) / 2) / ((2 * r + 1) * (2 * r + 1))

/-- `Tent2Line_r` in closed form (R202). -/
def tent2Line (r : Nat) (x : List Nat) : List Nat := (List.range x.length).map fun i => tentRound r (tentSum x r i)

/-- The first-stage sums `s1[-r .. n-1+r]` (`ACC1`, R203), in this order: the delay line. -/
def firstStage (r : Nat) (x : List Nat) : List Nat := slidingSums (clampedAt x) r (-(r : Int)) (x.length + 2 * r)

/-- `s1[j]`, read from the delay line (R203). -/
def delayed (r : Nat) (s1 : List Nat) (j : Int) : Nat := s1.getD (j + r).toNat 0

/-- `Tent2Line_r` by the two accumulators `ACC1` and `ACC2` (R203). -/
def tent2Run (r : Nat) (x : List Nat) : LineResult :=
  let s1 := firstStage r x
  let s2 := slidingSums (delayed r s1) r 0 x.length
  { out := s2.map (tentRound r), acc := [s1.getLastD 0, s2.getLastD 0] }

end Sys2Proof.Machine
end

