-- ==== Sys2Proof/Machine/Pipeline.lean ====
section
/-! DEFINITION. The `row_column_separable_pipeline`: lines, passes, the line worker's three actions, the pass barrier and the
execution of a pass list (spec 40_pipeline.md R147 to R156). `step` runs the lines of a pass in index order, each on worker
`line mod NLANES` (R154; log 4); Machine/Agents.lean runs the same actions in any order. -/

namespace Sys2Proof.Machine

/-- The line functions (R150): `BoxLine_r`, `Tent2Line_r`, and `FirLine_q` with `q = COEF`. -/
inductive LineFn where
  | box (radius : Nat)
  | tent2 (radius : Nat)
  | fir
  deriving DecidableEq, Repr

/-- One pass (R148, R149, spec 44_median.md R242). -/
inductive Pass where
  /-- `RowPass(f, A, B)`. -/
  | row (f : LineFn) (a b : Buffer)
  /-- `ColPass(f, B)`. -/
  | col (f : LineFn) (b : Buffer)
  /-- `WindowPass(Median_r, src, dst)`. -/
  | window (radius : Nat) (src dst : Buffer)
  deriving DecidableEq, Repr

/-- A line function on one channel of a line, by its mechanism: R181, R203, R219. -/
def LineFn.runOn (f : LineFn) (coef : List Nat) (maxValue : Nat) (x : List Nat) : LineResult :=
  match f with
  | .box r => boxRun r x
  | .tent2 r => tent2Run r x
  | .fir => firRun coef maxValue x

/-- The buffer a pass reads. -/
def Pass.reads : Pass → Buffer
  | .row _ a _ => a
  | .col _ b => b
  | .window _ src _ => src

/-- The buffer a pass writes. -/
def Pass.writes : Pass → Buffer
  | .row _ _ b => b
  | .col _ b => b
  | .window _ _ dst => dst

/-- How many lines a pass has: rows, or columns for a column pass (R148, R149, R242). -/
def Pass.lines : Pass → Nat
  | .row _ a _ => a.height
  | .col _ b => b.width
  | .window _ src _ => src.height

/-- The length of a line (R147). -/
def Pass.lineLength : Pass → Nat
  | .row _ a _ => a.width
  | .col _ b => b.height
  | .window _ src _ => src.width

/-- The row of sample `j` of a line (R147). -/
def Pass.rowOf (p : Pass) (line j : Nat) : Nat :=
  match p with
  | .row _ _ _ => line
  | .col _ _ => j
  | .window _ _ _ => line

/-- The column of sample `j` of a line (R147). -/
def Pass.colOf (p : Pass) (line j : Nat) : Nat :=
  match p with
  | .row _ _ _ => j
  | .col _ _ => line
  | .window _ _ _ => j

/-- Worker `lane` of the engine. -/
def State.worker (s : State) (lane : Nat) : Worker := s.workers.getD lane Worker.idle

/-- Replaces worker `lane`. -/
def State.setWorker (s : State) (lane : Nat) (w : Worker) : State := { s with workers := s.workers.set lane w }

/-- Every component of a line, `LB[j][ch]` (R148, R149). -/
def lineComponents (p : Pass) (m : Memory) (line : Nat) : List (List Nat) :=
  (List.range p.lineLength).map fun j =>
    (List.range p.reads.channels.count).map fun ch => loadComponent p.reads m (p.rowOf line j) (p.colOf line j) ch

/-- The sequence of channel `ch` in the line buffer (R147). -/
def channelOf (lb : List (List Nat)) (ch : Nat) : List Nat := lb.map fun pixel => pixel.getD ch 0

/-- The line buffer whose channel sequences are given, for a line of `n` samples. -/
def interleave (n : Nat) (channels : List (List Nat)) : List (List Nat) :=
  (List.range n).map fun j => channels.map fun x => x.getD j 0

/-- Action (a) of the line worker (R152): the whole line goes into `LB`, all of its reads at one moment: DESIGN CHOICE, the
order among the reads of a line is free (spec 20_memory.md R78; log 22). MEDIAN needs no line buffer here: its window is
read from memory as often as needed (spec 10_state.md R35, `90_conflicts.md` C12). -/
def loadLine (p : Pass) (line lane : Nat) (s : State) : State :=
  let lb := match p with
    | .row _ _ _ => lineComponents p s.mem line
    | .col _ _ => lineComponents p s.mem line
    | .window _ _ _ => []
  { s.setWorker lane { s.worker lane with stage := .loaded line, lb := lb } with
    seq := { s.seq with
      notStarted := s.seq.notStarted.erase line
      inProgress := s.seq.inProgress ++ [line] } }

/-- A row or column line with its line function run on every channel, the last sums in `ACC` (R152 b). The outputs wait for
their stores in `LB`, over the samples: DESIGN CHOICE, the spec does not say where they stand (log 19). -/
def runFilter (f : LineFn) (coef : List Nat) (maxValue n channels line : Nat) (w : Worker) : Worker :=
  let results := (List.range channels).map fun ch => f.runOn coef maxValue (channelOf w.lb ch)
  { w with stage := .computed line, lb := interleave n (results.map (·.out)), acc := results.map (·.acc) }

/-- An output row of MEDIAN on every channel: outputs in `LB`, as spec 10_state.md R35 allows, the last tables in `HIST`
(R242, R243). The window samples of the row are all read at one moment: DESIGN CHOICE, their order is free (spec 20_memory.md
R78; log 22). -/
def runMedian (r : Nat) (src : Buffer) (m : Memory) (line : Nat) (w : Worker) : Worker :=
  let results := (List.range src.channels.count).map fun ch =>
    medianRow src.cw (fun row col => sampleComponent src m row col ch) r line src.width
  { w with stage := .computed line, lb := interleave src.width (results.map (·.out)), hist := results.map (·.hist) }

/-- Action (b) of the line worker (R152): the line function runs on each channel. -/
def computeLine (p : Pass) (line lane : Nat) (s : State) : State :=
  let w := s.worker lane
  s.setWorker lane (match p with
    | .row f a _ => runFilter f s.coef a.cw.maxValue a.width a.channels.count line w
    | .col f b => runFilter f s.coef b.cw.maxValue b.height b.channels.count line w
    | .window r src _ => runMedian r src s.mem line w)

/-- The byte writes of a line: every component of the written line, from the outputs in `LB` (R148, R149, R242). They are
issued sample by sample, channel by channel, low byte first: DESIGN CHOICE, the order among a line's writes is free (spec
20_memory.md R78; log 20). -/
def lineWrites (p : Pass) (line : Nat) (lb : List (List Nat)) : List Host.Cell :=
  (List.range p.lineLength).flatMap fun j =>
    (List.range p.writes.channels.count).flatMap fun ch =>
      storeCells p.writes (p.rowOf line j) (p.colOf line j) ch ((lb.getD j []).getD ch 0)

/-- Action (c) of the line worker (R152): the line's stores are issued and the per-line state is released (log 8). -/
def storeLine (p : Pass) (line lane : Nat) (s : State) : State :=
  { s.setWorker lane Worker.idle with
    seq := { s.seq with
      inProgress := s.seq.inProgress.erase line
      finished := s.seq.finished ++ [line]
      pending := s.seq.pending ++ lineWrites p line (s.worker lane).lb } }

/-- The oldest `n` issued writes reach memory (spec 10_state.md R39). `step` lets writes reach memory in the order of issue:
DESIGN CHOICE, that order is free (spec 20_memory.md R78, R79, U20; log 20); `landComponent` is the free form. -/
def drain (n : Nat) (s : State) : State :=
  { s with
    mem := Memory.writeAll s.mem (s.seq.pending.take n)
    seq := { s.seq with pending := s.seq.pending.drop n } }

/-- Component number `k` of the issued writes, `width` bytes to a component, reaches memory before the others: any component
may be the next one (R78, R79), and all of its bytes reach memory together (R74). -/
def landComponent (width k : Nat) (s : State) : State :=
  { s with
    mem := Memory.writeAll s.mem ((s.seq.pending.drop (k * width)).take width)
    seq := { s.seq with pending := s.seq.pending.take (k * width) ++ s.seq.pending.drop ((k + 1) * width) } }

/-- Every issued write reaches memory, oldest first. -/
def drainAll (s : State) : State := drain s.seq.pending.length s

/-- One line from load to the completion of its stores, on worker `line mod NLANES` (R152). -/
def runLine (p : Pass) (s : State) (line : Nat) : State :=
  let lane := line % s.workers.length
  drainAll (storeLine p line lane (computeLine p line lane (loadLine p line lane s)))

/-- The lines of a pass in the given order (R153: the order is free). -/
def runLinesIn (order : List Nat) (p : Pass) (s : State) : State := order.foldl (runLine p) s

/-- The address of the last byte a pass touches in a buffer: its last component's (R144). -/
def lastByte (b : Buffer) : Nat :=
  bufAddr b (b.height - 1) (b.width - 1) (b.channels.count - 1) + b.cw.bytes - 1

/-- Every pixel of the buffer lies in memory: an access is admitted when `a + n <= MEM_BYTES` (spec 20_memory.md R70). -/
def admitted (b : Buffer) (memBytes : Nat) : Bool := decide (lastByte b < memBytes)

/-- The pass opens: its index is recorded and none of its lines is started (R151). A pass on a buffer outside memory stops the
model (R70); VALIDATE lets none through (R271). -/
def openPass (index : Nat) (p : Pass) (s : State) : Host.Outcome State Fault Refusal :=
  if !admitted p.reads s.memBytes then .fault (.outsideMemory (lastByte p.reads))
  else if !admitted p.writes s.memBytes then .fault (.outsideMemory (lastByte p.writes))
  else .next { s with seq := { s.seq with
    phase := .execute
    pass := index
    notStarted := List.range p.lines
    inProgress := []
    finished := [] } }

/-- The pass barrier (R151): every issued write is complete and the pass's lines are closed. -/
def barrier (s : State) : State :=
  let s' := drainAll s
  { s' with seq := { s'.seq with notStarted := [], inProgress := [], finished := [] } }

/-- One pass with its lines in the given order, up to its barrier. -/
def runPassIn (order : List Nat) (index : Nat) (p : Pass) (s : State) : Host.Outcome State Fault Refusal :=
  andThen (openPass index p s) fun s' => .next (barrier (runLinesIn order p s'))

/-- One pass with its lines in index order (R154). -/
def runPass (index : Nat) (p : Pass) (s : State) : Host.Outcome State Fault Refusal :=
  runPassIn (List.range p.lines) index p s

/-- The passes of a list, numbered from `index`, with the barrier between them (R150, R151). -/
def runPasses : Nat → List Pass → State → Host.Outcome State Fault Refusal
  | _, [], s => .next s
  | index, p :: rest, s => andThen (runPass index p s) (runPasses (index + 1) rest)

/-- EXECUTE of a pass list with the given coefficients in `COEF`, then COMPLETE (R140, R150, R156). -/
def executePasses (coef : List Nat) (passes : List Pass) (s : State) : Host.Outcome State Fault Refusal :=
  andThen (runPasses 0 passes { s with coef := coef }) fun s' => .next (completeCommand s')

/-- VALIDATE, then fault entry or EXECUTE and COMPLETE of a command without coefficients (R140, R142). -/
def filterCommand (check : Option Trap) (passes : List Pass) (s : State) : Host.Outcome State Fault Refusal :=
  match check with
  | some t => .next (raiseTrap t s)
  | none => executePasses [] passes s

end Sys2Proof.Machine
end

