-- ==== Sys2Proof/Machine/Box.lean ====
section
/-! DEFINITION. The two-buffer commands of the `box_blur_accumulator`: BOX, TENT, GBOX (spec 41_box.md R184 to R186). -/

namespace Sys2Proof.Machine

/-- The first box iteration: rows from the source, then columns in place (R184). -/
def boxFromSource (src dst : Buffer) (r : Nat) : List Pass := [.row (.box r) src dst, .col (.box r) dst]

/-- A later box iteration: rows and columns of the destination in place (R185, R186). -/
def boxAgain (dst : Buffer) (r : Nat) : List Pass := [.row (.box r) dst dst, .col (.box r) dst]

/-- The pass list of BOX: one iteration, two passes (R184, spec 40_pipeline.md R150). -/
def boxPasses (src dst : Buffer) (r : Nat) : List Pass := boxFromSource src dst r

/-- The pass list of TENT: two iterations, four passes (R185). -/
def tentPasses (src dst : Buffer) (r : Nat) : List Pass := boxFromSource src dst r ++ boxAgain dst r

/-- The pass list of GBOX: three iterations, six passes (R186, `90_conflicts.md` C1). -/
def gboxPasses (src dst : Buffer) (r : Nat) : List Pass := boxFromSource src dst r ++ boxAgain dst r ++ boxAgain dst r

/-- `BOX` (R184). -/
def execBox (src dst : Buffer) (r : Nat) (s : State) : Host.Outcome State Fault Refusal :=
  filterCommand (checkTwoBuffers src dst s.memBytes) (boxPasses src dst r) s

/-- `TENT` (R185). -/
def execTent (src dst : Buffer) (r : Nat) (s : State) : Host.Outcome State Fault Refusal :=
  filterCommand (checkTwoBuffers src dst s.memBytes) (tentPasses src dst r) s

/-- `GBOX` (R186). -/
def execGbox (src dst : Buffer) (r : Nat) (s : State) : Host.Outcome State Fault Refusal :=
  filterCommand (checkTwoBuffers src dst s.memBytes) (gboxPasses src dst r) s

end Sys2Proof.Machine
end

