-- ==== Sys2Proof/Machine/Control.lean ====
section
/-! DEFINITION. HALT, the one command that is not a filter (spec 40_pipeline.md R157). -/

namespace Sys2Proof.Machine

/-- `HALT` (R157): the run ends with STATE HALTED and HALT_IP set; CP stays at the HALT descriptor. VALIDATE checks nothing
more of it (R264). -/
def execHalt (s : State) : Host.Outcome State Fault Refusal := .next (enterHalted s)

end Sys2Proof.Machine
end

