-- ==== Sys2Proof/Machine/FastGauss.lean ====
section
/-! DEFINITION. The in-place commands FGAUSS and FGAUSSN (spec 42_fastgauss.md R200, R201, R204). -/

namespace Sys2Proof.Machine

/-- The pass list of FGAUSS: rows, then columns, in place (R201, spec 40_pipeline.md R150). -/
def fgaussPasses (buf : Buffer) (r : Nat) : List Pass := [.row (.box r) buf buf, .col (.box r) buf]

/-- The pass list of FGAUSSN (R204). -/
def fgaussnPasses (buf : Buffer) (r : Nat) : List Pass := [.row (.tent2 r) buf buf, .col (.tent2 r) buf]

/-- `FGAUSS` (R201). -/
def execFgauss (buf : Buffer) (r : Nat) (s : State) : Host.Outcome State Fault Refusal :=
  filterCommand (checkInPlace buf s.memBytes) (fgaussPasses buf r) s

/-- `FGAUSSN` (R204). -/
def execFgaussn (buf : Buffer) (r : Nat) (s : State) : Host.Outcome State Fault Refusal :=
  filterCommand (checkInPlace buf s.memBytes) (fgaussnPasses buf r) s

end Sys2Proof.Machine
end

