-- ==== Sys2Proof/Machine/Kernel.lean ====
section
/-! DEFINITION. The `gaussian_kernel_engine`'s kernel generation, `GKE_COEF(K, W9)` (spec 43_gauss.md R216, R217). The
spec's weights are real numbers; here every `exp` is enclosed between two multiples of `2^-256` and the coefficients are
rounded from the enclosures (log 9). `kernelDecided` tests that both ends of every enclosure round to the same integer; where
it holds the coefficients are the spec's. -/

namespace Sys2Proof.Machine

/-- A real number enclosed between `lo / 2^256` and `hi / 2^256`. -/
structure Enclosure where
  lo : Nat
  hi : Nat
  deriving DecidableEq, Repr

/-- The scale of an enclosure. -/
def scale : Nat := 2 ^ 256

/-- `a div b` rounded up. -/
def ceilDiv (a b : Nat) : Nat := (a + b - 1) / b

/-- How many terms of the exponential series are summed. -/
def expTerms : Nat := 60

/-- How many times the argument is halved before the series, and the result squared after it. -/
def halvings : Nat := 9

/-- The terms `t^n / n!` for `n` from `from`, `count` of them, rounded down; `t = a / b`, and `term` is the first. -/
def termsLo (a b : Nat) : Nat → Nat → Nat → List Nat
  | _, _, 0 => []
  | n, term, count + 1 => term :: termsLo a b (n + 1) (term * a / (b * (n + 1))) count

/-- The same terms rounded up. -/
def termsHi (a b : Nat) : Nat → Nat → Nat → List Nat
  | _, _, 0 => []
  | n, term, count + 1 => term :: termsHi a b (n + 1) (ceilDiv (term * a) (b * (n + 1))) count

/-- `exp(a / b)` for `a / b <= 1/2`: the partial sums, and above them twice the last term summed, which bounds the tail. -/
def expSmall (a b : Nat) : Enclosure :=
  let hi := termsHi a b 0 scale expTerms
  { lo := (termsLo a b 0 scale expTerms).sum, hi := hi.sum + 2 * hi.getLastD 0 }

/-- `1 / x`. -/
def Enclosure.inv (x : Enclosure) : Enclosure := ⟨scale * scale / x.hi, ceilDiv (scale * scale) x.lo⟩

/-- `x * x`. -/
def Enclosure.square (x : Enclosure) : Enclosure := ⟨x.lo * x.lo / scale, ceilDiv (x.hi * x.hi) scale⟩

/-- `x^(2^n)`. -/
def Enclosure.squareTimes : Nat → Enclosure → Enclosure
  | 0, x => x
  | n + 1, x => Enclosure.squareTimes n x.square

/-- `exp(- a / b)`: at or above 256 it is below `2^-256`; below 256 it is `(1 / exp(a / (b * 2^9)))^(2^9)`. -/
def expNeg (a b : Nat) : Enclosure :=
  if 256 * b ≤ a then ⟨0, 1⟩ else (expSmall a (b * 2 ^ halvings)).inv.squareTimes halvings

/-- `g[k] = exp(-(k - c)^2 / (2 sigma^2))` at distance `dist = |k - c|`, with `sigma = W9 / 65536`, so that the exponent is
`dist^2 * 2^31 / W9^2` (R216). -/
def tapWeight (sigma dist : Nat) : Enclosure := expNeg (dist * dist * 2 ^ 31) (sigma * sigma)

/-- `|k - c|` (R216). -/
def tapDistance (kernelSize k : Nat) : Nat := (k - centreTap kernelSize) + (centreTap kernelSize - k)

/-- `g[0 .. K-1]` (R216): one weight per distance, read at `|k - c|`. -/
def tapWeights (kernelSize sigma : Nat) : List Enclosure :=
  let byDistance := (List.range (centreTap kernelSize + 1)).map (tapWeight sigma)
  (List.range kernelSize).map fun k => byDistance.getD (tapDistance kernelSize k) ⟨0, 0⟩

/-- `G`, the sum of the weights (R216). -/
def weightSum (weights : List Enclosure) : Enclosure := ⟨(weights.map (·.lo)).sum, (weights.map (·.hi)).sum⟩

/-- `floor(num / den * 65536 + 1/2)` (R217, round half up). -/
def roundedShare (num den : Nat) : Nat := (2 * Config.one * num + den) / (2 * den)

/-- `q0[k]`, from the lower end of the enclosures (R217; log 9). -/
def roundedTaps (weights : List Enclosure) : List Nat :=
  let total := weightSum weights
  weights.map fun g => roundedShare g.lo total.hi

/-- The residual `e = 65536 - sum of q0` is added to the centre tap (R217). -/
def withResidual (q0 : List Nat) : List Nat :=
  q0.modify (centreTap q0.length) fun q => ((q : Int) + ((Config.one : Int) - (q0.sum : Int))).toNat

/-- `GKE_COEF(K, W9)` (R217). -/
def gkeCoef (kernelSize sigma : Nat) : List Nat := withResidual (roundedTaps (tapWeights kernelSize sigma))

/-- Both ends of every weight's enclosure round to the same coefficient, so the rounding is the exact one (log 9). -/
def kernelDecided (kernelSize sigma : Nat) : Bool :=
  let weights := tapWeights kernelSize sigma
  let total := weightSum weights
  weights.all fun g => roundedShare g.lo total.hi == roundedShare g.hi total.lo

end Sys2Proof.Machine
end

