-- ==== Sys2Proof/Machine/Gauss.lean ====
section
/-! DEFINITION. GAUSS, the exact separable convolution (spec 43_gauss.md R221). -/

namespace Sys2Proof.Machine

/-- The pass list of GAUSS: rows, then columns, with the kernel in `COEF` (R221, spec 40_pipeline.md R150). -/
def gaussPasses (src dst : Buffer) : List Pass := [.row .fir src dst, .col .fir dst]

/-- `GAUSS` (R221): once VALIDATE has passed, `COEF <- GKE_COEF(K, W9)` and then the passes. -/
def execGauss (src dst : Buffer) (kernelSize sigma : Nat) (s : State) : Host.Outcome State Fault Refusal :=
  match checkGauss src dst kernelSize sigma s.memBytes with
  | some t => .next (raiseTrap t s)
  | none => executePasses (gkeCoef kernelSize sigma) (gaussPasses src dst) s

end Sys2Proof.Machine
end

