-- ==== Sys2Proof/Machine/Median.lean ====
section
/-! DEFINITION. MEDIAN, the exact median filter (spec 44_median.md R242). -/

namespace Sys2Proof.Machine

/-- The pass list of MEDIAN: one two-dimensional pass (R242, spec 40_pipeline.md R150). -/
def medianPasses (src dst : Buffer) (r : Nat) : List Pass := [.window r src dst]

/-- `MEDIAN` (R242). -/
def execMedian (src dst : Buffer) (r : Nat) (s : State) : Host.Outcome State Fault Refusal :=
  filterCommand (checkTwoBuffers src dst s.memBytes) (medianPasses src dst r) s

end Sys2Proof.Machine
end

