-- ==== Sys2Proof/Machine/Dispatch.lean ====
section
/-! DEFINITION. The meaning of every command, one arm per constructor of Instr. -/

namespace Sys2Proof.Machine

def exec (i : Instr) (s : State) : Host.Outcome State Fault Refusal :=
  match i with
  | .halt => Sys2Proof.Machine.execHalt s
  | .box src dst r => Sys2Proof.Machine.execBox src dst r s
  | .tent src dst r => Sys2Proof.Machine.execTent src dst r s
  | .gbox src dst r => Sys2Proof.Machine.execGbox src dst r s
  | .fgauss buf r => Sys2Proof.Machine.execFgauss buf r s
  | .fgaussn buf r => Sys2Proof.Machine.execFgaussn buf r s
  | .gauss src dst k sigma => Sys2Proof.Machine.execGauss src dst k sigma s
  | .median src dst r => Sys2Proof.Machine.execMedian src dst r s

end Sys2Proof.Machine
end

