-- ==== Sys2Proof/Machine/Step.lean ====
section
/-! DEFINITION. One step of the engine: the whole command at CP (spec 40_pipeline.md R140, R155; log 1), or nothing when the
engine is not running (spec 70_reset_and_hazards.md R300). -/

namespace Sys2Proof.Machine

/-- One step. While `rst` is high the engine is in IDLE and stays there (R300; log 21). In RUN: FETCH, decoding, then the command's meaning; a descriptor that cannot be fetched or decoded takes its
fault (R141, R142, R262, R263). In IDLE, HALTED and FAULTED the sequencer does nothing until START (R277, R300). -/
def step (s : State) : Host.Outcome State Fault Refusal :=
  match s.runState with
  | .run =>
    match fetch s with
    | .error t => .next (raiseTrap t s)
    | .ok s' =>
      match decode s'.d with
      | .error e => .next (raiseTrap (illegalTrap e) s')
      | .ok i => exec i s'
  | .idle => .next s
  | .halted => .next s
  | .faulted => .next s

/-- The address at which `withFetchWord` places a descriptor: CP where the 40 bytes fit there, else 0. -/
def State.fetchAddress (s : State) : Word :=
  if s.cp.toNat + Config.descBytes ≤ s.memBytes then s.cp else 0#32

/-- `s` with the instruction whose low `nbits` bits are `w` (bit 0 the least significant bit of `W0`, the bits above zero) as
the descriptor the very next step fetches: its 40 bytes stored at CP, `rst` low, and the engine started as a host's START does (log 2). -/
def State.withFetchWord (s : State) (nbits w : Nat) : State :=
  acceptStart
    { s with
      rst := false
      cp := s.fetchAddress
      mem := Memory.writeAll s.mem (cellsOf s.fetchAddress.toNat Config.descBytes (w % 2 ^ nbits)) }

end Sys2Proof.Machine
end

