-- ==== Sys2Proof/Machine/Commands.lean ====
section
/-! DEFINITION. The command set as a table: what VALIDATE checks of each command, its pass list, its coefficients and its
buffers (spec 40_pipeline.md R142, R150). The line-by-line machine (Machine/Agents.lean) and the host port read it. -/

namespace Sys2Proof.Machine

/-- The checks VALIDATE makes of a decoded command; HALT checks nothing (spec 60_exceptions.md R264 to R268). -/
def checkOf (i : Instr) (memBytes : Nat) : Option Trap :=
  match i with
  | .halt => none
  | .box src dst _ => checkTwoBuffers src dst memBytes
  | .tent src dst _ => checkTwoBuffers src dst memBytes
  | .gbox src dst _ => checkTwoBuffers src dst memBytes
  | .fgauss buf _ => checkInPlace buf memBytes
  | .fgaussn buf _ => checkInPlace buf memBytes
  | .gauss src dst k sigma => checkGauss src dst k sigma memBytes
  | .median src dst _ => checkTwoBuffers src dst memBytes

/-- The pass list of R150; HALT has none. -/
def passesOf : Instr → List Pass
  | .halt => []
  | .box src dst r => boxPasses src dst r
  | .tent src dst r => tentPasses src dst r
  | .gbox src dst r => gboxPasses src dst r
  | .fgauss buf r => fgaussPasses buf r
  | .fgaussn buf r => fgaussnPasses buf r
  | .gauss src dst _ _ => gaussPasses src dst
  | .median src dst r => medianPasses src dst r

/-- What EXECUTE puts into `COEF` (R150, spec 10_state.md R37): the kernel, for GAUSS. -/
def coefOf : Instr → List Nat
  | .halt => []
  | .box _ _ _ => []
  | .tent _ _ _ => []
  | .gbox _ _ _ => []
  | .fgauss _ _ => []
  | .fgaussn _ _ => []
  | .gauss _ _ k sigma => gkeCoef k sigma
  | .median _ _ _ => []

/-- The buffer a command writes: its destination (spec 20_memory.md R75). -/
def destOf : Instr → List Buffer
  | .halt => []
  | .box _ dst _ => [dst]
  | .tent _ dst _ => [dst]
  | .gbox _ dst _ => [dst]
  | .fgauss buf _ => [buf]
  | .fgaussn buf _ => [buf]
  | .gauss _ dst _ _ => [dst]
  | .median _ dst _ => [dst]

/-- The buffers a command names: its source, if it has one, and its destination (R107). -/
def buffersOf : Instr → List Buffer
  | .halt => []
  | .box src dst _ => [src, dst]
  | .tent src dst _ => [src, dst]
  | .gbox src dst _ => [src, dst]
  | .fgauss buf _ => [buf]
  | .fgaussn buf _ => [buf]
  | .gauss src dst _ _ => [src, dst]
  | .median src dst _ => [src, dst]

end Sys2Proof.Machine
end

