-- ==== Sys2Proof/Machine/Agents.lean ====
section
/-! DEFINITION. The engine at the grain of its agents (spec 00_scope.md R5): one move is one phase of the sequencer (spec
40_pipeline.md R140), one action of one line worker on one line (R152), or one issued component write reaching memory (spec
10_state.md R39, spec 20_memory.md R74). Any enabled move may be the next one: the order of lines, the worker that takes a
line, the order in which issued components reach memory and the moment each does are free (R153, spec 20_memory.md R78, R79).
The reads of a line are one move, and so is the issue of its writes: DESIGN CHOICE (logs 20 and 22).
`step` is one command of this machine with one choice of moves (R154, R155; logs 1, 4 and 20). -/

namespace Sys2Proof.Machine

/-- A move of one agent. -/
inductive Move where
  /-- The sequencer goes through its current phase. -/
  | sequencer
  /-- Worker `lane` takes a line and loads it (R152 a). -/
  | load (line lane : Nat)
  /-- Worker `lane` runs the line function on the line it holds (R152 b). -/
  | compute (line lane : Nat)
  /-- Worker `lane` issues the stores of the line it holds (R152 c). -/
  | store (line lane : Nat)
  /-- Component number `k` of the issued writes, whichever it is, reaches memory (R74, R78, R79). -/
  | land (k : Nat)
  deriving DecidableEq, Repr

/-- The command in the latches, once FETCH has filled them (spec 10_state.md R22). -/
def State.command (s : State) : Option Instr := (decode s.d).toOption

/-- The pass in progress: the one at the sequencer's index in the command's pass list (R39, R150). -/
def State.currentPass (s : State) : Option Pass := s.command.bind fun i => (passesOf i)[s.seq.pass]?

/-- Opens pass `index` of a pass list, or goes to COMPLETE when there is no such pass (R150, R151, R156). -/
def openOrComplete (index : Nat) (passes : List Pass) (s : State) : Option State :=
  match passes[index]? with
  | none => some { s with seq := { s.seq with phase := .complete } }
  | some p =>
    match openPass index p s with
    | .next s' => some s'
    | .fault _ => none
    | .refused _ => none

/-- VALIDATE of the command in the latches, and what follows it: fault entry, HALT, or the first pass (R140, R142). -/
def validateMove (s : State) : Option State :=
  match decode s.d with
  | .error e => some (raiseTrap (illegalTrap e) s)
  | .ok .halt => some (enterHalted s)
  | .ok i =>
    match checkOf i s.memBytes with
    | some t => some (raiseTrap t s)
    | none => openOrComplete 0 (passesOf i) { s with coef := coefOf i }

/-- Every line of the open pass has finished and all of its stores are complete (R151). -/
def State.passClosed (s : State) : Bool :=
  s.seq.notStarted.isEmpty && s.seq.inProgress.isEmpty && s.seq.pending.isEmpty

/-- The sequencer's move; none where it has to wait (R140, R151). -/
def sequencerMove (s : State) : Option State :=
  match s.runState, s.seq.phase with
  | .run, .fetch =>
    match fetch s with
    | .error t => some (raiseTrap t s)
    | .ok s' => some s'
  | .run, .validate => validateMove s
  | .run, .execute =>
    if s.passClosed then s.command.bind fun i => openOrComplete (s.seq.pass + 1) (passesOf i) s else none
  | .run, .complete => some (completeCommand s)
  | _, _ => none

/-- A worker's action on the open pass, when the worker is in the given stage. -/
def workerMove (s : State) (lane : Nat) (stage : Stage) (action : Pass → State → State) : Option State :=
  if s.runState = .run ∧ s.seq.phase = .execute ∧ lane < s.workers.length ∧ (s.worker lane).stage = stage then
    s.currentPass.map fun p => action p s
  else none

/-- A component of the open pass's issued writes reaches memory, if there is such a component (R74). -/
def landMove (k : Nat) (s : State) : Option State :=
  if s.runState = .run ∧ s.seq.phase = .execute then
    s.currentPass.bind fun p =>
      if (k + 1) * p.writes.cw.bytes ≤ s.seq.pending.length then some (landComponent p.writes.cw.bytes k s) else none
  else none

/-- One move of one agent; none where it is not enabled. -/
def move (m : Move) (s : State) : Option State :=
  match m with
  | .sequencer => sequencerMove s
  | .load line lane =>
    if line ∈ s.seq.notStarted then workerMove s lane .free (fun p => loadLine p line lane) else none
  | .compute line lane => workerMove s lane (.loaded line) (fun p => computeLine p line lane)
  | .store line lane => workerMove s lane (.computed line) (fun p => storeLine p line lane)
  | .land k => landMove k s

/-- Between two commands, or out of RUN: no command is in execution. -/
def State.betweenCommands (s : State) : Bool := s.seq.phase == .fetch || s.seq.phase == .idle

/-- The state in which a sequence of moves ends, if it takes the engine from `s` to the next state between commands and no
further. -/
def commandRun : List Move → State → Option State
  | [], _ => none
  | m :: rest, s =>
    match move m s with
    | none => none
    | some s' => if s'.betweenCommands then (if rest.isEmpty then some s' else none) else commandRun rest s'

/-- The state in which a sequence of moves leaves the engine, if all of them are enabled and it is still within the command. -/
def unfinishedRun : List Move → State → Option State
  | [], s => some s
  | m :: rest, s =>
    match move m s with
    | none => none
    | some s' => if s'.betweenCommands then none else unfinishedRun rest s'

end Sys2Proof.Machine
end

