-- ==== Sys2Proof/Machine/Filters.lean ====
section
/-! DEFINITION. What each filter computes, as a function on whole images and in closed form (spec 40_pipeline.md R155): the
reference the pipeline of mechanisms is held to. `exec` does not call it. -/

namespace Sys2Proof.Machine

/-- An image: the component at (row, column, channel). -/
abbrev Image := Nat → Nat → Nat → Nat

/-- The image a buffer holds (R155). -/
def imageOf (b : Buffer) (m : Memory) : Image := fun row col ch => loadComponent b m row col ch

/-- A line function on every row of every channel, rows of `w` samples (spec 41_box.md R184, R148). -/
def onRows (f : List Nat → List Nat) (w : Nat) (img : Image) : Image :=
  fun row col ch => (f ((List.range w).map fun j => img row j ch)).getD col 0

/-- A line function on every column of every channel, columns of `h` samples (R184, R149). -/
def onColumns (f : List Nat → List Nat) (h : Nat) (img : Image) : Image :=
  fun row col ch => (f ((List.range h).map fun j => img j col ch)).getD row 0

/-- Rows first, columns second (R150). -/
def separable (f : List Nat → List Nat) (w h : Nat) (img : Image) : Image := onColumns f h (onRows f w img)

/-- `Box2D_r` (R184). -/
def box2D (r w h : Nat) (img : Image) : Image := separable (boxLine r) w h img

/-- `Tent2D_r = Box2D_r o Box2D_r` (R185). -/
def tent2D (r w h : Nat) (img : Image) : Image := box2D r w h (box2D r w h img)

/-- `GBox2D_r = Box2D_r o Box2D_r o Box2D_r` (R186). -/
def gbox2D (r w h : Nat) (img : Image) : Image := box2D r w h (box2D r w h (box2D r w h img))

/-- FGAUSSN: `Tent2Line_r` on rows, then columns (spec 42_fastgauss.md R204). -/
def fgaussn2D (r w h : Nat) (img : Image) : Image := separable (tent2Line r) w h img

/-- GAUSS with kernel `q`: `FirLine_q` on rows, then columns (spec 43_gauss.md R221). -/
def gauss2D (q : List Nat) (maxValue w h : Nat) (img : Image) : Image := separable (firLine q maxValue) w h img

/-- MEDIAN: the median of the clamped window at every position (spec 44_median.md R240 to R242). -/
def median2D (r w h : Nat) (img : Image) : Image :=
  fun row col ch => medianAt (fun y x => img (clamp y h) (clamp x w) ch) r row col

end Sys2Proof.Machine
end

