-- ==== Sys2Proof/Machine/HostPort.lean ====
section
/-! DEFINITION. What the host can do to the engine: the register port (spec 10_state.md R25 to R33), its path to memory, the
`rst` input (spec 70_reset_and_hazards.md R300 to R302) and the rules on access during RUN (R306). Host actions land between
two steps of the engine (log 1). -/

namespace Sys2Proof.Machine

/-- What a read returns, and the state after it. -/
structure Seen (α : Type) where
  value : α
  after : State
  deriving DecidableEq, Repr

/-- Only aligned 32-bit register accesses exist (R25, R33). -/
def wordAccess (offset size : Nat) : Bool := size == 4 && offset % 4 == 0

/-- `ID` (R26): the letters "SFE" and version 1. -/
def idWord : Word := 0x53464501#32

/-- The value of the control register at an offset; `CTRL` and every unmapped offset read 0 (R25 to R33). -/
def regValue (s : State) (offset : Nat) : Word :=
  match offset with
  | 0x00 => idWord
  | 0x08 => s.statusWord
  | 0x0C => s.cp
  | 0x10 => s.err
  | 0x14 => s.irqEn
  | 0x18 => s.irqStat
  | _ => 0#32

/-- What a read of `CP` returns during RUN: the address of some descriptor from the starting one to the current one, that is
the starting one moved on by 40 for some number of the commands completed so far; which number is a free value (R29; log
10). -/
def cpDuringRun (s : State) : Word :=
  s.runStart + BitVec.ofNat 32 (40 * (Config.cpChoice s.draws % (s.runDone + 1)))

/-- A register read (R25 to R33). -/
def regRead (offset size : Nat) (s : State) : Seen Word :=
  if wordAccess offset size then
    if offset = 0x0C ∧ s.runState = .run then ⟨cpDuringRun s, { s with draws := s.draws + 1 }⟩
    else ⟨regValue s offset, s⟩
  else ⟨0#32, s⟩

/-- A write to `CTRL`: bit 0 starts the engine when it is not in RUN (R27). -/
def writeCtrl (v : Word) (s : State) : State :=
  if v &&& 1#32 = 1#32 ∧ s.runState ≠ .run then acceptStart s else s

/-- A write to `CP`: ignored in RUN, else the two low bits are dropped (R29). -/
def writeCp (v : Word) (s : State) : State :=
  if s.runState = .run then s else { s with cp := v &&& 0xFFFFFFFC#32 }

/-- A write to `IRQ_EN` (R31). -/
def writeIrqEn (v : Word) (s : State) : State := { s with irqEn := v &&& irqMask }

/-- A write to `IRQ_STAT`: each bit written 1 is cleared (R32). -/
def writeIrqStat (v : Word) (s : State) : State := { s with irqStat := irqStatNext s.irqStat v 0#32 }

/-- A register write; `ID`, `STATUS`, `ERR` and unmapped offsets ignore it (R25 to R33). While `rst` is high the engine is
held in its reset state, so no write has an effect (spec 70_reset_and_hazards.md R300; log 21). -/
def regWrite (offset size : Nat) (v : Word) (s : State) : State :=
  if s.rst then s
  else if wordAccess offset size then
    match offset with
    | 0x04 => writeCtrl v s
    | 0x0C => writeCp v s
    | 0x14 => writeIrqEn v s
    | 0x18 => writeIrqStat v s
    | _ => s
  else s

/-- The command at CP, if its descriptor can be fetched and decoded. -/
def State.nextCommand (s : State) : Option Instr :=
  match fetch s with
  | .error _ => none
  | .ok s' => (decode s'.d).toOption

/-- Some command of the running list, from the one at CP on, satisfies the test; the list is followed by running it. When
`fuel` runs out before the list ends, the answer is true (log 11). -/
def someCommand (test : State → Bool) : Nat → State → Bool
  | 0, _ => true
  | fuel + 1, s =>
    match s.runState with
    | .run =>
      test s ||
        (match step s with
        | .next s' => someCommand test fuel s'
        | .fault _ => false
        | .refused _ => false)
    | .idle => false
    | .halted => false
    | .faulted => false

/-- More steps than a list has descriptors in memory, unless CP wraps (R24, spec 40_pipeline.md R163). -/
def listFuel (s : State) : Nat := s.memBytes / 40 + 2

/-- The address lies in the descriptor at CP, not yet fetched, or in a footprint of its command (R306). -/
def usesByte (a : Nat) (s : State) : Bool :=
  (decide (s.cp.toNat ≤ a) && decide (a < s.cp.toNat + 40)) ||
    (match s.nextCommand with
    | some i => (buffersOf i).any fun b => inFootprint b a
    | none => false)

/-- The address lies in the destination footprint of the command at CP (R306). -/
def writesByte (a : Nat) (s : State) : Bool :=
  match s.nextCommand with
  | some i => (destOf i).any fun b => inFootprint b a
  | none => false

/-- The running list still uses the byte (R306). -/
def listUses (s : State) (a : Nat) : Bool := someCommand (usesByte a) (listFuel s) s

/-- The byte is in the destination footprint of a command of the running list that has not completed (R306). -/
def listWrites (s : State) (a : Nat) : Bool := someCommand (writesByte a) (listFuel s) s

/-- A host read of one byte (spec 60_exceptions.md R275): during RUN a byte of an uncompleted destination footprint reads as a
free value (R306, U14; log 11). -/
def hostRead (a : Nat) (s : State) : Except Fault (Seen Byte) :=
  if s.memBytes ≤ a then .error (.outsideMemory a)
  else if s.runState = .run ∧ listWrites s a = true then
    .ok ⟨Config.hostRunByte s.draws a, { s with draws := s.draws + 1 }⟩
  else .ok ⟨s.mem.read a, s⟩

/-- A host write of one byte (R275): during RUN a write to a byte the list still uses is refused (R306, U15; log 11). -/
def hostWrite (a : Nat) (b : Byte) (s : State) : Host.Outcome State Fault Refusal :=
  if s.memBytes ≤ a then .fault (.outsideMemory a)
  else if s.runState = .run ∧ listUses s a = true then .refused (.hostRace a)
  else .next { s with mem := s.mem.write a b }

/-- The command a reset during RUN abandons: the one in the latches, or before its FETCH the one at CP, if VALIDATE passes it
(R301). -/
def abandonedCommand (s : State) : Option Instr :=
  let found := if s.seq.phase = .fetch then s.nextCommand else (decode s.d).toOption
  found.filter fun i => (checkOf i s.memBytes).isNone

/-- The bytes a reset leaves unspecified: the pixel area of the abandoned command's destination, each a free value (R301, U13;
log 12). -/
def cutCells (s : State) : List Host.Cell :=
  match s.runState with
  | .run =>
    match abandonedCommand s with
    | some i => (destOf i).flatMap fun b => (pixelArea b).map fun a => (a, Config.cutByte s.draws a)
    | none => []
  | .idle => []
  | .halted => []
  | .faulted => []

/-- The `rst` input goes high (R300 to R302): the reset values, memory kept but for the bytes of R301. -/
def assertReset (s : State) : State :=
  { State.reset with
    rst := true
    workers := s.workers.map fun _ => Worker.idle
    mem := Memory.writeAll s.mem (cutCells s)
    memBytes := s.memBytes
    draws := s.draws + 1 }

/-- The `rst` input goes low: the engine is left in the state it was held in (R300, R43). -/
def releaseReset (s : State) : State := { s with rst := false }

/-- A reset from beginning to end (R43, R300): `rst` goes high and low again. -/
def hardReset (s : State) : State := releaseReset (assertReset s)

/-- What can happen next at the engine's boundary: a step of the engine, an action of the host, both at once where a host
clear of IRQ_STAT coincides with a step (R32, U23; log 14), or `rst` going high or low (R300; log 21). -/
inductive Event where
  | engine
  | engineWhileClearing (v : Word)
  | regRead (offset size : Nat)
  | regWrite (offset size : Nat) (v : Word)
  | hostRead (a : Nat)
  | hostWrite (a : Nat) (b : Byte)
  | rstHigh
  | rstLow
  deriving DecidableEq, Repr

/-- The state after one event. A step that coincides with a host clear sets its bit after the clear: the set wins (R32). -/
def onEvent (e : Event) (s : State) : Host.Outcome State Fault Refusal :=
  match e with
  | .engine => step s
  | .engineWhileClearing v => step (regWrite 0x18 4 v s)
  | .regRead offset size => .next (regRead offset size s).after
  | .regWrite offset size v => .next (regWrite offset size v s)
  | .hostRead a =>
    match hostRead a s with
    | .ok seen => .next seen.after
    | .error f => .fault f
  | .hostWrite a b => hostWrite a b s
  | .rstHigh => .next (assertReset s)
  | .rstLow => .next (releaseReset s)

end Sys2Proof.Machine
end

