-- ==== Sys2Proof/Safety.lean ====
section
/-! DEFINITION. The terms the statements use: when a buffer description is legal, what a command leaves unchanged, and the
invariant of the engine between commands. -/

namespace Sys2Proof.Machine

/-- The buffer passes the five checks of spec 60_exceptions.md R264. -/
abbrev Fits (b : Buffer) (memBytes : Nat) : Prop :=
  0 < b.width ∧ 0 < b.height ∧ b.width * b.channels.count ≤ b.stride ∧ b.stride * b.height ≤ b.len ∧
    (b.cw = .u16 → b.base % 2 = 0) ∧ b.base + b.len * b.cw.bytes ≤ memBytes

/-- Source and destination have equal width, height, channels and component width (R266). -/
abbrev SameSize (src dst : Buffer) : Prop :=
  src.width = dst.width ∧ src.height = dst.height ∧ src.channels = dst.channels ∧ src.cw = dst.cw

/-- The footprints of source and destination share no byte (R267). -/
abbrev Apart (src dst : Buffer) : Prop :=
  src.base + src.len * src.cw.bytes ≤ dst.base ∨ dst.base + dst.len * dst.cw.bytes ≤ src.base

/-- The buffers of a two-buffer command are legal (R264, R266, R267). -/
abbrev LegalPair (src dst : Buffer) (memBytes : Nat) : Prop :=
  Fits src memBytes ∧ Fits dst memBytes ∧ SameSize src dst ∧ Apart src dst

/-- Kernel size and sigma of GAUSS are legal (R265). -/
abbrev LegalKernel (kernelSize sigma : Nat) : Prop := kernelSize % 2 = 1 ∧ kernelSize ≤ 255 ∧ 0 < sigma

/-- `(row, col, ch)` is in bounds for the buffer (spec 40_pipeline.md R144). -/
abbrev InBounds (b : Buffer) (row col ch : Nat) : Prop := row < b.height ∧ col < b.width ∧ ch < b.channels.count

/-- The buffer holds the image, component by component. -/
abbrev Holds (b : Buffer) (m : Memory) (img : Image) : Prop :=
  ∀ row col ch, InBounds b row col ch → loadComponent b m row col ch = img row col ch

/-- Every byte outside the listed addresses reads as before (R159). -/
abbrev SameOutside (area : List Nat) (m m' : Memory) : Prop := ∀ a, a ∉ area → m'.read a = m.read a

/-- Every register but CP, and every parameter, is as before: what a completed filter command leaves (R156). -/
abbrev RegistersKept (s t : State) : Prop :=
  t.d = s.d ∧ t.runState = s.runState ∧ t.err = s.err ∧ t.irqEn = s.irqEn ∧ t.irqStat = s.irqStat ∧ t.rst = s.rst ∧
    t.memBytes = s.memBytes ∧ t.runStart = s.runStart ∧ t.draws = s.draws

/-- The engine keeps nothing of a completed command: the per-command and per-line stores are released and the next phase is
FETCH (R156, spec 10_state.md R35 to R39; log 8). -/
abbrev Released (s t : State) : Prop :=
  t.coef = [] ∧ t.workers = s.workers.map (fun _ => Worker.idle) ∧ t.seq = Sequencer.empty .fetch

/-- A filter command completed with the given image in its destination: the next state `t` of `s` (R155, R156, R159). -/
abbrev Completed (dst : Buffer) (img : Image) (s t : State) : Prop :=
  t.cp = s.cp + 40#32 ∧ t.runDone = s.runDone + 1 ∧ Holds dst t.mem img ∧ SameOutside (pixelArea dst) s.mem t.mem ∧ RegistersKept s t ∧ Released s t

/-- What a command finds: at least one worker (spec 00_scope.md R7), canonical memory, and no write pending (spec
20_memory.md R81). -/
abbrev Ready (s : State) : Prop := 0 < s.workers.length ∧ Memory.wf s.mem ∧ s.seq.pending = []

/-- Check `n` of spec 60_exceptions.md R264 is the first that holds for the buffer. -/
def GeometryFails (b : Buffer) (memBytes : Nat) : Nat → Prop
  | 1 => b.width = 0 ∨ b.height = 0
  | 2 => 0 < b.width ∧ 0 < b.height ∧ b.stride < b.width * b.channels.count
  | 3 => 0 < b.width ∧ 0 < b.height ∧ b.width * b.channels.count ≤ b.stride ∧ b.len < b.stride * b.height
  | 4 =>
    0 < b.width ∧ 0 < b.height ∧ b.width * b.channels.count ≤ b.stride ∧ b.stride * b.height ≤ b.len ∧
      b.cw = .u16 ∧ b.base % 2 = 1
  | 5 =>
    0 < b.width ∧ 0 < b.height ∧ b.width * b.channels.count ≤ b.stride ∧ b.stride * b.height ≤ b.len ∧
      (b.cw = .u16 → b.base % 2 = 0) ∧ memBytes < b.base + b.len * b.cw.bytes
  | _ => False

/-- Fault entry with the given code and subcause takes `s` to `t`: ERR, STATE and FAULT_IP as R269 says, and nothing else
changes. -/
abbrev TakesFault (code sub : Nat) (s t : State) : Prop :=
  t.err = BitVec.ofNat 32 (code + 256 * sub) ∧ t.runState = .faulted ∧ t.irqStat.getLsbD 1 = true ∧
    t.irqStat.getLsbD 0 = s.irqStat.getLsbD 0 ∧ bits t.irqStat 31 2 = 0 ∧
    t.cp = s.cp ∧ t.mem = s.mem ∧ t.irqEn = s.irqEn ∧ t.rst = s.rst ∧ t.d = s.d ∧ t.coef = s.coef ∧ t.workers = s.workers ∧
    t.memBytes = s.memBytes ∧ t.runStart = s.runStart ∧ t.runDone = s.runDone ∧ t.draws = s.draws ∧
    t.seq = Sequencer.empty .idle

/-- The command `i` takes the fault when it is executed in `s`. -/
def Faults (i : Instr) (code sub : Nat) (s : State) : Prop := ∃ t, exec i s = .next t ∧ TakesFault code sub s t

/-- The two-buffer commands on given buffers, at any radius, kernel size and sigma (spec 00_scope.md, glossary). -/
def TwoBuffer (src dst : Buffer) (i : Instr) : Prop :=
  (∃ r, i = .box src dst r) ∨ (∃ r, i = .tent src dst r) ∨ (∃ r, i = .gbox src dst r) ∨
    (∃ k sigma, i = .gauss src dst k sigma) ∨ (∃ r, i = .median src dst r)

/-- The in-place commands on a given buffer, at any radius. -/
def InPlace (buf : Buffer) (i : Instr) : Prop := (∃ r, i = .fgauss buf r) ∨ (∃ r, i = .fgaussn buf r)

/-- VALIDATE's parameter check, made of GAUSS only, has nothing to report (R265). -/
def ParameterOk : Instr → Prop
  | .halt => True
  | .box _ _ _ => True
  | .tent _ _ _ => True
  | .gbox _ _ _ => True
  | .fgauss _ _ => True
  | .fgaussn _ _ => True
  | .gauss _ _ k sigma => LegalKernel k sigma
  | .median _ _ _ => True

/-- A pass on legal buffers: two disjoint ones of one size, or one buffer in place (spec 40_pipeline.md R148, R149, R153). -/
def LegalPass (memBytes : Nat) : Pass → Prop
  | .row _ a b => Fits a memBytes ∧ Fits b memBytes ∧ SameSize a b ∧ (a = b ∨ Apart a b)
  | .col _ b => Fits b memBytes
  | .window _ src dst => LegalPair src dst memBytes

/-- The state a step hands to the command at CP: FETCH has filled the latches (spec 40_pipeline.md R141). -/
def fetched (s : State) : State :=
  { s with d := Memory.readDesc s.mem s.cp.toNat, seq := Sequencer.empty .validate }

/-- `MEM_BYTES` and `NLANES` have legal values (spec 00_scope.md R7). -/
abbrev LegalParameters (s : State) : Prop := 40 ≤ s.memBytes ∧ s.memBytes ≤ 4294967296 ∧ 0 < s.workers.length

/-- The phase between two commands: FETCH in RUN, none otherwise (R39). -/
def restPhase : RunState → Phase
  | .run => .fetch
  | .idle => .idle
  | .halted => .idle
  | .faulted => .idle

/-- The invariant between commands: legal parameters; memory canonical and inside MEM_BYTES (spec 20_memory.md R70); CP a
multiple of 4 (R23), in RUN as many descriptors past the start as commands have completed (R24, R156; log 10); the reset values while `rst` is high
(R300); reserved register bits zero (R30 to R32); ERR non-zero exactly when FAULTED (R30); the hidden state, the
workers and COEF empty (R37, R39). -/
abbrev Inv (s : State) : Prop :=
  LegalParameters s ∧ Memory.wf s.mem ∧ (∀ c ∈ s.mem, c.1 < s.memBytes) ∧ s.cp.toNat % 4 = 0 ∧
    s.irqEn.toNat < 4 ∧ s.irqStat.toNat < 4 ∧ (s.err ≠ 0#32 ↔ s.runState = .faulted) ∧
    (bits s.err 3 0 ≤ 6 ∧ bits s.err 7 4 = 0 ∧ bits s.err 31 16 = 0) ∧
    (s.rst = true → s.runState = .idle ∧ s.cp = 0#32 ∧ s.irqEn = 0#32 ∧ s.irqStat = 0#32) ∧
    (s.runState = .run → s.cp = s.runStart + BitVec.ofNat 32 (40 * s.runDone)) ∧
    s.seq = Sequencer.empty (restPhase s.runState) ∧ (∀ w ∈ s.workers, w = Worker.idle) ∧ s.coef = []

/-- Following the running list for `n` steps, every one of them from RUN, leads from `s` to `t`, and `t` is in RUN too. -/
def ListReaches : Nat → State → State → Prop
  | 0, s, t => s.runState = .run ∧ s = t
  | n + 1, s, t => s.runState = .run ∧ ∃ u, step s = .next u ∧ ListReaches n u t

/-- The command at CP uses the byte (spec 70_reset_and_hazards.md R306): it lies in its
descriptor or in a footprint of a buffer it names. -/
def UsesByte (a : Nat) (s : State) : Prop :=
  s.cp.toNat ≤ a ∧ a < s.cp.toNat + 40 ∨
    ∃ i b, s.nextCommand = some i ∧ b ∈ buffersOf i ∧ inFootprint b a = true

/-- The byte lies in the destination footprint of the command at CP (R306). -/
def WritesByte (a : Nat) (s : State) : Prop := ∃ i b, s.nextCommand = some i ∧ b ∈ destOf i ∧ inFootprint b a = true

/-- The running list ends within the commands the host port follows (log 11). -/
def ListEnds (s : State) : Prop := ∀ t, ¬ ListReaches (listFuel s - 1) s t

end Sys2Proof.Machine
end

