-- ==== Sys2Proof/Certificates/Slice0/Obligations.lean ====
section
/-! DEFINITION. The statements for the provers, from the numbered rules of spec/ file by file. -/

open Sys2Proof
open Sys2Proof.Machine

/-! ### Encoding -/

/-- Decoding an encoded well-formed command gives it back (R101, R102, R107): no bit of an operand is dropped. -/
def Obligations.DecodeInvertsEncode : Prop := ∀ i : Instr, i.wf = true → decode (encode i) = .ok i

/-- Nothing but HALT's `W1..W9` is ignored (R109): a filter command's ten words are its encoding's; all ten words are
fetched, also for HALT. -/
def Obligations.OnlyHaltIgnoresWords : Prop :=
  (∀ d : Desc, d.w0 = 0#32 → decode d = .ok .halt) ∧
  (∀ (d : Desc) (i : Instr), decode d = .ok i → i ≠ .halt → encode i = d ∧ i.wf = true) ∧
  (∀ s s' : State, fetch s = .ok s' →
    s'.d.words = (List.range 10).map fun k => BitVec.ofNat 32 (s.mem.readNat (s.cp.toNat + 4 * k) 4))

/-- Illegal encodings (R108, R263): the subcause of the first clause that holds, taken as a fault by the step; every other
descriptor is a command. -/
def Obligations.IllegalDescriptorsFault : Prop :=
  ∀ (s : State) (d : Desc), s.runState = .run → s.cp.toNat + 40 ≤ s.memBytes → d = s.mem.readDesc s.cp.toNat →
    (7 < d.opcode → ∃ t, step s = .next t ∧ TakesFault 5 1 (fetched s) t) ∧
    (d.opcode ≤ 7 → (d.reserved ≠ 0 ∨ (d.opcode = 0 ∧ bits d.w0 31 8 ≠ 0)) →
      ∃ t, step s = .next t ∧ TakesFault 5 2 (fetched s) t) ∧
    (d.opcode ≤ 7 → d.reserved = 0 → d.opcode ≠ 0 → d.opcode ≠ 6 →
      (d.w9 ≠ 0#32 ∨ ((d.opcode = 4 ∨ d.opcode = 5) ∧
        (d.w1 ≠ 0#32 ∨ d.w2 ≠ 0#32 ∨ d.w3 ≠ 0#32 ∨ d.w4 ≠ 0#32 ∨ bits d.w0 9 8 ≠ 0))) →
      ∃ t, step s = .next t ∧ TakesFault 5 3 (fetched s) t) ∧
    (d.opcode ≤ 7 → d.reserved = 0 → (d.opcode = 0 → bits d.w0 31 8 = 0) →
      (d.opcode ≠ 0 → d.opcode ≠ 6 → d.w9 = 0#32) →
      ((d.opcode = 4 ∨ d.opcode = 5) →
        d.w1 = 0#32 ∧ d.w2 = 0#32 ∧ d.w3 = 0#32 ∧ d.w4 = 0#32 ∧ bits d.w0 9 8 = 0) →
      ∃ i, decode d = .ok i ∧ i.opcode = d.opcode)

/-- The worked encoding of R112 in words and in memory bytes, read both ways, and HALT as ten zero words. -/
def Obligations.WorkedEncodings : Prop :=
  let i := Instr.box ⟨0x1000, 15, 75, 5, 5, .c3, .u8⟩ ⟨0x2000, 15, 75, 5, 5, .c3, .u8⟩ 1
  let d : Desc := ⟨0x00010001#32, 0x00001000#32, 0x0000000F#32, 0x0000004B#32, 0x00050005#32, 0x00002000#32,
    0x0000000F#32, 0x0000004B#32, 0x00050005#32, 0x00000000#32⟩
  encode i = d ∧ decode d = .ok i ∧
    (encodeBytes i).take 12 = [0x01#8, 0x00#8, 0x01#8, 0x00#8, 0x00#8, 0x10#8, 0x00#8, 0x00#8, 0x0F#8, 0x00#8, 0x00#8, 0x00#8] ∧
    encode .halt = Desc.zero ∧ decodeBytes (List.replicate 40 0#8) = .ok (.halt, [])

/-! ### Memory -/

/-- `MemRead` and `MemWrite` (R72). -/
def Obligations.MemWriteThenRead : Prop :=
  (∀ (m : Memory) (a n : Nat), n ∈ [1, 2, 4] →
    m.readNat a n = ((List.range n).map fun i => (m.read (a + i)).toNat * 256 ^ i).sum) ∧
  (∀ (m : Memory) (a n v : Nat), m.wf → n ∈ [1, 2, 4] → v < 256 ^ n →
    (m.writeAll (cellsOf a n v)).readNat a n = v ∧
    (∀ i, i < n → ((m.writeAll (cellsOf a n v)).read (a + i)).toNat = v / 256 ^ i % 256) ∧
    (∀ x, x < a ∨ a + n ≤ x → (m.writeAll (cellsOf a n v)).read x = m.read x))

/-! ### The command cycle -/

/-- In RUN, where the bytes at CP decode to a command, the step is that command's meaning on the state FETCH leaves (R140). -/
def Obligations.StepRunsCommandAtCp : Prop :=
  ∀ (s : State) (i : Instr), s.runState = .run → s.cp.toNat + 40 ≤ s.memBytes →
    decode (s.mem.readDesc s.cp.toNat) = .ok i → step s = exec i (fetched s)

/-- Out of RUN the sequencer does nothing until START (R277, R300). -/
def Obligations.StoppedEngineIdles : Prop := ∀ s : State, s.runState ≠ .run → step s = .next s

/-- DescriptorFault (R262): no byte is read, the latches are unchanged, and FETCH has no other fault. -/
def Obligations.FetchOutsideMemoryFaults : Prop :=
  (∀ s : State, s.runState = .run → s.memBytes < s.cp.toNat + 40 →
    ∃ t, step s = .next t ∧ TakesFault 6 1 s t ∧ t.err = 0x00000106#32 ∧
      ∀ m : Memory, step { s with mem := m } = .next { t with mem := m }) ∧
  (∀ s : State, s.cp.toNat + 40 ≤ s.memBytes → ∃ s', fetch s = .ok s')

/-- HALT (R157): STATE HALTED and HALT_IP, nothing else; it completes in every state. -/
def Obligations.HaltCompletes : Prop :=
  ∀ s : State, ∃ t, exec .halt s = .next t ∧ t.runState = .halted ∧ t.irqStat.getLsbD 0 = true ∧
    t.irqStat.getLsbD 1 = s.irqStat.getLsbD 1 ∧ bits t.irqStat 31 2 = 0 ∧ t.cp = s.cp ∧ t.mem = s.mem ∧
    t.err = s.err ∧ t.irqEn = s.irqEn ∧ t.rst = s.rst ∧ t.d = s.d ∧ t.coef = s.coef ∧ t.workers = s.workers ∧
    t.memBytes = s.memBytes ∧ t.runStart = s.runStart ∧ t.runDone = s.runDone ∧ t.draws = s.draws ∧
    t.seq = Sequencer.empty .idle

/-- BOX on legal buffers completes and leaves `Box2D_r` of the source image in the destination, nothing else changed but CP
(R155, R156, R159, R184). -/
def Obligations.BoxCompletes : Prop :=
  ∀ (src dst : Buffer) (r : Nat) (s : State), Ready s → LegalPair src dst s.memBytes →
    ∃ t, exec (.box src dst r) s = .next t ∧
      Completed dst (box2D r dst.width dst.height (imageOf src s.mem)) s t

/-- TENT: `Tent2D_r` (R185), with the frame of R156 and R159. -/
def Obligations.TentCompletes : Prop :=
  ∀ (src dst : Buffer) (r : Nat) (s : State), Ready s → LegalPair src dst s.memBytes →
    ∃ t, exec (.tent src dst r) s = .next t ∧
      Completed dst (tent2D r dst.width dst.height (imageOf src s.mem)) s t

/-- GBOX: `GBox2D_r` (R186), with the frame of R156 and R159. -/
def Obligations.GboxCompletes : Prop :=
  ∀ (src dst : Buffer) (r : Nat) (s : State), Ready s → LegalPair src dst s.memBytes →
    ∃ t, exec (.gbox src dst r) s = .next t ∧
      Completed dst (gbox2D r dst.width dst.height (imageOf src s.mem)) s t

/-- FGAUSS leaves `Box2D_r` of the buffer's own image in the buffer (R201), with the frame of R156 and R159. -/
def Obligations.FgaussCompletes : Prop :=
  ∀ (buf : Buffer) (r : Nat) (s : State), Ready s → Fits buf s.memBytes →
    ∃ t, exec (.fgauss buf r) s = .next t ∧
      Completed buf (box2D r buf.width buf.height (imageOf buf s.mem)) s t

/-- FGAUSSN leaves `Tent2Line_r` on rows then columns of the buffer's own image in the buffer (R204), with the frame of R156
and R159. -/
def Obligations.FgaussnCompletes : Prop :=
  ∀ (buf : Buffer) (r : Nat) (s : State), Ready s → Fits buf s.memBytes →
    ∃ t, exec (.fgaussn buf r) s = .next t ∧
      Completed buf (fgaussn2D r buf.width buf.height (imageOf buf s.mem)) s t

/-- GAUSS with a legal kernel leaves the two exact convolution passes with `GKE_COEF(K, W9)` in the destination (R221), with
the frame of R156 and R159. -/
def Obligations.GaussCompletes : Prop :=
  ∀ (src dst : Buffer) (k sigma : Nat) (s : State), Ready s → LegalPair src dst s.memBytes → LegalKernel k sigma →
    ∃ t, exec (.gauss src dst k sigma) s = .next t ∧
      Completed dst (gauss2D (gkeCoef k sigma) dst.cw.maxValue dst.width dst.height (imageOf src s.mem)) s t

/-- MEDIAN leaves the exact median of every clamped window in the destination (R240 to R242), with the frame of R156 and
R159. -/
def Obligations.MedianCompletes : Prop :=
  ∀ (src dst : Buffer) (r : Nat) (s : State), Ready s → LegalPair src dst s.memBytes →
    ∃ t, exec (.median src dst r) s = .next t ∧
      Completed dst (median2D r dst.width dst.height (imageOf src s.mem)) s t

/-! ### Faults -/

/-- InvalidGeometry (R264): the first check that holds, of the source and then of the destination; an in-place command's
buffer as the destination; HALT checks nothing; what the checks guarantee. -/
def Obligations.GeometryFaults : Prop :=
  (∀ (src dst : Buffer) (i : Instr) (s : State) (n : Nat), TwoBuffer src dst i →
    (GeometryFails src s.memBytes n → Faults i 1 n s) ∧
    (Fits src s.memBytes → GeometryFails dst s.memBytes n → Faults i 1 (n + 0x10) s)) ∧
  (∀ (buf : Buffer) (i : Instr) (s : State) (n : Nat), InPlace buf i → GeometryFails buf s.memBytes n →
    Faults i 1 (n + 0x10) s) ∧
  (∀ s : State, ∃ t, exec .halt s = .next t ∧ t.err = s.err) ∧
  (∀ (b : Buffer) (memBytes : Nat), Fits b memBytes →
    3 ≤ b.len ∧ ∀ row col ch, InBounds b row col ch → bufAddr b row col ch + b.cw.bytes ≤ memBytes)

/-- InvalidParameter (R265): raised by GAUSS only, in the order even kernel size, zero sigma, kernel size above 255; no
radius is a parameter error. -/
def Obligations.ParameterFaults : Prop :=
  (∀ (src dst : Buffer) (k sigma : Nat) (s : State), Fits src s.memBytes → Fits dst s.memBytes →
    (k % 2 = 0 → Faults (.gauss src dst k sigma) 2 1 s) ∧
    (k % 2 = 1 → sigma = 0 → Faults (.gauss src dst k sigma) 2 2 s) ∧
    (k % 2 = 1 → 0 < sigma → 255 < k → Faults (.gauss src dst k sigma) 2 3 s)) ∧
  (∀ (src dst : Buffer) (r : Nat) (s : State), Ready s → LegalPair src dst s.memBytes →
    ∀ i ∈ [Instr.box src dst r, .tent src dst r, .gbox src dst r, .median src dst r],
      ∃ t, exec i s = .next t ∧ t.err = s.err ∧ t.runState = s.runState) ∧
  (∀ (buf : Buffer) (r : Nat) (s : State), Ready s → Fits buf s.memBytes →
    ∀ i ∈ [Instr.fgauss buf r, .fgaussn buf r],
      ∃ t, exec i s = .next t ∧ t.err = s.err ∧ t.runState = s.runState)

/-- SizeMismatch (R266): width, height, channels, component width, in this order, for every two-buffer command; base, stride
and length may differ freely. -/
def Obligations.SizeMismatchFaults : Prop :=
  ∀ (src dst : Buffer) (i : Instr) (s : State), TwoBuffer src dst i → ParameterOk i →
    Fits src s.memBytes → Fits dst s.memBytes →
    (src.width ≠ dst.width → Faults i 3 1 s) ∧
    (src.width = dst.width → src.height ≠ dst.height → Faults i 3 2 s) ∧
    (src.width = dst.width → src.height = dst.height → src.channels ≠ dst.channels → Faults i 3 3 s) ∧
    (src.width = dst.width → src.height = dst.height → src.channels = dst.channels → src.cw ≠ dst.cw →
      Faults i 3 4 s) ∧
    (SameSize src dst → Apart src dst → Ready s → ∃ t, exec i s = .next t ∧ t.err = s.err ∧ t.runState = s.runState)

/-- Overlap (R267): footprints that share a byte, identical buffers among them. -/
def Obligations.OverlapFaults : Prop :=
  (∀ (src dst : Buffer) (i : Instr) (s : State) (a : Nat), TwoBuffer src dst i → ParameterOk i →
    Fits src s.memBytes → Fits dst s.memBytes → SameSize src dst →
    inFootprint src a = true → inFootprint dst a = true → Faults i 4 0 s) ∧
  (∀ (b : Buffer) (i : Instr) (s : State), TwoBuffer b b i → ParameterOk i → Fits b s.memBytes → Faults i 4 0 s)

/-- Every fault is precise (R260, R269): a step that ends in FAULTED has written no byte of memory and left CP, IRQ_EN,
HALT_IP, COEF and the workers alone. -/
def Obligations.FaultsArePrecise : Prop :=
  ∀ s t : State, Ready s → s.runState = .run → step s = .next t → t.runState = .faulted →
    t.mem = s.mem ∧ t.cp = s.cp ∧ t.err ≠ 0#32 ∧ t.irqStat.getLsbD 1 = true ∧
    t.irqStat.getLsbD 0 = s.irqStat.getLsbD 0 ∧ t.irqEn = s.irqEn ∧ t.coef = s.coef ∧ t.workers = s.workers ∧
    t.memBytes = s.memBytes ∧ t.seq = Sequencer.empty .idle

/-- The return from a fault (R270): START clears ERR, keeps CP and IRQ_STAT; with nothing repaired the same descriptor
faults again with the same ERR. -/
def Obligations.RestartRepeatsFault : Prop :=
  ∀ s t : State, Ready s → s.runState = .run → s.rst = false → step s = .next t → t.runState = .faulted →
    (regWrite 0x04 4 1#32 t).err = 0#32 ∧ (regWrite 0x04 4 1#32 t).runState = .run ∧
    (regWrite 0x04 4 1#32 t).cp = t.cp ∧ (regWrite 0x04 4 1#32 t).irqStat = t.irqStat ∧
    ∃ u, step (regWrite 0x04 4 1#32 t) = .next u ∧ u.runState = .faulted ∧ u.err = t.err ∧ u.cp = t.cp ∧ u.mem = t.mem

/-- No fault during EXECUTE (R271): a command that VALIDATE passes completes without one, and the engine never stops. -/
def Obligations.NoFaultAfterValidate : Prop :=
  (∀ (i : Instr) (s : State), Ready s → i ≠ .halt → checkOf i s.memBytes = none →
    ∃ t, exec i s = .next t ∧ t.err = s.err ∧ t.runState = s.runState) ∧
  (∀ s : State, Ready s → ∃ t, step s = .next t)

/-- The engine's control transfers (R158, R24): on by 40, or stopped where it is; CP stays a multiple of 4. -/
def Obligations.ControlTransfers : Prop :=
  ∀ s t : State, Ready s → step s = .next t →
    (s.runState = .run →
      (t.runState = .run ∧ t.cp = s.cp + 40#32) ∨ (t.runState = .halted ∧ t.cp = s.cp) ∨
        (t.runState = .faulted ∧ t.cp = s.cp)) ∧
    (s.runState ≠ .run → t.cp = s.cp) ∧ (s.cp.toNat % 4 = 0 → t.cp.toNat % 4 = 0)

/-! ### Invariants -/

/-- Every step keeps the invariant of the engine between commands. -/
def Obligations.StepKeepsInv : Prop := ∀ s t : State, Inv s → step s = .next t → Inv t

/-- The invariant holds after reset. -/
def Obligations.ResetHasInv : Prop := Inv State.reset

/-- Every event at the engine's boundary, the host's and reset among them, keeps the invariant. -/
def Obligations.EventsKeepInv : Prop := ∀ (e : Event) (s t : State), Inv s → onEvent e s = .next t → Inv t

/-! ### The register port, interrupts and reset -/

/-- Accesses outside the seven aligned 32-bit registers, and the only side effects there are, those of CTRL, CP, IRQ_EN and
IRQ_STAT (R33). A read changes nothing but the model's own counter of draws (log 13). -/
def Obligations.RegisterPortDecoding : Prop :=
  (∀ (offset size : Nat) (v : Word) (s : State), (size ≠ 4 ∨ offset % 4 ≠ 0 ∨ 0x18 < offset) →
    regRead offset size s = ⟨0#32, s⟩ ∧ regWrite offset size v s = s) ∧
  (∀ (offset size : Nat) (s : State), ∃ n, (regRead offset size s).after = { s with draws := n }) ∧
  (∀ (offset : Nat) (v : Word) (s : State), offset ∉ [0x04, 0x0C, 0x14, 0x18] → regWrite offset 4 v s = s) ∧
  (∀ (v : Word) (s : State),
    (∃ e r q p n, regWrite 0x04 4 v s = { s with err := e, runState := r, seq := q, runStart := p, runDone := n }) ∧
    (∃ c, regWrite 0x0C 4 v s = { s with cp := c }) ∧ (∃ c, regWrite 0x14 4 v s = { s with irqEn := c }) ∧
    (∃ c, regWrite 0x18 4 v s = { s with irqStat := c })) ∧
  (∀ (offset size : Nat) (v : Word) (s : State),
    onEvent (.regRead offset size) s = .next (regRead offset size s).after ∧
    onEvent (.regWrite offset size v) s = .next (regWrite offset size v s) ∧
    (s.runState ≠ .faulted → (regWrite offset size v s).runState ≠ .faulted))

/-- `ID`, `STATUS`, `IRQ_EN` and `IRQ_STAT` as the host reads them (R26, R28, R31): the constant; the code of STATE with the
upper bits zero; the two enable bits as last written, with the upper bits zero (`rst` low: while it is high the engine is held, see ResetState); writes to ID and STATUS are
ignored. -/
def Obligations.IdStatusAndEnable : Prop :=
  (∀ (v : Word) (s : State), (regRead 0x00 4 s).value = 0x53464501#32 ∧ regWrite 0x00 4 v s = s ∧
    regWrite 0x08 4 v s = s ∧ (regRead 0x18 4 s).value = s.irqStat) ∧
  (∀ s : State,
    (s.runState = .idle → (regRead 0x08 4 s).value = 0#32) ∧ (s.runState = .run → (regRead 0x08 4 s).value = 1#32) ∧
    (s.runState = .halted → (regRead 0x08 4 s).value = 2#32) ∧ (s.runState = .faulted → (regRead 0x08 4 s).value = 3#32)) ∧
  (∀ (v : Word) (s : State), s.rst = false →
    (∀ k, k < 2 → (regRead 0x14 4 (regWrite 0x14 4 v s)).value.getLsbD k = v.getLsbD k) ∧
    bits (regRead 0x14 4 (regWrite 0x14 4 v s)).value 31 2 = 0)

/-- `ERR` (R30): its layout, its reads, that host writes are ignored, that it is non-zero exactly when FAULTED, and that only
fault entry writes it and only reset and an accepted START clear it. -/
def Obligations.ErrRegister : Prop :=
  (∀ (v : Word) (s : State), (regRead 0x10 4 s).value = s.err ∧ regWrite 0x10 4 v s = s) ∧
  (∀ s : State, Inv s → bits s.err 7 4 = 0 ∧ bits s.err 31 16 = 0 ∧ (s.err ≠ 0#32 ↔ s.runState = .faulted)) ∧
  (∀ (e : Event) (s t : State), Inv s → onEvent e s = .next t →
    bits t.err 7 4 = 0 ∧ bits t.err 31 16 = 0 ∧ (t.err ≠ 0#32 ↔ t.runState = .faulted) ∧
    (t.err = s.err ∨ (s.runState = .run ∧ t.runState = .faulted ∧ 1 ≤ bits t.err 3 0 ∧ bits t.err 3 0 ≤ 6) ∨
      (t.err = 0#32 ∧ (e = .rstHigh ∨ (s.runState ≠ .run ∧ t.runState = .run ∧ ∃ v, e = .regWrite 0x04 4 v)))))

/-- `CTRL.START` (R27): bit 0 starts the engine outside RUN and does nothing in RUN; the other bits are ignored; `CTRL` reads
0; IRQ_STAT is kept. The model's own record of the run (log 10) is left open here. `rst` is low:
while it is high no write has an effect, see ResetState. -/
def Obligations.StartWrite : Prop :=
  ∀ (v : Word) (s : State),
    (v.getLsbD 0 = true → s.runState ≠ .run → s.rst = false →
      ∃ p n, regWrite 0x04 4 v s = { s with
        err := 0#32, runState := .run, seq := Sequencer.empty .fetch, runStart := p, runDone := n }) ∧
    (v.getLsbD 0 = false → regWrite 0x04 4 v s = s) ∧
    (s.runState = .run → regWrite 0x04 4 v s = s) ∧
    (regRead 0x04 4 s).value = 0#32

/-- The `CP` register (R29): outside RUN a read returns CP and a write drops the two low bits; in RUN a write is ignored and a
read returns the address of some descriptor from the starting one to the current one. The record of the run that says which
ones these are (`runStart`, `runDone`) and the free choice among them are the model's own (log 10): START resets the record
(the last conjuncts of the part outside RUN, with `rst` low), every completed command counts, and under the invariant the record's last
address is CP, also where CP has wrapped. -/
def Obligations.CommandPointerPort : Prop :=
  ∀ (v : Word) (s : State),
    (s.runState ≠ .run → regRead 0x0C 4 s = ⟨s.cp, s⟩) ∧
    (s.runState ≠ .run → s.rst = false →
      (∃ c : Word, c.toNat = v.toNat / 4 * 4 ∧ regWrite 0x0C 4 v s = { s with cp := c }) ∧
      (regWrite 0x04 4 1#32 s).runStart = s.cp ∧ (regWrite 0x04 4 1#32 s).runDone = 0) ∧
    (s.runState = .run → regWrite 0x0C 4 v s = s ∧
      ∃ j, j ≤ s.runDone ∧ (regRead 0x0C 4 s).value = s.runStart + BitVec.ofNat 32 (40 * j)) ∧
    (∀ t : State, Inv s → s.runState = .run → step s = .next t →
      s.cp = s.runStart + BitVec.ofNat 32 (40 * s.runDone) ∧ t.runStart = s.runStart ∧
      t.runDone = (if t.runState = .run then s.runDone + 1 else s.runDone))

/-- The interrupt output (R273): its formula; a pending bit is set whether or not it is enabled; enabling a pending source
raises `irq` at once, and `irq` is low once 1 is written to every enabled pending bit (`rst` low in the last two). -/
def Obligations.InterruptLine : Prop :=
  (∀ s : State, s.irq = ((s.irqStat.getLsbD 0 && s.irqEn.getLsbD 0) || (s.irqStat.getLsbD 1 && s.irqEn.getLsbD 1))) ∧
  (∀ s : State, (enterHalted s).irqStat.getLsbD 0 = true) ∧
  (∀ (t : Trap) (s : State), (raiseTrap t s).irqStat.getLsbD 1 = true) ∧
  (∀ (s : State) (v : Word), s.rst = false →
    (s.irqStat.getLsbD 0 = true ∧ v.getLsbD 0 = true ∨ s.irqStat.getLsbD 1 = true ∧ v.getLsbD 1 = true) →
    (regWrite 0x14 4 v s).irq = true) ∧
  (∀ (s : State) (v : Word), s.rst = false →
    (∀ k, k < 2 → (s.irqStat.getLsbD k && s.irqEn.getLsbD k) = true → v.getLsbD k = true) →
    (regWrite 0x18 4 v s).irq = false)

/-- IRQ_STAT (R32): write-1-to-clear, set on entry to HALTED and FAULTED, the set winning over a clear that coincides with
it, bits 31:2 zero, and sticky otherwise. -/
def Obligations.InterruptStatusSticky : Prop :=
  (∀ (v : Word) (s : State) (k : Nat), s.rst = false → k < 2 →
    (regWrite 0x18 4 v s).irqStat.getLsbD k = (s.irqStat.getLsbD k && !v.getLsbD k) ∧
    bits (regWrite 0x18 4 v s).irqStat 31 2 = 0) ∧
  (∀ (v : Word) (s t : State), Ready s → s.runState = .run →
    (onEvent .engine s = .next t ∨ onEvent (.engineWhileClearing v) s = .next t) →
    (t.runState = .halted → t.irqStat.getLsbD 0 = true) ∧ (t.runState = .faulted → t.irqStat.getLsbD 1 = true)) ∧
  (∀ (e : Event) (s t : State) (k : Nat), Ready s → k < 2 → s.irqStat.getLsbD k = true → onEvent e s = .next t →
    e ≠ .rstHigh → (∀ v, e = .regWrite 0x18 4 v → v.getLsbD k = false) →
    (∀ v, e = .engineWhileClearing v → v.getLsbD k = false) → t.irqStat.getLsbD k = true)

/-- The transitions of `STATUS.STATE` (R34), over every event at the engine's boundary. -/
def Obligations.RunStateTransitions : Prop :=
  ∀ (e : Event) (s t : State), Ready s → onEvent e s = .next t →
    (e = .rstHigh → t.runState = .idle) ∧
    (e ≠ .rstHigh → t.runState = s.runState ∨
      (s.runState ≠ .run ∧ t.runState = .run ∧ ∃ v, e = .regWrite 0x04 4 v ∧ v.getLsbD 0 = true) ∨
      (s.runState = .run ∧ t.runState = .halted ∧ s.nextCommand = some .halt ∧
        (e = .engine ∨ ∃ v, e = .engineWhileClearing v)) ∨
      (s.runState = .run ∧ t.runState = .faulted ∧ s.nextCommand ≠ some .halt ∧
        (e = .engine ∨ ∃ v, e = .engineWhileClearing v)))

/-- Reset (R43, R300, R302; log 21): the values at power-up and after `rst` from any state, and nothing executes until START;
the same values while `rst` is high, where no register write and no coinciding clear has an effect; and from the states of
the invariant with `rst` high no event but `rst` going low ends the hold, none moves a register off its reset value, and only
the host changes memory. -/
def Obligations.ResetState : Prop :=
  (∀ s t : State, t = State.reset ∨ t = hardReset s ∨ t = assertReset s →
    t.runState = .idle ∧ t.cp = 0#32 ∧ t.err = 0#32 ∧ t.irqEn = 0#32 ∧ t.irqStat = 0#32 ∧ t.irq = false ∧
    (regRead 0x00 4 t).value = 0x53464501#32 ∧ (regRead 0x04 4 t).value = 0#32 ∧
    t.seq = Sequencer.empty .idle ∧ step t = .next t ∧
    (s.runState ≠ .run → (hardReset s).mem = s.mem ∧ (assertReset s).mem = s.mem)) ∧
  (∀ s : State, State.reset.rst = false ∧ (assertReset s).rst = true ∧ (hardReset s).rst = false) ∧
  (∀ (offset size : Nat) (v : Word) (s : State), s.rst = true →
    regWrite offset size v s = s ∧ onEvent (.engineWhileClearing v) s = onEvent .engine s) ∧
  (∀ (e : Event) (s t : State), Inv s → s.rst = true → onEvent e s = .next t →
    (t.rst = true ↔ e ≠ .rstLow) ∧ t.runState = .idle ∧ t.cp = 0#32 ∧ t.err = 0#32 ∧ t.irqEn = 0#32 ∧
    t.irqStat = 0#32 ∧ t.irq = false ∧ t.seq = Sequencer.empty .idle ∧
    ((∀ a b, e ≠ .hostWrite a b) → t.mem = s.mem))

/-- A reset during RUN (R301, R302): whatever phase the engine is in, only bytes of the pixel area of the destination of the
command it abandons may change. That is the command in the latches, or before its FETCH the one at CP (log 12), if it passes
VALIDATE. -/
def Obligations.ResetCutsOnlyDestinationPixels : Prop :=
  ∀ s : State, Memory.wf s.mem → s.runState = .run →
    let found := if s.seq.phase = .fetch then s.nextCommand else s.command
    (∀ i, found = some i → checkOf i s.memBytes = none →
      abandonedCommand s = some i ∧
      SameOutside ((destOf i).flatMap pixelArea) s.mem (hardReset s).mem) ∧
    ((∀ i, found = some i → checkOf i s.memBytes ≠ none) → abandonedCommand s = none ∧ (hardReset s).mem = s.mem)

/-! ### The line functions -/

/-- The running sum of the box filter is the window sum at every position, so the mechanism and the closed form give the
same outputs (R181). -/
def Obligations.RunningSumIsWindowSum : Prop :=
  (∀ (f : Int → Nat) (r : Nat) (j : Int) (n : Nat),
    slidingSums f r j n = (List.range n).map fun (i : Nat) => windowSum f r (j + i)) ∧
  (∀ (f : Int → Nat) (r : Nat) (j : Int), f (j - r) ≤ windowSum f r j + f (j + 1 + r)) ∧
  (∀ (r : Nat) (x : List Nat), (boxRun r x).out = boxLine r x)

/-- The laws of `BoxLine_r` (R187 a to f). -/
def Obligations.BoxLineLaws : Prop :=
  (∀ (r lo hi : Nat) (x : List Nat), (∀ v ∈ x, lo ≤ v ∧ v ≤ hi) → ∀ v ∈ boxLine r x, lo ≤ v ∧ v ≤ hi) ∧
  (∀ x : List Nat, boxLine 0 x = x) ∧
  (∀ r n v : Nat, boxLine r (List.replicate n v) = List.replicate n v) ∧
  (∀ r v : Nat, boxLine r [v] = [v]) ∧
  (∀ (r : Nat) (x x' : List Nat), List.Forall₂ (· ≤ ·) x x' → List.Forall₂ (· ≤ ·) (boxLine r x) (boxLine r x')) ∧
  (∀ r n i j : Nat, 2 ≤ n → n - 1 ≤ r → i < n → j < n →
    ((List.range (2 * r + 1)).countP fun (k : Nat) => clamp ((i : Int) - r + k) n == j) =
      if j = 0 then r - i + 1 else if j = n - 1 then r - (n - 1 - i) + 1 else 1)

/-- Impulse response and mean preservation of the box filter, on a line and on an image (R188). -/
def Obligations.BoxImpulse : Prop :=
  (∀ r n p v : Nat, r ≤ p → p + r + 1 ≤ n →
    let out := boxLine r ((List.range n).map fun j => if j = p then v else 0)
    (∀ i, i < n → out.getD i 0 = if i ≤ p + r ∧ p ≤ i + r then (v + r) / (2 * r + 1) else 0) ∧
    out.sum = (2 * r + 1) * ((v + r) / (2 * r + 1)) ∧ out.sum ≤ v + r ∧ v ≤ out.sum + r) ∧
  (∀ r w h py px v row col ch : Nat, r ≤ py → py + r + 1 ≤ h → r ≤ px → px + r + 1 ≤ w → row < h → col < w →
    box2D r w h (fun y x _ => if y = py ∧ x = px then v else 0) row col ch =
      if (row ≤ py + r ∧ py ≤ row + r) ∧ (col ≤ px + r ∧ px ≤ col + r) then ((v + r) / (2 * r + 1) + r) / (2 * r + 1)
      else 0)

/-- The two cascaded running sums of FGAUSSN are the weighted sum `T`, so the mechanism and the closed form give the same
outputs (R203). -/
def Obligations.CascadedSumsAreWeightedSum : Prop :=
  ∀ (r : Nat) (x : List Nat),
    (firstStage r x = (List.range (x.length + 2 * r)).map fun (m : Nat) => windowSum (clampedAt x) r ((m : Int) - r)) ∧
    (slidingSums (delayed r (firstStage r x)) r 0 x.length = (List.range x.length).map fun i => tentSum x r i) ∧
    (tent2Run r x).out = tent2Line r x

/-- The laws of `Tent2Line_r` (R205 a to f). -/
def Obligations.Tent2LineLaws : Prop :=
  (∀ (r lo hi : Nat) (x : List Nat), (∀ v ∈ x, lo ≤ v ∧ v ≤ hi) → ∀ v ∈ tent2Line r x, lo ≤ v ∧ v ≤ hi) ∧
  (∀ x : List Nat, tent2Line 0 x = x) ∧
  (∀ r n v : Nat, tent2Line r (List.replicate n v) = List.replicate n v) ∧
  (∀ r v : Nat, tent2Line r [v] = [v]) ∧
  (∀ r n p v i : Nat, 2 * r ≤ p → p + 2 * r + 1 ≤ n → i < n →
    (tent2Line r ((List.range n).map fun j => if j = p then v else 0)).getD i 0 =
      if i ≤ p + 2 * r ∧ p ≤ i + 2 * r then
        ((2 * r + 1 - ((i - p) + (p - i))) * v + ((2 * r + 1) * (2 * r + 1) - 1) / 2) / ((2 * r + 1) * (2 * r + 1))
      else 0) ∧
  (tent2Line 1 [0, 0, 255, 0, 0] = [28, 57, 85, 57, 28] ∧ boxLine 1 [0, 0, 255, 0, 0] = [0, 85, 85, 85, 0] ∧
    boxLine 1 (boxLine 1 [0, 0, 255, 0, 0]) = [28, 57, 85, 57, 28] ∧ tent2Line 1 [10, 20, 30] = [14, 20, 26] ∧
    boxLine 1 [10, 20, 30] = [13, 20, 27] ∧ boxLine 1 (boxLine 1 [10, 20, 30]) = [15, 20, 25])

/-- The laws of `FirLine_q` for a kernel of odd length, symmetric, whose coefficients sum to 65536 (R223 a to f). -/
def Obligations.FirLineLaws : Prop :=
  ∀ q : List Nat, q.length % 2 = 1 → q.sum = 65536 → q.reverse = q → ∀ M : Nat,
    (∀ (lo hi : Nat) (x : List Nat), hi ≤ M → (∀ v ∈ x, lo ≤ v ∧ v ≤ hi) → ∀ v ∈ firLine q M x, lo ≤ v ∧ v ≤ hi) ∧
    (∀ n v : Nat, v ≤ M → firLine q M (List.replicate n v) = List.replicate n v) ∧
    (∀ x : List Nat, q.length = 1 → (∀ v ∈ x, v ≤ M) → firLine q M x = x) ∧
    (∀ v : Nat, v ≤ M → firLine q M [v] = [v]) ∧
    (∀ x : List Nat, firLine q M x.reverse = (firLine q M x).reverse) ∧
    (∀ n p v i : Nat, v ≤ M → centreTap q.length ≤ p → p + centreTap q.length + 1 ≤ n → i < n →
      (firLine q M ((List.range n).map fun j => if j = p then v else 0)).getD i 0 =
        if i ≤ p + centreTap q.length ∧ p ≤ i + centreTap q.length then
          (q.getD (centreTap q.length + p - i) 0 * v + 32768) / 65536
        else 0)

/-- The contract of `GKE_COEF` (R218 a to f), for the kernel the model computes (log 9): length, exact sum, symmetry, centre
tap, off-centre monotonicity, and the kernel of length 1. -/
def Obligations.KernelContract : Prop :=
  ∀ k sigma : Nat, LegalKernel k sigma →
    (gkeCoef k sigma).length = k ∧ (∀ v ∈ gkeCoef k sigma, v ≤ 65536) ∧ (gkeCoef k sigma).sum = 65536 ∧
    (gkeCoef k sigma).reverse = gkeCoef k sigma ∧ 130 ≤ (gkeCoef k sigma).getD (centreTap k) 0 ∧
    (∀ j, j + 1 < centreTap k → (gkeCoef k sigma).getD j 0 ≤ (gkeCoef k sigma).getD (j + 1) 0) ∧
    (∀ j, centreTap k < j → (gkeCoef k sigma).getD (j + 1) 0 ≤ (gkeCoef k sigma).getD j 0) ∧
    (k = 1 → gkeCoef k sigma = [65536])

/-- The kernel is the spec's (R216, R217): wherever the enclosures decide every rounding (log 9), each coefficient is the
rounded share of the Gaussian density, and the centre tap takes the residual. -/
def Obligations.KernelMatchesGaussian : Prop :=
  ∀ k sigma : Nat, LegalKernel k sigma → kernelDecided k sigma = true →
    ∃ g : Nat → ℝ, ∃ q0 : Nat → ℤ,
      (∀ j, g j = Real.exp (-((j : ℝ) - (centreTap k : ℝ)) ^ 2 / (2 * ((sigma : ℝ) / 65536) ^ 2))) ∧
      (∀ j, q0 j = ⌊g j / (∑ m ∈ Finset.range k, g m) * 65536 + 1 / 2⌋) ∧
      (∀ j, j < k → j ≠ centreTap k → ((gkeCoef k sigma).getD j 0 : ℤ) = q0 j) ∧
      ((gkeCoef k sigma).getD (centreTap k) 0 : ℤ) =
        q0 (centreTap k) + (65536 - ∑ m ∈ Finset.range k, q0 m)

/-- The histogram mechanism, for both component widths, finds the exact median at every column of an output row (R243 to
R246, R247 g). -/
def Obligations.HistogramFindsMedian : Prop :=
  ∀ (cw : CompWidth) (g : Int → Int → Nat) (r y n : Nat), (∀ row col, g row col ≤ cw.maxValue) →
    (medianRow cw g r y n).out = (List.range n).map fun c => medianAt g r y c

/-- The element of rank `(N + 1) div 2` is the least value at which the count from below reaches it, and the greatest at
which the count from above does (R241). -/
def Obligations.MedianRank : Prop :=
  ∀ w : List Nat, w.length % 2 = 1 →
    let n := w.length
    let v := elementOfRank ((n + 1) / 2) w
    v ∈ w ∧
    (n + 1) / 2 ≤ (w.countP fun x => decide (x ≤ v)) ∧
    (∀ u, u < v → (w.countP fun x => decide (x ≤ u)) < (n + 1) / 2) ∧
    (n + 1) / 2 ≤ (w.countP fun x => decide (v ≤ x)) ∧
    (∀ u, v < u → (w.countP fun x => decide (u ≤ x)) < (n + 1) / 2)

/-- The laws of the median (R247 a to f): membership, identity at radius 0, uniform windows, majority, outlier rejection,
monotonicity. -/
def Obligations.MedianLaws : Prop :=
  ∀ (g : Int → Int → Nat) (r y c : Nat),
    medianAt g r y c ∈ windowSamples g r y c ∧
    medianAt g 0 y c = g y c ∧
    (∀ v, (∀ x ∈ windowSamples g r y c, x = v) → medianAt g r y c = v) ∧
    (∀ v, (2 * r + 1) * (2 * r + 1) / 2 < (windowSamples g r y c).count v → medianAt g r y c = v) ∧
    (∀ v, 1 ≤ r → (2 * r + 1) * (2 * r + 1) ≤ (windowSamples g r y c).count v + 1 → medianAt g r y c = v) ∧
    (∀ g' : Int → Int → Nat, (∀ row col, g row col ≤ g' row col) → medianAt g r y c ≤ medianAt g' r y c)

/-- The accumulators never overflow 64 bits (R183, R206, R222): the bounds of every sum, for components up to `M <= 65535`,
radii up to 65535 and kernels that sum to 65536. -/
def Obligations.AccumulatorBounds : Prop :=
  ∀ (M r i : Nat) (x : List Nat), M ≤ 65535 → r ≤ 65535 → (∀ v ∈ x, v ≤ M) →
    (∀ j : Int, windowSum (clampedAt x) r j ≤ (2 * r + 1) * M ∧ windowSum (clampedAt x) r j + r < 2 ^ 34) ∧
    tentSum x r i ≤ (2 * r + 1) * (2 * r + 1) * M ∧ (2 * r + 1) * (2 * r + 1) * M < 2 ^ 50 ∧
    tentSum x r i + ((2 * r + 1) * (2 * r + 1) - 1) / 2 < 2 ^ 51 ∧
    (∀ q : List Nat, q.sum = 65536 →
      firSum q x i ≤ 65536 * 65535 ∧ firSum q x i + 32768 < 2 ^ 33 ∧
      ∀ k (j : Int), q.getD k 0 * clampedAt x j ≤ 2 ^ 16 * 65535)

/-- The histogram counters never overflow 40 bits and the tables never grow (R248): every table kept along a row has 256
counters that sum to `N < 2^34`, a fine table has 256 counters, each at most `N`, and the running totals of both scans stay
at most `N`. -/
def Obligations.CounterBounds : Prop :=
  ∀ (cw : CompWidth) (g : Int → Int → Nat) (r y c n : Nat), r ≤ 65535 → (∀ row col, g row col ≤ cw.maxValue) →
    (2 * r + 1) * (2 * r + 1) < 2 ^ 34 ∧
    (∀ t ∈ tablesFrom cw g r y 0 (tableAtStart cw g r y) n,
      t.length = 256 ∧ t.sum = (2 * r + 1) * (2 * r + 1) ∧ (∀ v ∈ t, v ≤ (2 * r + 1) * (2 * r + 1)) ∧
      ∀ rank, (rankScan rank t 0 0).2 ≤ (2 * r + 1) * (2 * r + 1)) ∧
    (cw = .u16 → c < n →
      let coarse := rankScan (medianRank r) ((tablesFrom cw g r y 0 (tableAtStart cw g r y) n).getD c []) 0 0
      (rankScan (medianRank r) (fineTable (windowSamples g r y c) coarse.1) coarse.2 0).2 ≤
        (2 * r + 1) * (2 * r + 1)) ∧
    (∀ b, (fineTable (windowSamples g r y c) b).length = 256 ∧
      ∀ v ∈ fineTable (windowSamples g r y c) b, v ≤ (2 * r + 1) * (2 * r + 1))

/-! ### The pipeline -/

/-- The lines of a pass may be taken in any order (R153, R154): every order of its lines gives the same next state of memory,
and none stops. -/
def Obligations.LineOrderIsFree : Prop :=
  ∀ (p : Pass) (order : List Nat) (index : Nat) (s : State), Ready s → LegalPass s.memBytes p →
    order.Perm (List.range p.lines) →
    ∃ t u, runPass index p s = .next t ∧ runPassIn order index p s = .next u ∧ u.mem = t.mem

/-- The number of workers is invisible, and so is what the workers, COEF and the latches held before a command (R7, R154, R43):
memory, CP, ERR, STATE and the interrupt registers after it are the same. -/
def Obligations.WorkerCountIsInvisible : Prop :=
  ∀ (i : Instr) (s : State) (ws : List Worker), Ready s → 0 < ws.length →
    (∃ t u, exec i s = .next t ∧ exec i { s with workers := ws } = .next u ∧
      u.mem = t.mem ∧ u.cp = t.cp ∧ u.err = t.err ∧ u.runState = t.runState ∧ u.irqStat = t.irqStat ∧ u.irqEn = t.irqEn) ∧
    ∀ (d : Desc) (coef : List Nat),
      ∃ t u, step s = .next t ∧ step { s with workers := ws, coef := coef, d := d } = .next u ∧
        u.mem = t.mem ∧ u.cp = t.cp ∧ u.err = t.err ∧ u.runState = t.runState ∧ u.irqStat = t.irqStat ∧ u.irqEn = t.irqEn

/-- One step is one command of the engine at its own grain (R154, R155): whatever moves the sequencer and the workers make and
in whatever order the issued components reach memory, on however many workers, if they take the engine from one state between commands
to the next, that state is the one `step` gives. -/
def Obligations.AnyInterleavingIsOneStep : Prop :=
  ∀ (s t : State) (moves : List Move), Inv s → s.runState = .run → commandRun moves s = some t → step s = .next t

/-- Every command can finish (R163): from a state between commands in RUN, some moves take the engine to the next one. -/
def Obligations.EveryCommandCanFinish : Prop :=
  ∀ s : State, Inv s → s.runState = .run → ∃ moves t, commandRun moves s = some t

/-- Every schedule finishes the command (R163): the moves an unfinished command can make are bounded in number, and from
wherever some of them have led it others finish it, in the state of one step. -/
def Obligations.EveryScheduleFinishes : Prop :=
  ∀ s : State, Inv s → s.runState = .run →
    ∃ bound, ∀ moves u, unfinishedRun moves s = some u →
      moves.length ≤ bound ∧ ∃ rest t, commandRun rest u = some t ∧ step s = .next t

/-- Padding and neighbours are untouched (R159): whatever a filter command does, completing or faulting, every byte outside
the pixel area of its destination is as before, the whole source footprint of a two-buffer command among them. -/
def Obligations.OnlyDestinationPixelsWritten : Prop :=
  ∀ (i : Instr) (s t : State), Ready s → i ≠ .halt → exec i s = .next t →
    SameOutside ((destOf i).flatMap pixelArea) s.mem t.mem ∧
    (∀ src dst, TwoBuffer src dst i → ∀ a, inFootprint src a = true → t.mem.read a = s.mem.read a)

/-- Radius zero (R161): every in-bounds destination component equals the source component, and nothing but pixels is
written. What `Completed` says besides of the stores released (log 8) and of the record of the run (log 10) is the model's
choice. -/
def Obligations.RadiusZeroIsIdentity : Prop :=
  (∀ (src dst : Buffer) (s : State), Ready s → LegalPair src dst s.memBytes →
    ∀ i ∈ [Instr.box src dst 0, .tent src dst 0, .gbox src dst 0, .median src dst 0],
      ∃ t, exec i s = .next t ∧ Completed dst (imageOf src s.mem) s t) ∧
  (∀ (buf : Buffer) (s : State), Ready s → Fits buf s.memBytes →
    ∀ i ∈ [Instr.fgauss buf 0, .fgaussn buf 0],
      ∃ t, exec i s = .next t ∧ Completed buf (imageOf buf s.mem) s t ∧ t.mem = s.mem)

/-- The commands built on the box filter agree (R189): TENT is BOX twice, GBOX is BOX three times, through scratch buffers,
and FGAUSS is BOX from a copy. -/
def Obligations.BoxCommandsChain : Prop :=
  (∀ (a b c : Buffer) (r : Nat) (s : State), Ready s → LegalPair a b s.memBytes → LegalPair b c s.memBytes →
    LegalPair a c s.memBytes →
    ∃ t t1 t2, exec (.tent a c r) s = .next t ∧ exec (.box a b r) s = .next t1 ∧ exec (.box b c r) t1 = .next t2 ∧
      Holds c t2.mem (imageOf c t.mem)) ∧
  (∀ (a b b' c : Buffer) (r : Nat) (s : State), Ready s → LegalPair a b s.memBytes → LegalPair b b' s.memBytes →
    LegalPair b' c s.memBytes → LegalPair a c s.memBytes →
    ∃ t t1 t2 t3, exec (.gbox a c r) s = .next t ∧ exec (.box a b r) s = .next t1 ∧ exec (.box b b' r) t1 = .next t2 ∧
      exec (.box b' c r) t2 = .next t3 ∧ Holds c t3.mem (imageOf c t.mem)) ∧
  (∀ (a b c : Buffer) (r : Nat) (s : State), Ready s → Fits a s.memBytes → LegalPair b c s.memBytes → SameSize a b →
    Holds b s.mem (imageOf a s.mem) →
    ∃ t u, exec (.fgauss a r) s = .next t ∧ exec (.box b c r) s = .next u ∧ Holds c u.mem (imageOf a t.mem))

/-! ### The host -/

/-- A host write during RUN to a byte the running list does not use changes nothing of what the engine does (R275 c): the
step gives the same state, with that byte written. -/
def Obligations.HostWriteOutsideListIsHarmless : Prop :=
  ∀ (s s' t : State) (a : Nat) (b : Byte), Inv s → s.runState = .run → hostWrite a b s = .next s' → step s = .next t →
    step s' = .next { t with mem := t.mem.write a b }

/-- The host's path to memory (R275, R306, U14, U15). Outside RUN a write changes its byte and nothing else of the state, and a
read returns the byte in memory and changes nothing. In RUN a write to the descriptor or to a footprint of a command of the
running list, the one at CP or any later one, is refused; a write to any other byte takes effect, and a read returns the byte
in memory unless a command of the list writes it: both where the list ends within the commands the host port follows (log
11). A read in RUN changes nothing but the model's counter of draws. A byte outside memory stops the model (log 15). -/
def Obligations.HostMemoryAccess : Prop :=
  (∀ (s : State) (a : Nat) (b : Byte), s.runState ≠ .run → a < s.memBytes →
    hostWrite a b s = .next { s with mem := s.mem.write a b } ∧ hostRead a s = .ok ⟨s.mem.read a, s⟩ ∧
      (Memory.wf s.mem →
        hostRead a { s with mem := s.mem.write a b } = .ok ⟨b, { s with mem := s.mem.write a b }⟩ ∧
        ∀ x, x ≠ a → (s.mem.write a b).read x = s.mem.read x)) ∧
  (∀ (n : Nat) (s t : State) (a : Nat) (b : Byte), ListReaches n s t → a < s.memBytes → UsesByte a t →
    hostWrite a b s = .refused (.hostRace a)) ∧
  (∀ (s : State) (a : Nat) (b : Byte), s.runState = .run → a < s.memBytes → ListEnds s →
    (∀ n t, ListReaches n s t → ¬ UsesByte a t) → hostWrite a b s = .next { s with mem := s.mem.write a b }) ∧
  (∀ (s : State) (a : Nat), s.runState = .run → a < s.memBytes →
    ∃ v n, hostRead a s = .ok ⟨v, { s with draws := n }⟩ ∧
      (ListEnds s → (∀ m t, ListReaches m s t → ¬ WritesByte a t) → v = s.mem.read a ∧ n = s.draws)) ∧
  (∀ (s : State) (a : Nat) (b : Byte), s.memBytes ≤ a →
    hostWrite a b s = .fault (.outsideMemory a) ∧ hostRead a s = .error (.outsideMemory a))
end

