-- ==== Sys2Proof/Laws/State.lean ====
section
/-! SUPPORT. One lemma per field per update of the state: what each operation leaves in each field. -/

namespace Sys2Proof.Machine

@[simp] theorem raiseTrap_d (t : Trap) (s : State) :
    (raiseTrap t s).d = s.d := rfl
@[simp] theorem raiseTrap_cp (t : Trap) (s : State) :
    (raiseTrap t s).cp = s.cp := rfl
@[simp] theorem raiseTrap_runState (t : Trap) (s : State) :
    (raiseTrap t s).runState = .faulted := rfl
@[simp] theorem raiseTrap_err (t : Trap) (s : State) :
    (raiseTrap t s).err = t.errWord := rfl
@[simp] theorem raiseTrap_irqEn (t : Trap) (s : State) :
    (raiseTrap t s).irqEn = s.irqEn := rfl
@[simp] theorem raiseTrap_irqStat (t : Trap) (s : State) :
    (raiseTrap t s).irqStat = irqStatNext s.irqStat 0#32 faultBit := rfl
@[simp] theorem raiseTrap_rst (t : Trap) (s : State) :
    (raiseTrap t s).rst = s.rst := rfl
@[simp] theorem raiseTrap_coef (t : Trap) (s : State) :
    (raiseTrap t s).coef = s.coef := rfl
@[simp] theorem raiseTrap_workers (t : Trap) (s : State) :
    (raiseTrap t s).workers = s.workers := rfl
@[simp] theorem raiseTrap_seq (t : Trap) (s : State) :
    (raiseTrap t s).seq = Sequencer.empty .idle := rfl
@[simp] theorem raiseTrap_mem (t : Trap) (s : State) :
    (raiseTrap t s).mem = s.mem := rfl
@[simp] theorem raiseTrap_memBytes (t : Trap) (s : State) :
    (raiseTrap t s).memBytes = s.memBytes := rfl
@[simp] theorem raiseTrap_runStart (t : Trap) (s : State) :
    (raiseTrap t s).runStart = s.runStart := rfl
@[simp] theorem raiseTrap_runDone (t : Trap) (s : State) :
    (raiseTrap t s).runDone = s.runDone := rfl
@[simp] theorem raiseTrap_draws (t : Trap) (s : State) :
    (raiseTrap t s).draws = s.draws := rfl

@[simp] theorem acceptStart_d (s : State) :
    (acceptStart s).d = s.d := rfl
@[simp] theorem acceptStart_cp (s : State) :
    (acceptStart s).cp = s.cp := rfl
@[simp] theorem acceptStart_runState (s : State) :
    (acceptStart s).runState = .run := rfl
@[simp] theorem acceptStart_err (s : State) :
    (acceptStart s).err = 0#32 := rfl
@[simp] theorem acceptStart_irqEn (s : State) :
    (acceptStart s).irqEn = s.irqEn := rfl
@[simp] theorem acceptStart_irqStat (s : State) :
    (acceptStart s).irqStat = s.irqStat := rfl
@[simp] theorem acceptStart_rst (s : State) :
    (acceptStart s).rst = s.rst := rfl
@[simp] theorem acceptStart_coef (s : State) :
    (acceptStart s).coef = s.coef := rfl
@[simp] theorem acceptStart_workers (s : State) :
    (acceptStart s).workers = s.workers := rfl
@[simp] theorem acceptStart_seq (s : State) :
    (acceptStart s).seq = Sequencer.empty .fetch := rfl
@[simp] theorem acceptStart_mem (s : State) :
    (acceptStart s).mem = s.mem := rfl
@[simp] theorem acceptStart_memBytes (s : State) :
    (acceptStart s).memBytes = s.memBytes := rfl
@[simp] theorem acceptStart_runStart (s : State) :
    (acceptStart s).runStart = s.cp := rfl
@[simp] theorem acceptStart_runDone (s : State) :
    (acceptStart s).runDone = 0 := rfl
@[simp] theorem acceptStart_draws (s : State) :
    (acceptStart s).draws = s.draws := rfl

@[simp] theorem enterHalted_d (s : State) :
    (enterHalted s).d = s.d := rfl
@[simp] theorem enterHalted_cp (s : State) :
    (enterHalted s).cp = s.cp := rfl
@[simp] theorem enterHalted_runState (s : State) :
    (enterHalted s).runState = .halted := rfl
@[simp] theorem enterHalted_err (s : State) :
    (enterHalted s).err = s.err := rfl
@[simp] theorem enterHalted_irqEn (s : State) :
    (enterHalted s).irqEn = s.irqEn := rfl
@[simp] theorem enterHalted_irqStat (s : State) :
    (enterHalted s).irqStat = irqStatNext s.irqStat 0#32 haltBit := rfl
@[simp] theorem enterHalted_rst (s : State) :
    (enterHalted s).rst = s.rst := rfl
@[simp] theorem enterHalted_coef (s : State) :
    (enterHalted s).coef = s.coef := rfl
@[simp] theorem enterHalted_workers (s : State) :
    (enterHalted s).workers = s.workers := rfl
@[simp] theorem enterHalted_seq (s : State) :
    (enterHalted s).seq = Sequencer.empty .idle := rfl
@[simp] theorem enterHalted_mem (s : State) :
    (enterHalted s).mem = s.mem := rfl
@[simp] theorem enterHalted_memBytes (s : State) :
    (enterHalted s).memBytes = s.memBytes := rfl
@[simp] theorem enterHalted_runStart (s : State) :
    (enterHalted s).runStart = s.runStart := rfl
@[simp] theorem enterHalted_runDone (s : State) :
    (enterHalted s).runDone = s.runDone := rfl
@[simp] theorem enterHalted_draws (s : State) :
    (enterHalted s).draws = s.draws := rfl

@[simp] theorem completeCommand_d (s : State) :
    (completeCommand s).d = s.d := rfl
@[simp] theorem completeCommand_cp (s : State) :
    (completeCommand s).cp = s.cp + 40#32 := rfl
@[simp] theorem completeCommand_runState (s : State) :
    (completeCommand s).runState = s.runState := rfl
@[simp] theorem completeCommand_err (s : State) :
    (completeCommand s).err = s.err := rfl
@[simp] theorem completeCommand_irqEn (s : State) :
    (completeCommand s).irqEn = s.irqEn := rfl
@[simp] theorem completeCommand_irqStat (s : State) :
    (completeCommand s).irqStat = s.irqStat := rfl
@[simp] theorem completeCommand_rst (s : State) :
    (completeCommand s).rst = s.rst := rfl
@[simp] theorem completeCommand_coef (s : State) :
    (completeCommand s).coef = [] := rfl
@[simp] theorem completeCommand_workers (s : State) :
    (completeCommand s).workers = s.workers.map fun _ => Worker.idle := rfl
@[simp] theorem completeCommand_seq (s : State) :
    (completeCommand s).seq = Sequencer.empty .fetch := rfl
@[simp] theorem completeCommand_mem (s : State) :
    (completeCommand s).mem = s.mem := rfl
@[simp] theorem completeCommand_memBytes (s : State) :
    (completeCommand s).memBytes = s.memBytes := rfl
@[simp] theorem completeCommand_runStart (s : State) :
    (completeCommand s).runStart = s.runStart := rfl
@[simp] theorem completeCommand_runDone (s : State) :
    (completeCommand s).runDone = s.runDone + 1 := rfl
@[simp] theorem completeCommand_draws (s : State) :
    (completeCommand s).draws = s.draws := rfl

@[simp] theorem setWorker_d (s : State) (lane : Nat) (w : Worker) :
    (s.setWorker lane w).d = s.d := rfl
@[simp] theorem setWorker_cp (s : State) (lane : Nat) (w : Worker) :
    (s.setWorker lane w).cp = s.cp := rfl
@[simp] theorem setWorker_runState (s : State) (lane : Nat) (w : Worker) :
    (s.setWorker lane w).runState = s.runState := rfl
@[simp] theorem setWorker_err (s : State) (lane : Nat) (w : Worker) :
    (s.setWorker lane w).err = s.err := rfl
@[simp] theorem setWorker_irqEn (s : State) (lane : Nat) (w : Worker) :
    (s.setWorker lane w).irqEn = s.irqEn := rfl
@[simp] theorem setWorker_irqStat (s : State) (lane : Nat) (w : Worker) :
    (s.setWorker lane w).irqStat = s.irqStat := rfl
@[simp] theorem setWorker_rst (s : State) (lane : Nat) (w : Worker) :
    (s.setWorker lane w).rst = s.rst := rfl
@[simp] theorem setWorker_coef (s : State) (lane : Nat) (w : Worker) :
    (s.setWorker lane w).coef = s.coef := rfl
@[simp] theorem setWorker_workers (s : State) (lane : Nat) (w : Worker) :
    (s.setWorker lane w).workers = s.workers.set lane w := rfl
@[simp] theorem setWorker_seq (s : State) (lane : Nat) (w : Worker) :
    (s.setWorker lane w).seq = s.seq := rfl
@[simp] theorem setWorker_mem (s : State) (lane : Nat) (w : Worker) :
    (s.setWorker lane w).mem = s.mem := rfl
@[simp] theorem setWorker_memBytes (s : State) (lane : Nat) (w : Worker) :
    (s.setWorker lane w).memBytes = s.memBytes := rfl
@[simp] theorem setWorker_runStart (s : State) (lane : Nat) (w : Worker) :
    (s.setWorker lane w).runStart = s.runStart := rfl
@[simp] theorem setWorker_runDone (s : State) (lane : Nat) (w : Worker) :
    (s.setWorker lane w).runDone = s.runDone := rfl
@[simp] theorem setWorker_draws (s : State) (lane : Nat) (w : Worker) :
    (s.setWorker lane w).draws = s.draws := rfl

@[simp] theorem loadLine_d (p : Pass) (line lane : Nat) (s : State) :
    (loadLine p line lane s).d = s.d := rfl
@[simp] theorem loadLine_cp (p : Pass) (line lane : Nat) (s : State) :
    (loadLine p line lane s).cp = s.cp := rfl
@[simp] theorem loadLine_runState (p : Pass) (line lane : Nat) (s : State) :
    (loadLine p line lane s).runState = s.runState := rfl
@[simp] theorem loadLine_err (p : Pass) (line lane : Nat) (s : State) :
    (loadLine p line lane s).err = s.err := rfl
@[simp] theorem loadLine_irqEn (p : Pass) (line lane : Nat) (s : State) :
    (loadLine p line lane s).irqEn = s.irqEn := rfl
@[simp] theorem loadLine_irqStat (p : Pass) (line lane : Nat) (s : State) :
    (loadLine p line lane s).irqStat = s.irqStat := rfl
@[simp] theorem loadLine_rst (p : Pass) (line lane : Nat) (s : State) :
    (loadLine p line lane s).rst = s.rst := rfl
@[simp] theorem loadLine_coef (p : Pass) (line lane : Nat) (s : State) :
    (loadLine p line lane s).coef = s.coef := rfl
@[simp] theorem loadLine_seq (p : Pass) (line lane : Nat) (s : State) :
    (loadLine p line lane s).seq = { s.seq with notStarted := s.seq.notStarted.erase line, inProgress := s.seq.inProgress ++ [line] } := rfl
@[simp] theorem loadLine_mem (p : Pass) (line lane : Nat) (s : State) :
    (loadLine p line lane s).mem = s.mem := rfl
@[simp] theorem loadLine_memBytes (p : Pass) (line lane : Nat) (s : State) :
    (loadLine p line lane s).memBytes = s.memBytes := rfl
@[simp] theorem loadLine_runStart (p : Pass) (line lane : Nat) (s : State) :
    (loadLine p line lane s).runStart = s.runStart := rfl
@[simp] theorem loadLine_runDone (p : Pass) (line lane : Nat) (s : State) :
    (loadLine p line lane s).runDone = s.runDone := rfl
@[simp] theorem loadLine_draws (p : Pass) (line lane : Nat) (s : State) :
    (loadLine p line lane s).draws = s.draws := rfl

@[simp] theorem computeLine_d (p : Pass) (line lane : Nat) (s : State) :
    (computeLine p line lane s).d = s.d := rfl
@[simp] theorem computeLine_cp (p : Pass) (line lane : Nat) (s : State) :
    (computeLine p line lane s).cp = s.cp := rfl
@[simp] theorem computeLine_runState (p : Pass) (line lane : Nat) (s : State) :
    (computeLine p line lane s).runState = s.runState := rfl
@[simp] theorem computeLine_err (p : Pass) (line lane : Nat) (s : State) :
    (computeLine p line lane s).err = s.err := rfl
@[simp] theorem computeLine_irqEn (p : Pass) (line lane : Nat) (s : State) :
    (computeLine p line lane s).irqEn = s.irqEn := rfl
@[simp] theorem computeLine_irqStat (p : Pass) (line lane : Nat) (s : State) :
    (computeLine p line lane s).irqStat = s.irqStat := rfl
@[simp] theorem computeLine_rst (p : Pass) (line lane : Nat) (s : State) :
    (computeLine p line lane s).rst = s.rst := rfl
@[simp] theorem computeLine_coef (p : Pass) (line lane : Nat) (s : State) :
    (computeLine p line lane s).coef = s.coef := rfl
@[simp] theorem computeLine_seq (p : Pass) (line lane : Nat) (s : State) :
    (computeLine p line lane s).seq = s.seq := rfl
@[simp] theorem computeLine_mem (p : Pass) (line lane : Nat) (s : State) :
    (computeLine p line lane s).mem = s.mem := rfl
@[simp] theorem computeLine_memBytes (p : Pass) (line lane : Nat) (s : State) :
    (computeLine p line lane s).memBytes = s.memBytes := rfl
@[simp] theorem computeLine_runStart (p : Pass) (line lane : Nat) (s : State) :
    (computeLine p line lane s).runStart = s.runStart := rfl
@[simp] theorem computeLine_runDone (p : Pass) (line lane : Nat) (s : State) :
    (computeLine p line lane s).runDone = s.runDone := rfl
@[simp] theorem computeLine_draws (p : Pass) (line lane : Nat) (s : State) :
    (computeLine p line lane s).draws = s.draws := rfl

@[simp] theorem storeLine_d (p : Pass) (line lane : Nat) (s : State) :
    (storeLine p line lane s).d = s.d := rfl
@[simp] theorem storeLine_cp (p : Pass) (line lane : Nat) (s : State) :
    (storeLine p line lane s).cp = s.cp := rfl
@[simp] theorem storeLine_runState (p : Pass) (line lane : Nat) (s : State) :
    (storeLine p line lane s).runState = s.runState := rfl
@[simp] theorem storeLine_err (p : Pass) (line lane : Nat) (s : State) :
    (storeLine p line lane s).err = s.err := rfl
@[simp] theorem storeLine_irqEn (p : Pass) (line lane : Nat) (s : State) :
    (storeLine p line lane s).irqEn = s.irqEn := rfl
@[simp] theorem storeLine_irqStat (p : Pass) (line lane : Nat) (s : State) :
    (storeLine p line lane s).irqStat = s.irqStat := rfl
@[simp] theorem storeLine_rst (p : Pass) (line lane : Nat) (s : State) :
    (storeLine p line lane s).rst = s.rst := rfl
@[simp] theorem storeLine_coef (p : Pass) (line lane : Nat) (s : State) :
    (storeLine p line lane s).coef = s.coef := rfl
@[simp] theorem storeLine_workers (p : Pass) (line lane : Nat) (s : State) :
    (storeLine p line lane s).workers = s.workers.set lane Worker.idle := rfl
@[simp] theorem storeLine_mem (p : Pass) (line lane : Nat) (s : State) :
    (storeLine p line lane s).mem = s.mem := rfl
@[simp] theorem storeLine_memBytes (p : Pass) (line lane : Nat) (s : State) :
    (storeLine p line lane s).memBytes = s.memBytes := rfl
@[simp] theorem storeLine_runStart (p : Pass) (line lane : Nat) (s : State) :
    (storeLine p line lane s).runStart = s.runStart := rfl
@[simp] theorem storeLine_runDone (p : Pass) (line lane : Nat) (s : State) :
    (storeLine p line lane s).runDone = s.runDone := rfl
@[simp] theorem storeLine_draws (p : Pass) (line lane : Nat) (s : State) :
    (storeLine p line lane s).draws = s.draws := rfl

@[simp] theorem drain_d (n : Nat) (s : State) :
    (drain n s).d = s.d := rfl
@[simp] theorem drain_cp (n : Nat) (s : State) :
    (drain n s).cp = s.cp := rfl
@[simp] theorem drain_runState (n : Nat) (s : State) :
    (drain n s).runState = s.runState := rfl
@[simp] theorem drain_err (n : Nat) (s : State) :
    (drain n s).err = s.err := rfl
@[simp] theorem drain_irqEn (n : Nat) (s : State) :
    (drain n s).irqEn = s.irqEn := rfl
@[simp] theorem drain_irqStat (n : Nat) (s : State) :
    (drain n s).irqStat = s.irqStat := rfl
@[simp] theorem drain_rst (n : Nat) (s : State) :
    (drain n s).rst = s.rst := rfl
@[simp] theorem drain_coef (n : Nat) (s : State) :
    (drain n s).coef = s.coef := rfl
@[simp] theorem drain_workers (n : Nat) (s : State) :
    (drain n s).workers = s.workers := rfl
@[simp] theorem drain_seq (n : Nat) (s : State) :
    (drain n s).seq = { s.seq with pending := s.seq.pending.drop n } := rfl
@[simp] theorem drain_mem (n : Nat) (s : State) :
    (drain n s).mem = Memory.writeAll s.mem (s.seq.pending.take n) := rfl
@[simp] theorem drain_memBytes (n : Nat) (s : State) :
    (drain n s).memBytes = s.memBytes := rfl
@[simp] theorem drain_runStart (n : Nat) (s : State) :
    (drain n s).runStart = s.runStart := rfl
@[simp] theorem drain_runDone (n : Nat) (s : State) :
    (drain n s).runDone = s.runDone := rfl
@[simp] theorem drain_draws (n : Nat) (s : State) :
    (drain n s).draws = s.draws := rfl

@[simp] theorem landComponent_d (width k : Nat) (s : State) :
    (landComponent width k s).d = s.d := rfl
@[simp] theorem landComponent_cp (width k : Nat) (s : State) :
    (landComponent width k s).cp = s.cp := rfl
@[simp] theorem landComponent_runState (width k : Nat) (s : State) :
    (landComponent width k s).runState = s.runState := rfl
@[simp] theorem landComponent_err (width k : Nat) (s : State) :
    (landComponent width k s).err = s.err := rfl
@[simp] theorem landComponent_irqEn (width k : Nat) (s : State) :
    (landComponent width k s).irqEn = s.irqEn := rfl
@[simp] theorem landComponent_irqStat (width k : Nat) (s : State) :
    (landComponent width k s).irqStat = s.irqStat := rfl
@[simp] theorem landComponent_rst (width k : Nat) (s : State) :
    (landComponent width k s).rst = s.rst := rfl
@[simp] theorem landComponent_coef (width k : Nat) (s : State) :
    (landComponent width k s).coef = s.coef := rfl
@[simp] theorem landComponent_workers (width k : Nat) (s : State) :
    (landComponent width k s).workers = s.workers := rfl
@[simp] theorem landComponent_memBytes (width k : Nat) (s : State) :
    (landComponent width k s).memBytes = s.memBytes := rfl
@[simp] theorem landComponent_runStart (width k : Nat) (s : State) :
    (landComponent width k s).runStart = s.runStart := rfl
@[simp] theorem landComponent_runDone (width k : Nat) (s : State) :
    (landComponent width k s).runDone = s.runDone := rfl
@[simp] theorem landComponent_draws (width k : Nat) (s : State) :
    (landComponent width k s).draws = s.draws := rfl
@[simp] theorem landComponent_mem (width k : Nat) (s : State) :
    (landComponent width k s).mem = Memory.writeAll s.mem ((s.seq.pending.drop (k * width)).take width) := rfl
@[simp] theorem landComponent_seq (width k : Nat) (s : State) :
    (landComponent width k s).seq =
      { s.seq with pending := s.seq.pending.take (k * width) ++ s.seq.pending.drop ((k + 1) * width) } := rfl

@[simp] theorem drainAll_d (s : State) :
    (drainAll s).d = s.d := rfl
@[simp] theorem drainAll_cp (s : State) :
    (drainAll s).cp = s.cp := rfl
@[simp] theorem drainAll_runState (s : State) :
    (drainAll s).runState = s.runState := rfl
@[simp] theorem drainAll_err (s : State) :
    (drainAll s).err = s.err := rfl
@[simp] theorem drainAll_irqEn (s : State) :
    (drainAll s).irqEn = s.irqEn := rfl
@[simp] theorem drainAll_irqStat (s : State) :
    (drainAll s).irqStat = s.irqStat := rfl
@[simp] theorem drainAll_rst (s : State) :
    (drainAll s).rst = s.rst := rfl
@[simp] theorem drainAll_coef (s : State) :
    (drainAll s).coef = s.coef := rfl
@[simp] theorem drainAll_workers (s : State) :
    (drainAll s).workers = s.workers := rfl
@[simp] theorem drainAll_memBytes (s : State) :
    (drainAll s).memBytes = s.memBytes := rfl
@[simp] theorem drainAll_runStart (s : State) :
    (drainAll s).runStart = s.runStart := rfl
@[simp] theorem drainAll_runDone (s : State) :
    (drainAll s).runDone = s.runDone := rfl
@[simp] theorem drainAll_draws (s : State) :
    (drainAll s).draws = s.draws := rfl

@[simp] theorem barrier_d (s : State) :
    (barrier s).d = s.d := rfl
@[simp] theorem barrier_cp (s : State) :
    (barrier s).cp = s.cp := rfl
@[simp] theorem barrier_runState (s : State) :
    (barrier s).runState = s.runState := rfl
@[simp] theorem barrier_err (s : State) :
    (barrier s).err = s.err := rfl
@[simp] theorem barrier_irqEn (s : State) :
    (barrier s).irqEn = s.irqEn := rfl
@[simp] theorem barrier_irqStat (s : State) :
    (barrier s).irqStat = s.irqStat := rfl
@[simp] theorem barrier_rst (s : State) :
    (barrier s).rst = s.rst := rfl
@[simp] theorem barrier_coef (s : State) :
    (barrier s).coef = s.coef := rfl
@[simp] theorem barrier_workers (s : State) :
    (barrier s).workers = s.workers := rfl
@[simp] theorem barrier_mem (s : State) :
    (barrier s).mem = (drainAll s).mem := rfl
@[simp] theorem barrier_memBytes (s : State) :
    (barrier s).memBytes = s.memBytes := rfl
@[simp] theorem barrier_runStart (s : State) :
    (barrier s).runStart = s.runStart := rfl
@[simp] theorem barrier_runDone (s : State) :
    (barrier s).runDone = s.runDone := rfl
@[simp] theorem barrier_draws (s : State) :
    (barrier s).draws = s.draws := rfl

@[simp] theorem runLine_d (p : Pass) (s : State) (line : Nat) :
    (runLine p s line).d = s.d := by
  simp only [runLine, drainAll_d, storeLine_d, computeLine_d, loadLine_d]
@[simp] theorem runLine_cp (p : Pass) (s : State) (line : Nat) :
    (runLine p s line).cp = s.cp := by
  simp only [runLine, drainAll_cp, storeLine_cp, computeLine_cp, loadLine_cp]
@[simp] theorem runLine_runState (p : Pass) (s : State) (line : Nat) :
    (runLine p s line).runState = s.runState := by
  simp only [runLine, drainAll_runState, storeLine_runState, computeLine_runState, loadLine_runState]
@[simp] theorem runLine_err (p : Pass) (s : State) (line : Nat) :
    (runLine p s line).err = s.err := by
  simp only [runLine, drainAll_err, storeLine_err, computeLine_err, loadLine_err]
@[simp] theorem runLine_irqEn (p : Pass) (s : State) (line : Nat) :
    (runLine p s line).irqEn = s.irqEn := by
  simp only [runLine, drainAll_irqEn, storeLine_irqEn, computeLine_irqEn, loadLine_irqEn]
@[simp] theorem runLine_irqStat (p : Pass) (s : State) (line : Nat) :
    (runLine p s line).irqStat = s.irqStat := by
  simp only [runLine, drainAll_irqStat, storeLine_irqStat, computeLine_irqStat, loadLine_irqStat]
@[simp] theorem runLine_rst (p : Pass) (s : State) (line : Nat) :
    (runLine p s line).rst = s.rst := by
  simp only [runLine, drainAll_rst, storeLine_rst, computeLine_rst, loadLine_rst]
@[simp] theorem runLine_coef (p : Pass) (s : State) (line : Nat) :
    (runLine p s line).coef = s.coef := by
  simp only [runLine, drainAll_coef, storeLine_coef, computeLine_coef, loadLine_coef]
@[simp] theorem runLine_memBytes (p : Pass) (s : State) (line : Nat) :
    (runLine p s line).memBytes = s.memBytes := by
  simp only [runLine, drainAll_memBytes, storeLine_memBytes, computeLine_memBytes, loadLine_memBytes]
@[simp] theorem runLine_runStart (p : Pass) (s : State) (line : Nat) :
    (runLine p s line).runStart = s.runStart := by
  simp only [runLine, drainAll_runStart, storeLine_runStart, computeLine_runStart, loadLine_runStart]
@[simp] theorem runLine_runDone (p : Pass) (s : State) (line : Nat) :
    (runLine p s line).runDone = s.runDone := by
  simp only [runLine, drainAll_runDone, storeLine_runDone, computeLine_runDone, loadLine_runDone]
@[simp] theorem runLine_draws (p : Pass) (s : State) (line : Nat) :
    (runLine p s line).draws = s.draws := by
  simp only [runLine, drainAll_draws, storeLine_draws, computeLine_draws, loadLine_draws]

@[simp] theorem writeIrqEn_d (v : Word) (s : State) :
    (writeIrqEn v s).d = s.d := rfl
@[simp] theorem writeIrqEn_cp (v : Word) (s : State) :
    (writeIrqEn v s).cp = s.cp := rfl
@[simp] theorem writeIrqEn_runState (v : Word) (s : State) :
    (writeIrqEn v s).runState = s.runState := rfl
@[simp] theorem writeIrqEn_err (v : Word) (s : State) :
    (writeIrqEn v s).err = s.err := rfl
@[simp] theorem writeIrqEn_irqEn (v : Word) (s : State) :
    (writeIrqEn v s).irqEn = v &&& irqMask := rfl
@[simp] theorem writeIrqEn_irqStat (v : Word) (s : State) :
    (writeIrqEn v s).irqStat = s.irqStat := rfl
@[simp] theorem writeIrqEn_rst (v : Word) (s : State) :
    (writeIrqEn v s).rst = s.rst := rfl
@[simp] theorem writeIrqEn_coef (v : Word) (s : State) :
    (writeIrqEn v s).coef = s.coef := rfl
@[simp] theorem writeIrqEn_workers (v : Word) (s : State) :
    (writeIrqEn v s).workers = s.workers := rfl
@[simp] theorem writeIrqEn_seq (v : Word) (s : State) :
    (writeIrqEn v s).seq = s.seq := rfl
@[simp] theorem writeIrqEn_mem (v : Word) (s : State) :
    (writeIrqEn v s).mem = s.mem := rfl
@[simp] theorem writeIrqEn_memBytes (v : Word) (s : State) :
    (writeIrqEn v s).memBytes = s.memBytes := rfl
@[simp] theorem writeIrqEn_runStart (v : Word) (s : State) :
    (writeIrqEn v s).runStart = s.runStart := rfl
@[simp] theorem writeIrqEn_runDone (v : Word) (s : State) :
    (writeIrqEn v s).runDone = s.runDone := rfl
@[simp] theorem writeIrqEn_draws (v : Word) (s : State) :
    (writeIrqEn v s).draws = s.draws := rfl

@[simp] theorem writeIrqStat_d (v : Word) (s : State) :
    (writeIrqStat v s).d = s.d := rfl
@[simp] theorem writeIrqStat_cp (v : Word) (s : State) :
    (writeIrqStat v s).cp = s.cp := rfl
@[simp] theorem writeIrqStat_runState (v : Word) (s : State) :
    (writeIrqStat v s).runState = s.runState := rfl
@[simp] theorem writeIrqStat_err (v : Word) (s : State) :
    (writeIrqStat v s).err = s.err := rfl
@[simp] theorem writeIrqStat_irqEn (v : Word) (s : State) :
    (writeIrqStat v s).irqEn = s.irqEn := rfl
@[simp] theorem writeIrqStat_irqStat (v : Word) (s : State) :
    (writeIrqStat v s).irqStat = irqStatNext s.irqStat v 0#32 := rfl
@[simp] theorem writeIrqStat_rst (v : Word) (s : State) :
    (writeIrqStat v s).rst = s.rst := rfl
@[simp] theorem writeIrqStat_coef (v : Word) (s : State) :
    (writeIrqStat v s).coef = s.coef := rfl
@[simp] theorem writeIrqStat_workers (v : Word) (s : State) :
    (writeIrqStat v s).workers = s.workers := rfl
@[simp] theorem writeIrqStat_seq (v : Word) (s : State) :
    (writeIrqStat v s).seq = s.seq := rfl
@[simp] theorem writeIrqStat_mem (v : Word) (s : State) :
    (writeIrqStat v s).mem = s.mem := rfl
@[simp] theorem writeIrqStat_memBytes (v : Word) (s : State) :
    (writeIrqStat v s).memBytes = s.memBytes := rfl
@[simp] theorem writeIrqStat_runStart (v : Word) (s : State) :
    (writeIrqStat v s).runStart = s.runStart := rfl
@[simp] theorem writeIrqStat_runDone (v : Word) (s : State) :
    (writeIrqStat v s).runDone = s.runDone := rfl
@[simp] theorem writeIrqStat_draws (v : Word) (s : State) :
    (writeIrqStat v s).draws = s.draws := rfl

@[simp] theorem assertReset_d (s : State) :
    (assertReset s).d = Desc.zero := rfl
@[simp] theorem assertReset_cp (s : State) :
    (assertReset s).cp = 0#32 := rfl
@[simp] theorem assertReset_runState (s : State) :
    (assertReset s).runState = .idle := rfl
@[simp] theorem assertReset_err (s : State) :
    (assertReset s).err = 0#32 := rfl
@[simp] theorem assertReset_irqEn (s : State) :
    (assertReset s).irqEn = 0#32 := rfl
@[simp] theorem assertReset_irqStat (s : State) :
    (assertReset s).irqStat = 0#32 := rfl
@[simp] theorem assertReset_rst (s : State) :
    (assertReset s).rst = true := rfl
@[simp] theorem assertReset_coef (s : State) :
    (assertReset s).coef = [] := rfl
@[simp] theorem assertReset_workers (s : State) :
    (assertReset s).workers = s.workers.map fun _ => Worker.idle := rfl
@[simp] theorem assertReset_seq (s : State) :
    (assertReset s).seq = Sequencer.empty .idle := rfl
@[simp] theorem assertReset_mem (s : State) :
    (assertReset s).mem = Memory.writeAll s.mem (cutCells s) := rfl
@[simp] theorem assertReset_memBytes (s : State) :
    (assertReset s).memBytes = s.memBytes := rfl
@[simp] theorem assertReset_runStart (s : State) :
    (assertReset s).runStart = 0#32 := rfl
@[simp] theorem assertReset_runDone (s : State) :
    (assertReset s).runDone = 0 := rfl
@[simp] theorem assertReset_draws (s : State) :
    (assertReset s).draws = s.draws + 1 := rfl

@[simp] theorem releaseReset_d (s : State) :
    (releaseReset s).d = s.d := rfl
@[simp] theorem releaseReset_cp (s : State) :
    (releaseReset s).cp = s.cp := rfl
@[simp] theorem releaseReset_runState (s : State) :
    (releaseReset s).runState = s.runState := rfl
@[simp] theorem releaseReset_err (s : State) :
    (releaseReset s).err = s.err := rfl
@[simp] theorem releaseReset_irqEn (s : State) :
    (releaseReset s).irqEn = s.irqEn := rfl
@[simp] theorem releaseReset_irqStat (s : State) :
    (releaseReset s).irqStat = s.irqStat := rfl
@[simp] theorem releaseReset_rst (s : State) :
    (releaseReset s).rst = false := rfl
@[simp] theorem releaseReset_coef (s : State) :
    (releaseReset s).coef = s.coef := rfl
@[simp] theorem releaseReset_workers (s : State) :
    (releaseReset s).workers = s.workers := rfl
@[simp] theorem releaseReset_seq (s : State) :
    (releaseReset s).seq = s.seq := rfl
@[simp] theorem releaseReset_mem (s : State) :
    (releaseReset s).mem = s.mem := rfl
@[simp] theorem releaseReset_memBytes (s : State) :
    (releaseReset s).memBytes = s.memBytes := rfl
@[simp] theorem releaseReset_runStart (s : State) :
    (releaseReset s).runStart = s.runStart := rfl
@[simp] theorem releaseReset_runDone (s : State) :
    (releaseReset s).runDone = s.runDone := rfl
@[simp] theorem releaseReset_draws (s : State) :
    (releaseReset s).draws = s.draws := rfl

@[simp] theorem hardReset_d (s : State) :
    (hardReset s).d = Desc.zero := rfl
@[simp] theorem hardReset_cp (s : State) :
    (hardReset s).cp = 0#32 := rfl
@[simp] theorem hardReset_runState (s : State) :
    (hardReset s).runState = .idle := rfl
@[simp] theorem hardReset_err (s : State) :
    (hardReset s).err = 0#32 := rfl
@[simp] theorem hardReset_irqEn (s : State) :
    (hardReset s).irqEn = 0#32 := rfl
@[simp] theorem hardReset_irqStat (s : State) :
    (hardReset s).irqStat = 0#32 := rfl
@[simp] theorem hardReset_rst (s : State) :
    (hardReset s).rst = false := rfl
@[simp] theorem hardReset_coef (s : State) :
    (hardReset s).coef = [] := rfl
@[simp] theorem hardReset_workers (s : State) :
    (hardReset s).workers = s.workers.map fun _ => Worker.idle := rfl
@[simp] theorem hardReset_seq (s : State) :
    (hardReset s).seq = Sequencer.empty .idle := rfl
@[simp] theorem hardReset_mem (s : State) :
    (hardReset s).mem = Memory.writeAll s.mem (cutCells s) := rfl
@[simp] theorem hardReset_memBytes (s : State) :
    (hardReset s).memBytes = s.memBytes := rfl
@[simp] theorem hardReset_runStart (s : State) :
    (hardReset s).runStart = 0#32 := rfl
@[simp] theorem hardReset_runDone (s : State) :
    (hardReset s).runDone = 0 := rfl
@[simp] theorem hardReset_draws (s : State) :
    (hardReset s).draws = s.draws + 1 := rfl

@[simp] theorem drainAll_mem (s : State) : (drainAll s).mem = Memory.writeAll s.mem s.seq.pending := by
  simp [drainAll]

@[simp] theorem drainAll_seq (s : State) : (drainAll s).seq = { s.seq with pending := [] } := by
  simp [drainAll]

@[simp] theorem barrier_seq (s : State) :
    (barrier s).seq = { s.seq with notStarted := [], inProgress := [], finished := [], pending := [] } := by
  simp [barrier]

/-- A worker that has been replaced is read back. -/
@[simp] theorem setWorker_worker_same (s : State) (lane : Nat) (w : Worker) (h : lane < s.workers.length) :
    (s.setWorker lane w).worker lane = w := by
  simp [State.setWorker, State.worker, List.getD_eq_getElem?_getD, h]

/-- The number of workers never changes while a line is processed (spec 00_scope.md R7: NLANES is a parameter). -/
@[simp] theorem loadLine_length (p : Pass) (line lane : Nat) (s : State) :
    (loadLine p line lane s).workers.length = s.workers.length := by
  simp [loadLine, State.setWorker]

@[simp] theorem computeLine_length (p : Pass) (line lane : Nat) (s : State) :
    (computeLine p line lane s).workers.length = s.workers.length := by
  simp [computeLine, State.setWorker]

@[simp] theorem runLine_length (p : Pass) (s : State) (line : Nat) :
    (runLine p s line).workers.length = s.workers.length := by
  simp [runLine]

end Sys2Proof.Machine
end

