-- ==== Sys2Proof/Laws/Memory.lean ====
section
/-! SUPPORT. The laws of memory: every operation keeps the canonical form; a read after a write gives the byte written and
every other byte is as before; canonical memories that read alike are equal. -/

namespace Sys2Proof.Machine

theorem memory_nil_wf : Memory.wf [] := by simp [Memory.wf]

theorem reset_memory_wf : Memory.wf State.reset.mem := memory_nil_wf

@[simp] theorem read_nil (a : Nat) : Memory.read [] a = 0#8 := rfl

theorem read_cons (k : Nat) (b : Byte) (m : Memory) (a : Nat) :
    Memory.read ((k, b) :: m) a = if k = a then b else m.read a := rfl

/-- The tail of a canonical memory is canonical, and its addresses are above the head's. -/
theorem wf_cons {k : Nat} {b : Byte} {m : Memory} :
    Memory.wf ((k, b) :: m) ↔ (∀ c ∈ m, k < c.1) ∧ b ≠ 0#8 ∧ Memory.wf m := by
  simp only [Memory.wf, List.pairwise_cons, List.mem_cons, forall_eq_or_imp]
  tauto

/-- An address below every listed one reads as unwritten. -/
theorem read_below {m : Memory} {a : Nat} (h : ∀ c ∈ m, a < c.1) : m.read a = 0#8 := by
  induction m with
  | nil => rfl
  | cons c m ih =>
    obtain ⟨k, b⟩ := c
    have hk : a < k := h (k, b) (by simp)
    rw [read_cons, if_neg (by omega), ih fun c hc => h c (by simp [hc])]

/-- A listed address of a canonical memory reads as a byte that is not the unwritten one. -/
theorem read_mem {m : Memory} (hm : m.wf) {c : Host.Cell} (hc : c ∈ m) : m.read c.1 = c.2 := by
  induction m with
  | nil => simp at hc
  | cons x m ih =>
    obtain ⟨k, b⟩ := x
    obtain ⟨hk, -, hm'⟩ := wf_cons.mp hm
    rcases List.mem_cons.mp hc with rfl | hc'
    · simp [read_cons]
    · have := hk c hc'
      rw [read_cons, if_neg (by omega), ih hm' hc']

/-- The addresses a write can leave listed: the old ones and the written one. -/
theorem mem_write {m : Memory} {a : Nat} {b : Byte} {c : Host.Cell} (h : c ∈ m.write a b) : c ∈ m ∨ c = (a, b) := by
  induction m with
  | nil =>
    simp only [Memory.write] at h
    split at h <;> simp_all
  | cons x m ih =>
    obtain ⟨k, v⟩ := x
    simp only [Memory.write] at h
    split at h
    · split at h <;> simp_all
      tauto
    · split at h
      · split at h <;> simp_all
        tauto
      · rcases List.mem_cons.mp h with rfl | h'
        · simp
        · rcases ih h' with h'' | h'' <;> simp [h'']

/-- A write keeps the canonical form. -/
theorem write_wf {m : Memory} (hm : m.wf) (a : Nat) (b : Byte) : Memory.wf (m.write a b) := by
  induction m with
  | nil =>
    simp only [Memory.write]
    split
    · exact memory_nil_wf
    · rename_i hb
      exact wf_cons.mpr ⟨by simp, hb, memory_nil_wf⟩
  | cons x m ih =>
    obtain ⟨k, v⟩ := x
    obtain ⟨hk, hv, hm'⟩ := wf_cons.mp hm
    simp only [Memory.write]
    split
    · rename_i hak
      split
      · exact hm
      · rename_i hb
        refine wf_cons.mpr ⟨fun c hc => ?_, hb, hm⟩
        rcases List.mem_cons.mp hc with rfl | hc'
        · exact hak
        · exact lt_trans hak (hk c hc')
    · split
      · rename_i hak
        split
        · exact hm'
        · rename_i hb
          exact wf_cons.mpr ⟨fun c hc => hak ▸ hk c hc, hb, hm'⟩
      · rename_i h1 h2
        refine wf_cons.mpr ⟨fun c hc => ?_, hv, ih hm'⟩
        rcases mem_write hc with h | rfl
        · exact hk c h
        · show k < a
          omega

/-- A read after a write gives the written byte at its address and the old byte elsewhere. -/
theorem read_write {m : Memory} (hm : m.wf) (a : Nat) (b : Byte) (x : Nat) :
    (m.write a b).read x = if x = a then b else m.read x := by
  induction m with
  | nil =>
    simp only [Memory.write]
    split
    · rename_i hb
      rw [hb]
      simp [Memory.unwritten]
    · simp only [read_cons, read_nil, eq_comm]
  | cons c m ih =>
    obtain ⟨k, v⟩ := c
    obtain ⟨hk, hv, hm'⟩ := wf_cons.mp hm
    simp only [Memory.write]
    split
    · rename_i hak
      split
      · rename_i hb
        by_cases hx : x = a
        · subst hx hb
          rw [if_pos rfl, read_below, Memory.unwritten]
          intro c hc
          rcases List.mem_cons.mp hc with rfl | hc'
          · exact hak
          · exact lt_trans hak (hk c hc')
        · rw [if_neg hx]
      · simp only [read_cons, eq_comm]
    · split
      · rename_i hak
        subst hak
        split
        · rename_i hb
          by_cases hx : x = a
          · subst hx hb
            rw [if_pos rfl, read_below hk, Memory.unwritten]
          · rw [if_neg hx, read_cons, if_neg (by omega)]
        · by_cases hx : x = a
          · simp [read_cons, hx]
          · rw [if_neg hx, read_cons, if_neg (by omega), read_cons, if_neg (by omega)]
      · rename_i h1 h2
        rw [read_cons, ih hm', read_cons]
        by_cases hkx : k = x
        · rw [if_pos hkx, if_neg (by omega), if_pos hkx]
        · rw [if_neg hkx, if_neg hkx]

theorem read_write_same {m : Memory} (hm : m.wf) (a : Nat) (b : Byte) : (m.write a b).read a = b := by
  rw [read_write hm, if_pos rfl]

theorem read_write_other {m : Memory} (hm : m.wf) {a x : Nat} (b : Byte) (h : x ≠ a) :
    (m.write a b).read x = m.read x := by
  rw [read_write hm, if_neg h]

/-- Canonical memories that read alike at every address are equal. -/
theorem memory_ext {m m' : Memory} (hm : m.wf) (hm' : m'.wf) (h : ∀ a, m.read a = m'.read a) : m = m' := by
  induction m generalizing m' with
  | nil =>
    cases m' with
    | nil => rfl
    | cons c m' =>
      obtain ⟨k, v⟩ := c
      have := h k
      rw [read_nil, read_cons, if_pos rfl] at this
      exact absurd this.symm (wf_cons.mp hm').2.1
  | cons c m ih =>
    obtain ⟨k, v⟩ := c
    obtain ⟨hk, hv, hmt⟩ := wf_cons.mp hm
    cases m' with
    | nil =>
      have := h k
      rw [read_nil, read_cons, if_pos rfl] at this
      exact absurd this hv
    | cons c' m' =>
      obtain ⟨k', v'⟩ := c'
      obtain ⟨hk', hv', hmt'⟩ := wf_cons.mp hm'
      have hkk : k = k' := by
        rcases Nat.lt_trichotomy k k' with hlt | heq | hgt
        · have h1 := h k
          rw [read_cons, if_pos rfl, read_below (m := (k', v') :: m')] at h1
          · exact absurd h1 hv
          · intro c hc
            rcases List.mem_cons.mp hc with rfl | hc'
            · exact hlt
            · exact lt_trans hlt (hk' c hc')
        · exact heq
        · have h1 := h k'
          rw [read_cons (k := k'), if_pos rfl, read_below (m := (k, v) :: m)] at h1
          · exact absurd h1.symm hv'
          · intro c hc
            rcases List.mem_cons.mp hc with rfl | hc'
            · exact hgt
            · exact lt_trans hgt (hk c hc')
      subst hkk
      have hvv : v = v' := by simpa [read_cons] using h k
      have hrest : ∀ a, Memory.read m a = Memory.read m' a := by
        intro a
        by_cases hka : k = a
        · subst hka
          rw [read_below hk, read_below hk']
        · simpa [read_cons, hka] using h a
      rw [hvv, ih hmt hmt' hrest]

@[simp] theorem writeAll_nil (m : Memory) : m.writeAll [] = m := rfl

@[simp] theorem writeAll_cons (m : Memory) (c : Host.Cell) (cs : List Host.Cell) :
    m.writeAll (c :: cs) = (m.write c.1 c.2).writeAll cs := rfl

theorem writeAll_append (m : Memory) (cs cs' : List Host.Cell) :
    m.writeAll (cs ++ cs') = (m.writeAll cs).writeAll cs' := by
  simp [Memory.writeAll]

/-- Writes keep the canonical form. -/
theorem writeAll_wf {m : Memory} (hm : m.wf) (cs : List Host.Cell) : Memory.wf (m.writeAll cs) := by
  induction cs generalizing m with
  | nil => exact hm
  | cons c cs ih => exact ih (write_wf hm c.1 c.2)

/-- A byte that no write names is as before. -/
theorem read_writeAll_other {m : Memory} (hm : m.wf) {cs : List Host.Cell} {x : Nat} (h : ∀ c ∈ cs, c.1 ≠ x) :
    (m.writeAll cs).read x = m.read x := by
  induction cs generalizing m with
  | nil => rfl
  | cons c cs ih =>
    rw [writeAll_cons, ih (write_wf hm _ _) fun d hd => h d (by simp [hd]),
      read_write_other hm _ (Ne.symm (h c (by simp)))]

/-- After writes that name every address at most once, each named byte reads as written. -/
theorem read_writeAll_mem {m : Memory} (hm : m.wf) {cs : List Host.Cell} (hcs : (cs.map (·.1)).Nodup)
    {c : Host.Cell} (hc : c ∈ cs) : (m.writeAll cs).read c.1 = c.2 := by
  induction cs generalizing m with
  | nil => simp at hc
  | cons d cs ih =>
    rw [List.map_cons, List.nodup_cons] at hcs
    rcases List.mem_cons.mp hc with rfl | hc'
    · rw [writeAll_cons, read_writeAll_other (write_wf hm _ _), read_write_same hm]
      intro e he heq
      exact hcs.1 (List.mem_map.mpr ⟨e, he, heq⟩)
    · rw [writeAll_cons, ih (write_wf hm _ _) hcs.2 hc']

/-- The addresses writes can leave listed. -/
theorem mem_writeAll {m : Memory} {cs : List Host.Cell} {c : Host.Cell} (h : c ∈ m.writeAll cs) : c ∈ m ∨ c ∈ cs := by
  induction cs generalizing m with
  | nil => exact .inl h
  | cons d cs ih =>
    rcases ih h with h' | h'
    · rcases mem_write h' with h'' | rfl
      · exact .inl h''
      · exact .inr (by simp)
    · exact .inr (by simp [h'])

/-- A host write keeps the canonical form of memory. -/
theorem hostWrite_wf {a : Nat} {b : Byte} {s t : State} (hm : Memory.wf s.mem) (h : hostWrite a b s = .next t) :
    Memory.wf t.mem := by
  unfold hostWrite at h
  split at h
  · cases h
  · split at h
    · cases h
    · cases h
      exact write_wf hm a b

@[simp] theorem bytesOfNat_length (n v : Nat) : (bytesOfNat n v).length = n := by
  induction n generalizing v with
  | zero => rfl
  | succ n ih => simp [bytesOfNat, ih]

/-- The bytes of a natural give it back (spec 20_memory.md R71, R72). -/
theorem natOfBytes_bytesOfNat (n v : Nat) : natOfBytes (bytesOfNat n v) = v % 256 ^ n := by
  induction n generalizing v with
  | zero => simp [bytesOfNat, natOfBytes, Nat.mod_one]
  | succ n ih =>
    have h := Nat.mod_mul (x := v) (a := 256) (b := 256 ^ n)
    rw [bytesOfNat, natOfBytes, ih, BitVec.toNat_ofNat, pow_succ' 256 n, h]

theorem natOfBytes_lt (bs : List Byte) : natOfBytes bs < 256 ^ bs.length := by
  induction bs with
  | nil => simp [natOfBytes]
  | cons b bs ih =>
    have hb : b.toNat < 256 := b.isLt
    rw [natOfBytes, List.length_cons, pow_succ]
    omega

@[simp] theorem cellsOf_length (a n v : Nat) : (cellsOf a n v).length = n := by simp [cellsOf]

@[simp] theorem bytesAt_length (m : Memory) (a n : Nat) : (m.bytesAt a n).length = n := by simp [Memory.bytesAt]

/-- A component read is in range: `0 .. MAXV(cw)` (spec 40_pipeline.md R145). -/
theorem loadComponent_le (b : Buffer) (m : Memory) (row col ch : Nat) :
    loadComponent b m row col ch ≤ b.cw.maxValue := by
  have h := natOfBytes_lt (m.bytesAt (bufAddr b row col ch) b.cw.bytes)
  rw [bytesAt_length] at h
  unfold loadComponent Memory.readNat
  cases hcw : b.cw <;> rw [hcw] at h <;> simp [CompWidth.bytes, CompWidth.maxValue] at h ⊢ <;> omega

end Sys2Proof.Machine
end

