-- ==== Sys2Proof/Laws/Ops.lean ====
section
/-! SUPPORT. What the shared operations can answer: FETCH, VALIDATE's checks, and the shape of every command. -/

namespace Sys2Proof.Machine

/-- FETCH in full (spec 40_pipeline.md R141): where the descriptor lies in memory, the latches hold its words. -/
theorem fetch_ok {s : State} (h : s.cp.toNat + 40 ≤ s.memBytes) :
    fetch s = .ok { s with d := Memory.readDesc s.mem s.cp.toNat, seq := Sequencer.empty .validate } := by
  unfold fetch Config.descBytes
  rw [if_neg (by omega)]

/-- FETCH outside memory (spec 60_exceptions.md R262). -/
theorem fetch_fault {s : State} (h : s.memBytes < s.cp.toNat + 40) : fetch s = .error ⟨.descriptorFault, 1⟩ := by
  unfold fetch Config.descBytes
  rw [if_pos h]

/-- Everything FETCH can answer. -/
theorem fetch_cases (s : State) :
    (s.memBytes < s.cp.toNat + 40 ∧ fetch s = .error ⟨.descriptorFault, 1⟩) ∨
      (s.cp.toNat + 40 ≤ s.memBytes ∧
        fetch s = .ok { s with d := Memory.readDesc s.mem s.cp.toNat, seq := Sequencer.empty .validate }) := by
  rcases Nat.lt_or_ge s.memBytes (s.cp.toNat + 40) with h | h
  · exact .inl ⟨h, fetch_fault h⟩
  · exact .inr ⟨h, fetch_ok h⟩

/-- The five geometry checks find nothing exactly when the buffer is legal (spec 60_exceptions.md R264). -/
theorem geometrySub_eq_none {b : Buffer} {memBytes : Nat} : geometrySub b memBytes = none ↔ Fits b memBytes := by
  unfold geometrySub Fits bufEnd
  split_ifs with h1 h2 h3 h4 h5
  · simp; omega
  · simp; omega
  · simp; omega
  · simp only [false_iff]
    intro h
    have := h.2.2.2.2.1 h4.1
    omega
  · simp; omega
  · simp only [true_iff]
    refine ⟨by omega, by omega, by omega, by omega, fun hc => ?_, by omega⟩
    by_contra hb
    exact h4 ⟨hc, by omega⟩

theorem checkSource_eq_none {b : Buffer} {memBytes : Nat} : checkSource b memBytes = none ↔ Fits b memBytes := by
  simp [checkSource, geometrySub_eq_none]

theorem checkDest_eq_none {b : Buffer} {memBytes : Nat} : checkDest b memBytes = none ↔ Fits b memBytes := by
  simp [checkDest, geometrySub_eq_none]

theorem checkSizes_eq_none {src dst : Buffer} : checkSizes src dst = none ↔ SameSize src dst := by
  unfold checkSizes SameSize
  split_ifs <;> simp_all

theorem checkOverlap_eq_none {src dst : Buffer} : checkOverlap src dst = none ↔ Apart src dst := by
  unfold checkOverlap Apart bufEnd
  split_ifs <;> simp <;> omega

theorem checkKernel_eq_none {k sigma : Nat} : checkKernel k sigma = none ↔ LegalKernel k sigma := by
  unfold checkKernel LegalKernel Config.kMax
  split_ifs <;> simp <;> omega

/-- A legal buffer's pixels all lie in memory (spec 20_memory.md R75, spec 40_pipeline.md R144). -/
theorem fits_admitted {b : Buffer} {memBytes : Nat} (h : Fits b memBytes) : admitted b memBytes = true := by
  obtain ⟨hw, hh, hs, hl, -, hm⟩ := h
  obtain ⟨w, hw'⟩ : ∃ w, b.width = w + 1 := ⟨b.width - 1, by omega⟩
  obtain ⟨k, hk'⟩ : ∃ k, b.height = k + 1 := ⟨b.height - 1, by omega⟩
  obtain ⟨c, hc'⟩ : ∃ c, b.channels.count = c + 1 := by cases b.channels <;> exact ⟨_, rfl⟩
  have hb : 0 < b.cw.bytes := by cases b.cw <;> decide
  simp only [admitted, lastByte, bufAddr, decide_eq_true_eq, hw', hk', hc', Nat.add_sub_cancel] at hs hl ⊢
  have h1 : k * b.stride + w * (c + 1) + c + 1 ≤ b.len := by
    have e1 : b.stride * (k + 1) = k * b.stride + b.stride := by ring
    have e2 : (w + 1) * (c + 1) = w * (c + 1) + c + 1 := by ring
    omega
  have h2 := Nat.mul_le_mul_right b.cw.bytes h1
  have e3 : (k * b.stride + w * (c + 1) + c + 1) * b.cw.bytes
      = (k * b.stride + w * (c + 1) + c) * b.cw.bytes + b.cw.bytes := by ring
  omega

/-- Every command but HALT is VALIDATE's checks, then fault entry or the execution of its pass list: the command table is
what `exec` does (spec 40_pipeline.md R140, R150). -/
theorem exec_eq_table {i : Instr} (h : i ≠ .halt) (s : State) :
    exec i s = match checkOf i s.memBytes with
      | some t => .next (raiseTrap t s)
      | none => executePasses (coefOf i) (passesOf i) s := by
  cases i <;> first | exact absurd rfl h | rfl

/-- One operation after another: it goes on exactly when the first answers a next state that the second takes to one. -/
theorem andThen_eq_next {o : Host.Outcome State Fault Refusal} {f : State → Host.Outcome State Fault Refusal} {t : State} :
    andThen o f = .next t ↔ ∃ u, o = .next u ∧ f u = .next t := by
  cases o <;> simp [andThen]

/-- The test the host port makes is the use R306 speaks of. -/
theorem usesByte_eq_true {a : Nat} {s : State} : usesByte a s = true ↔ UsesByte a s := by
  unfold usesByte UsesByte
  cases s.nextCommand <;> simp

/-- The test the host port makes is the writing R306 speaks of. -/
theorem writesByte_eq_true {a : Nat} {s : State} : writesByte a s = true ↔ WritesByte a s := by
  unfold writesByte WritesByte
  cases s.nextCommand <;> simp

/-- One command of following the running list: it finds nothing exactly when the engine is out of RUN, or the command fails
the test and what the step leads to finds nothing. -/
theorem someCommand_succ_eq_false {test : State → Bool} {fuel : Nat} {s : State} :
    someCommand test (fuel + 1) s = false ↔
      (s.runState = .run → test s = false ∧ ∀ u, step s = .next u → someCommand test fuel u = false) := by
  rw [someCommand]
  cases s.runState <;> cases step s <;> simp

/-- If no command the running list reaches satisfies the test, and the list ends in time, following it finds nothing
(spec 70_reset_and_hazards.md R306; log 11). -/
theorem someCommand_eq_false_of_ends {test : State → Bool} {fuel : Nat} {s : State}
    (h : ∀ n t, ListReaches n s t → test t = false) (he : ∀ t, ¬ ListReaches fuel s t) :
    someCommand test (fuel + 1) s = false := by
  induction fuel generalizing s with
  | zero => exact someCommand_succ_eq_false.mpr fun hr => absurd ⟨hr, rfl⟩ (he s)
  | succ fuel ih =>
    exact someCommand_succ_eq_false.mpr fun hr => ⟨h 0 s ⟨hr, rfl⟩, fun u hu =>
      ih (fun n t ht => h (n + 1) t ⟨hr, u, hu, ht⟩) fun t ht => he t ⟨hr, u, hu, ht⟩⟩

/-- Where following the running list finds nothing, no command it reaches satisfies the test and the list ends in time. -/
theorem of_someCommand_eq_false {test : State → Bool} {fuel : Nat} {s : State} (h : someCommand test fuel s = false) :
    (∀ n t, ListReaches n s t → test t = false) ∧ ∀ t, ¬ ListReaches fuel s t := by
  induction fuel generalizing s with
  | zero => exact absurd h (by simp [someCommand])
  | succ fuel ih =>
    have h := someCommand_succ_eq_false.mp h
    refine ⟨fun n t ht => ?_, fun t ⟨hr, u, hu, ht⟩ => (ih ((h hr).2 u hu)).2 t ht⟩
    cases n with
    | zero => exact ht.2 ▸ (h ht.1).1
    | succ n =>
      obtain ⟨hr, u, hu, ht⟩ := ht
      exact (ih ((h hr).2 u hu)).1 n t ht

end Sys2Proof.Machine
end

