-- ==== Sys2Proof/Laws/PerInstr.lean ====
section
/-! SUPPORT. The per-instruction family of the encoding: the fixed bits of a command's first word are those of its row in
spec/opcode_table.json (spec 30_encoding.md R102, R107). -/

namespace Sys2Proof.Laws.TableRow

/-- The must-be-zero source bits of an in-place command, which the table's mask of FGAUSS and FGAUSSN covers (R107). -/
def inPlaceBits : Instr → Bool
  | .halt => true
  | .box _ _ _ => false
  | .tent _ _ _ => false
  | .gbox _ _ _ => false
  | .fgauss _ _ => true
  | .fgaussn _ _ => true
  | .gauss _ _ _ _ => false
  | .median _ _ _ => false

/-- The first word of a command has its row's opcode, zero reserved bits, and zero source bits where the row's
mask covers them. -/
def Statement (i : Instr) : Prop :=
  bits (encode i).w0 7 0 = i.opcode ∧ bits (encode i).w0 15 12 = 0 ∧
    (inPlaceBits i = true → bits (encode i).w0 9 8 = 0)

theorem channels_bit_lt (c : Channels) : c.bit < 2 := by cases c <;> decide

theorem compWidth_bit_lt (c : CompWidth) : c.bit < 2 := by cases c <;> decide

theorem cmdWord_fields (opcode : Nat) (src dst : Buffer) (param : Nat) (ho : opcode < 256) :
    bits (cmdWord opcode src dst param) 7 0 = opcode ∧ bits (cmdWord opcode src dst param) 15 12 = 0 := by
  have h1 := channels_bit_lt src.channels
  have h2 := compWidth_bit_lt src.cw
  have h3 := channels_bit_lt dst.channels
  have h4 := compWidth_bit_lt dst.cw
  simp only [bits, cmdWord, BitVec.toNat_ofNat]
  omega

theorem cmdWordInPlace_fields (opcode : Nat) (buf : Buffer) (param : Nat) (ho : opcode < 256) :
    bits (cmdWordInPlace opcode buf param) 7 0 = opcode ∧ bits (cmdWordInPlace opcode buf param) 15 12 = 0 ∧
      bits (cmdWordInPlace opcode buf param) 9 8 = 0 := by
  have h3 := channels_bit_lt buf.channels
  have h4 := compWidth_bit_lt buf.cw
  simp only [bits, cmdWordInPlace, BitVec.toNat_ofNat]
  omega

theorem two_buffer (opcode : Nat) (src dst : Buffer) (param sigma : Nat) (ho : opcode < 256) :
    bits (encodeTwo opcode src dst param sigma).w0 7 0 = opcode ∧ bits (encodeTwo opcode src dst param sigma).w0 15 12 = 0 :=
  cmdWord_fields opcode src dst param ho

theorem in_place (opcode : Nat) (buf : Buffer) (param : Nat) (ho : opcode < 256) :
    bits (encodeInPlace opcode buf param).w0 7 0 = opcode ∧ bits (encodeInPlace opcode buf param).w0 15 12 = 0 ∧
      bits (encodeInPlace opcode buf param).w0 9 8 = 0 :=
  cmdWordInPlace_fields opcode buf param ho

theorem halt : Statement .halt := by unfold Statement; decide

theorem box (src dst : Buffer) (r : Nat) : Statement (.box src dst r) := by
  exact ⟨(two_buffer 1 src dst r 0 (by decide)).1, (two_buffer 1 src dst r 0 (by decide)).2, nofun⟩

theorem tent (src dst : Buffer) (r : Nat) : Statement (.tent src dst r) := by
  exact ⟨(two_buffer 2 src dst r 0 (by decide)).1, (two_buffer 2 src dst r 0 (by decide)).2, nofun⟩

theorem gbox (src dst : Buffer) (r : Nat) : Statement (.gbox src dst r) := by
  exact ⟨(two_buffer 3 src dst r 0 (by decide)).1, (two_buffer 3 src dst r 0 (by decide)).2, nofun⟩

theorem fgauss (buf : Buffer) (r : Nat) : Statement (.fgauss buf r) := by
  have := in_place 4 buf r (by decide)
  exact ⟨this.1, this.2.1, fun _ => this.2.2⟩

theorem fgaussn (buf : Buffer) (r : Nat) : Statement (.fgaussn buf r) := by
  have := in_place 5 buf r (by decide)
  exact ⟨this.1, this.2.1, fun _ => this.2.2⟩

theorem gauss (src dst : Buffer) (k sigma : Nat) : Statement (.gauss src dst k sigma) := by
  exact ⟨(two_buffer 6 src dst k sigma (by decide)).1, (two_buffer 6 src dst k sigma (by decide)).2, nofun⟩

theorem median (src dst : Buffer) (r : Nat) : Statement (.median src dst r) := by
  exact ⟨(two_buffer 7 src dst r 0 (by decide)).1, (two_buffer 7 src dst r 0 (by decide)).2, nofun⟩

end Sys2Proof.Laws.TableRow
end

