-- ==== Sys2Proof/Laws/Pipeline.lean ====
section
/-! SUPPORT. The pipeline reduced to memory: what a line, a pass and a pass list leave, as functions of the memory before
them. The workers, the line sets and the issued writes come and go inside a pass. -/

namespace Sys2Proof.Machine

/-- The outputs of a line of a pass, as the line buffer holds them before the store. -/
def lineOutput (p : Pass) (coef : List Nat) (m : Memory) (line : Nat) : List (List Nat) :=
  match p with
  | .row f a b =>
    interleave a.width ((List.range a.channels.count).map fun ch =>
      (f.runOn coef a.cw.maxValue (channelOf (lineComponents (.row f a b) m line) ch)).out)
  | .col f b =>
    interleave b.height ((List.range b.channels.count).map fun ch =>
      (f.runOn coef b.cw.maxValue (channelOf (lineComponents (.col f b) m line) ch)).out)
  | .window r src _ =>
    interleave src.width ((List.range src.channels.count).map fun ch =>
      (medianRow src.cw (fun row col => sampleComponent src m row col ch) r line src.width).out)

/-- Memory after one line. -/
def lineMemory (p : Pass) (coef : List Nat) (m : Memory) (line : Nat) : Memory :=
  m.writeAll (lineWrites p line (lineOutput p coef m line))

/-- Memory after the lines of a pass in an order. -/
def linesMemory (order : List Nat) (p : Pass) (coef : List Nat) (m : Memory) : Memory :=
  order.foldl (lineMemory p coef) m

/-- Memory after a pass. -/
def passMemory (p : Pass) (coef : List Nat) (m : Memory) : Memory := linesMemory (List.range p.lines) p coef m

/-- Memory after a pass list. -/
def passesMemory (passes : List Pass) (coef : List Nat) (m : Memory) : Memory :=
  passes.foldl (fun m p => passMemory p coef m) m

/-- What a pass leaves alone: every register, parameter and COEF, and the number of workers. -/
structure LinesOnly (s t : State) : Prop where
  d : t.d = s.d
  cp : t.cp = s.cp
  runState : t.runState = s.runState
  err : t.err = s.err
  irqEn : t.irqEn = s.irqEn
  irqStat : t.irqStat = s.irqStat
  rst : t.rst = s.rst
  coef : t.coef = s.coef
  workers : t.workers.length = s.workers.length
  memBytes : t.memBytes = s.memBytes
  runStart : t.runStart = s.runStart
  runDone : t.runDone = s.runDone
  draws : t.draws = s.draws

theorem LinesOnly.refl (s : State) : LinesOnly s s := ⟨rfl, rfl, rfl, rfl, rfl, rfl, rfl, rfl, rfl, rfl, rfl, rfl, rfl⟩

theorem LinesOnly.trans {s t u : State} (h : LinesOnly s t) (k : LinesOnly t u) : LinesOnly s u :=
  ⟨k.d.trans h.d, k.cp.trans h.cp, k.runState.trans h.runState, k.err.trans h.err, k.irqEn.trans h.irqEn,
    k.irqStat.trans h.irqStat, k.rst.trans h.rst, k.coef.trans h.coef, k.workers.trans h.workers, k.memBytes.trans h.memBytes,
    k.runStart.trans h.runStart, k.runDone.trans h.runDone, k.draws.trans h.draws⟩

/-- The line buffer after load and compute holds the line's outputs. -/
theorem computed_lb (p : Pass) (line lane : Nat) (s : State) (h : lane < s.workers.length) :
    ((computeLine p line lane (loadLine p line lane s)).worker lane).lb = lineOutput p s.coef s.mem line := by
  have hw : ((loadLine p line lane s).worker lane).lb = match p with
      | .row f a b => lineComponents (.row f a b) s.mem line
      | .col f b => lineComponents (.col f b) s.mem line
      | .window _ _ _ => [] := by
    have := setWorker_worker_same s lane { s.worker lane with stage := .loaded line, lb := match p with
      | .row _ _ _ => lineComponents p s.mem line
      | .col _ _ => lineComponents p s.mem line
      | .window _ _ _ => [] } h
    cases p <;> simpa [loadLine, State.setWorker, State.worker] using congrArg Worker.lb this
  have hl : lane < (loadLine p line lane s).workers.length := by simpa using h
  unfold computeLine
  rw [setWorker_worker_same _ _ _ hl]
  cases p <;> simp only [runFilter, runMedian, hw, lineOutput, List.map_map, loadLine_coef, loadLine_mem] <;> rfl

theorem runLine_eq_drain (p : Pass) (s : State) (line : Nat) :
    runLine p s line = drainAll (storeLine p line (line % s.workers.length)
      (computeLine p line (line % s.workers.length) (loadLine p line (line % s.workers.length) s))) := rfl

theorem storeLine_pending (p : Pass) (line lane : Nat) (s : State) :
    (storeLine p line lane s).seq.pending = s.seq.pending ++ lineWrites p line (s.worker lane).lb := rfl

/-- Memory after one line on its worker, when no write is pending before it. -/
theorem runLine_mem (p : Pass) (s : State) (line : Nat) (hw : 0 < s.workers.length) (hp : s.seq.pending = []) :
    (runLine p s line).mem = lineMemory p s.coef s.mem line := by
  have hlane : line % s.workers.length < s.workers.length := Nat.mod_lt _ hw
  rw [runLine_eq_drain, drainAll_mem, storeLine_pending, storeLine_mem, computeLine_mem, loadLine_mem, computeLine_seq,
    loadLine_seq, hp, computed_lb p line _ s hlane]
  rfl

/-- One line leaves no write pending. -/
theorem runLine_pending (p : Pass) (s : State) (line : Nat) : (runLine p s line).seq.pending = [] := by
  simp [runLine]

theorem runLine_linesOnly (p : Pass) (s : State) (line : Nat) : LinesOnly s (runLine p s line) :=
  ⟨runLine_d p s line, runLine_cp p s line, runLine_runState p s line, runLine_err p s line, runLine_irqEn p s line,
    runLine_irqStat p s line, runLine_rst p s line, runLine_coef p s line, runLine_length p s line, runLine_memBytes p s line,
    runLine_runStart p s line, runLine_runDone p s line, runLine_draws p s line⟩

@[simp] theorem runLinesIn_cons (line : Nat) (order : List Nat) (p : Pass) (s : State) :
    runLinesIn (line :: order) p s = runLinesIn order p (runLine p s line) := List.foldl_cons

@[simp] theorem linesMemory_cons (line : Nat) (order : List Nat) (p : Pass) (coef : List Nat) (m : Memory) :
    linesMemory (line :: order) p coef m = linesMemory order p coef (lineMemory p coef m line) := List.foldl_cons

/-- The lines of a pass in any order. -/
theorem runLinesIn_spec (order : List Nat) (p : Pass) (s : State) (hw : 0 < s.workers.length)
    (hp : s.seq.pending = []) :
    LinesOnly s (runLinesIn order p s) ∧ (runLinesIn order p s).mem = linesMemory order p s.coef s.mem ∧
      (runLinesIn order p s).seq.pending = [] := by
  induction order generalizing s with
  | nil => exact ⟨LinesOnly.refl s, rfl, hp⟩
  | cons line order ih =>
    have h1 := runLine_linesOnly p s line
    obtain ⟨h2, h3, h4⟩ := ih (runLine p s line) (by rw [h1.workers]; exact hw) (runLine_pending p s line)
    rw [runLinesIn_cons, linesMemory_cons, h3, runLine_mem p s line hw hp, h1.coef]
    exact ⟨h1.trans h2, rfl, h4⟩

/-- What opening a pass answers (spec 40_pipeline.md R151): a next state exactly when both buffers lie in memory. -/
theorem openPass_eq_next {index : Nat} {p : Pass} {s t : State} :
    openPass index p s = .next t ↔
      admitted p.reads s.memBytes = true ∧ admitted p.writes s.memBytes = true ∧
        t = { s with seq := ⟨.execute, index, List.range p.lines, [], [], s.seq.pending⟩ } := by
  unfold openPass
  cases h1 : admitted p.reads s.memBytes <;> cases h2 : admitted p.writes s.memBytes <;> simp [eq_comm]

/-- A pass in any order of its lines, on buffers in memory: it answers a next state, with the memory its lines leave. -/
theorem runPassIn_spec (order : List Nat) (index : Nat) (p : Pass) (s : State) (hw : 0 < s.workers.length)
    (hp : s.seq.pending = []) (hr : admitted p.reads s.memBytes = true) (hd : admitted p.writes s.memBytes = true) :
    ∃ t, runPassIn order index p s = .next t ∧ LinesOnly s t ∧ t.mem = linesMemory order p s.coef s.mem ∧
      t.seq.pending = [] := by
  obtain ⟨h2, h3, h4⟩ := runLinesIn_spec order p
    { s with seq := ⟨.execute, index, List.range p.lines, [], [], s.seq.pending⟩ } hw hp
  refine ⟨barrier (runLinesIn order p { s with seq := ⟨.execute, index, List.range p.lines, [], [], s.seq.pending⟩ }),
    andThen_eq_next.mpr ⟨_, openPass_eq_next.mpr ⟨hr, hd, rfl⟩, rfl⟩,
    ⟨h2.d, h2.cp, h2.runState, h2.err, h2.irqEn, h2.irqStat, h2.rst, h2.coef, h2.workers, h2.memBytes, h2.runStart,
      h2.runDone, h2.draws⟩,
    ?_, by simp⟩
  rw [barrier_mem, drainAll_mem, h4, writeAll_nil, h3]

/-- A pass list on buffers in memory: it answers a next state, with the memory its passes leave. -/
theorem runPasses_spec (passes : List Pass) (index : Nat) (s : State) (hw : 0 < s.workers.length)
    (hp : s.seq.pending = [])
    (ha : ∀ p ∈ passes, admitted p.reads s.memBytes = true ∧ admitted p.writes s.memBytes = true) :
    ∃ t, runPasses index passes s = .next t ∧ LinesOnly s t ∧ t.mem = passesMemory passes s.coef s.mem := by
  induction passes generalizing index s with
  | nil => exact ⟨s, rfl, LinesOnly.refl s, rfl⟩
  | cons p rest ih =>
    obtain ⟨u, hu, h1, h2, h3⟩ := runPassIn_spec (List.range p.lines) index p s hw hp (ha p (by simp)).1 (ha p (by simp)).2
    obtain ⟨t, ht, h4, h5⟩ := ih (index + 1) u (by rw [h1.workers]; exact hw) h3
      (fun q hq => by rw [h1.memBytes]; exact ha q (by simp [hq]))
    exact ⟨t, andThen_eq_next.mpr ⟨u, hu, ht⟩, h1.trans h4, by rw [h5, h1.coef, h2]; rfl⟩

theorem map_idle_eq {ws ws' : List Worker} (h : ws.length = ws'.length) :
    (ws.map fun _ => Worker.idle) = ws'.map fun _ => Worker.idle := by
  simp [List.map_const', h]

/-- EXECUTE and COMPLETE of a pass list whose buffers lie in memory, in full: the next state differs from COMPLETE's only in
memory. -/
theorem executePasses_eq (coef : List Nat) (passes : List Pass) (s : State) (hw : 0 < s.workers.length)
    (hp : s.seq.pending = [])
    (ha : ∀ p ∈ passes, admitted p.reads s.memBytes = true ∧ admitted p.writes s.memBytes = true) :
    executePasses coef passes s = .next { completeCommand s with mem := passesMemory passes coef s.mem } := by
  obtain ⟨t, ht, h1, h2⟩ := runPasses_spec passes 0 { s with coef := coef } hw hp ha
  unfold executePasses
  rw [ht]
  show Host.Outcome.next (completeCommand t) = _
  congr 1
  have hws := map_idle_eq h1.workers
  have e1 := h1.d
  have e2 := h1.cp
  have e3 := h1.runState
  have e4 := h1.err
  have e5 := h1.irqEn
  have e6 := h1.irqStat
  have e7 := h1.memBytes
  have e8 := h1.runStart
  have e9 := h1.draws
  have e10 := h1.runDone
  have e11 := h1.rst
  obtain ⟨⟩ := t
  simp only at e1 e2 e3 e4 e5 e6 e7 e8 e9 e10 e11 h2 hws
  subst e1 e2 e3 e4 e5 e6 e7 e8 e9 e10 e11 h2
  simp only [completeCommand, hws]

/-- Every pass of every command is on buffers the command names. -/
theorem passesOf_buffers {i : Instr} {p : Pass} (h : p ∈ passesOf i) : p.reads ∈ buffersOf i ∧ p.writes ∈ buffersOf i := by
  cases i <;>
    simp only [passesOf, boxPasses, tentPasses, gboxPasses, fgaussPasses, fgaussnPasses, gaussPasses, medianPasses,
      boxFromSource, boxAgain, List.cons_append, List.nil_append, List.mem_cons, List.not_mem_nil, or_false] at h <;>
    (try rcases h with rfl | rfl | rfl | rfl | rfl | rfl) <;> simp_all [Pass.reads, Pass.writes, buffersOf]

/-- A command VALIDATE passes has legal buffers. -/
theorem checkOf_eq_none {i : Instr} {memBytes : Nat} (h : checkOf i memBytes = none) :
    ∀ b ∈ buffersOf i, Fits b memBytes := by
  cases i <;>
    simp only [checkOf, checkTwoBuffers, checkInPlace, checkGauss, Option.or_eq_none_iff, checkSource_eq_none,
      checkDest_eq_none] at h <;>
    simp only [buffersOf, List.mem_cons, List.not_mem_nil, or_false, forall_eq_or_imp, forall_eq, false_implies,
      implies_true]
  all_goals first | exact h | exact h.1

/-- A filter command that VALIDATE passes, in full: it answers a next state, the one of COMPLETE with the memory its passes
leave (spec 40_pipeline.md R155, spec 60_exceptions.md R271). -/
theorem exec_completes {i : Instr} (hi : i ≠ .halt) (s : State) (hw : 0 < s.workers.length) (hp : s.seq.pending = [])
    (hc : checkOf i s.memBytes = none) :
    exec i s = .next { completeCommand s with mem := passesMemory (passesOf i) (coefOf i) s.mem } := by
  rw [exec_eq_table hi, hc]
  exact executePasses_eq _ _ s hw hp fun p hp' =>
    ⟨fits_admitted (checkOf_eq_none hc _ (passesOf_buffers hp').1),
      fits_admitted (checkOf_eq_none hc _ (passesOf_buffers hp').2)⟩

/-- A filter command that VALIDATE does not pass takes the fault VALIDATE found, and nothing else (R269). -/
theorem exec_traps {i : Instr} (hi : i ≠ .halt) (s : State) {t : Trap} (hc : checkOf i s.memBytes = some t) :
    exec i s = .next (raiseTrap t s) := by
  rw [exec_eq_table hi, hc]

/-- Memory operations keep the canonical form: lines, passes and pass lists. -/
theorem lineMemory_wf {m : Memory} (hm : m.wf) (p : Pass) (coef : List Nat) (line : Nat) :
    Memory.wf (lineMemory p coef m line) := writeAll_wf hm _

theorem linesMemory_wf {m : Memory} (hm : m.wf) (order : List Nat) (p : Pass) (coef : List Nat) :
    Memory.wf (linesMemory order p coef m) := by
  induction order generalizing m with
  | nil => exact hm
  | cons line order ih => exact ih (lineMemory_wf hm p coef line)

theorem passesMemory_wf {m : Memory} (hm : m.wf) (passes : List Pass) (coef : List Nat) :
    Memory.wf (passesMemory passes coef m) := by
  induction passes generalizing m with
  | nil => exact hm
  | cons p rest ih => exact ih (linesMemory_wf hm _ p coef)

end Sys2Proof.Machine
end

