-- ==== Sys2Proof/Tests/Slice0.lean ====
section
/-! SUPPORT. Our own tests: ill-formed terms, decoding of words written out from the spec's encoding, at most two vectors of
spec/95_test_vectors.md per command, the register port, and for every statement with hypotheses a witness that meets them. -/

namespace Sys2Proof.Tests

open Sys2Proof.Machine

/-! ### Helpers -/

/-- An engine in RUN at CP 0x100 with a descriptor there and bytes placed elsewhere; memory of 0x10000 bytes. -/
def started (d : Desc) (data : List (Nat × List Nat)) : State :=
  acceptStart
    { State.reset with
      cp := 0x100#32
      mem := Memory.writeAll
        (data.foldl (fun m p => Memory.writeAll m (p.2.mapIdx fun k b => (p.1 + k, BitVec.ofNat 8 b))) [])
        (d.bytes.mapIdx fun k b => (0x100 + k, b)) }

/-- The outcome is a next state that passes the test. -/
def goesOn (o : Host.Outcome State Fault Refusal) (p : State → Bool) : Bool :=
  match o with
  | .next t => p t
  | .fault _ => false
  | .refused _ => false

theorem goesOn_next {o : Host.Outcome State Fault Refusal} {p : State → Bool} (h : goesOn o p = true) :
    ∃ t, o = .next t ∧ p t = true := by
  cases o with
  | next t => exact ⟨t, rfl, h⟩
  | fault _ => cases h
  | refused _ => cases h

/-- One step leaves these bytes at an address, having completed a filter command. -/
def leaves (s : State) (a : Nat) (bytes : List Nat) : Bool :=
  goesOn (step s) fun t =>
    (t.mem.bytesAt a bytes.length).map (·.toNat) == bytes && t.cp == 0x128#32 && t.runState == .run && t.err == 0#32

/-- One step ends in FAULTED with this ERR, CP at the descriptor and memory as it was. -/
def faultsWith (s : State) (err : Word) : Bool :=
  goesOn (step s) fun t =>
    t.err == err && t.runState == .faulted && t.cp == s.cp && t.mem == s.mem && t.irqStat == 2#32

/-- A descriptor of two 8-bit, 3-channel buffers of 3 by 3 pixels: the base case of V8. -/
def baseDesc : Desc := ⟨0x00010001#32, 0x00002000#32, 0x00000009#32, 0x0000001B#32, 0x00030003#32, 0x00003000#32,
  0x00000009#32, 0x0000001B#32, 0x00030003#32, 0x00000000#32⟩

/-- Small buffers: 2 by 1 pixels, 8-bit, 3 channels. -/
def bufAt (base : Nat) : Buffer := ⟨base, 6, 6, 2, 1, .c3, .u8⟩

/-- One pixel, 8-bit, 3 channels. -/
def dotAt (base : Nat) : Buffer := ⟨base, 3, 3, 1, 1, .c3, .u8⟩

/-- One pixel, 16-bit, 4 channels. -/
def wideDotAt (base : Nat) : Buffer := ⟨base, 4, 4, 1, 1, .c4, .u16⟩

/-- An engine in RUN at CP 0x100 with a command there. -/
def running (i : Instr) : State := started (encode i) []

/-! ### Well-formedness: one ill-formed term per check -/

theorem test_wf_base : Instr.wf (.fgauss { bufAt 0 with base := 4294967296 } 0) = false := by decide
theorem test_wf_stride : Instr.wf (.fgaussn { bufAt 0 with stride := 4294967296 } 0) = false := by decide
theorem test_wf_len : Instr.wf (.box { bufAt 0 with len := 4294967296 } (bufAt 0) 0) = false := by decide
theorem test_wf_width : Instr.wf (.tent (bufAt 0) { bufAt 0 with width := 65536 } 0) = false := by decide
theorem test_wf_height : Instr.wf (.gbox { bufAt 0 with height := 65536 } (bufAt 0) 0) = false := by decide
theorem test_wf_param : Instr.wf (.median (bufAt 0) (bufAt 0) 65536) = false := by decide
theorem test_wf_kernel_size : Instr.wf (.gauss (bufAt 0) (bufAt 0) 65536 1) = false := by decide
theorem test_wf_sigma : Instr.wf (.gauss (bufAt 0) (bufAt 0) 3 4294967296) = false := by decide

/-! ### Decoding: words written out from spec/30_encoding.md and the descriptors of spec/95_test_vectors.md -/

theorem test_decode_halt :
    decode ⟨0#32, 0#32, 0#32, 0x4D#32, 0#32, 0#32, 0#32, 0#32, 0#32, 0xFFFFFFFF#32⟩ = .ok .halt := by rfl

/-- Program P1. -/
theorem test_decode_box :
    decode ⟨0x00010001#32, 0x1000#32, 0xF#32, 0x4B#32, 0x00050005#32, 0x2000#32, 0xF#32, 0x4B#32, 0x00050005#32, 0#32⟩ =
      .ok (.box ⟨0x1000, 15, 75, 5, 5, .c3, .u8⟩ ⟨0x2000, 15, 75, 5, 5, .c3, .u8⟩ 1) := by rfl

/-- Program P3: four channels, width 4 and height 3. -/
theorem test_decode_tent :
    decode ⟨0x00010502#32, 0x1000#32, 0x10#32, 0x30#32, 0x00030004#32, 0x2000#32, 0x10#32, 0x30#32, 0x00030004#32, 0#32⟩ =
      .ok (.tent ⟨0x1000, 16, 48, 4, 3, .c4, .u8⟩ ⟨0x2000, 16, 48, 4, 3, .c4, .u8⟩ 1) := by rfl

/-- Bits 11:8 one at a time are told apart: SRC_CH and DST_CW set, SRC_CW and DST_CH clear. -/
theorem test_decode_gbox :
    decode ⟨0xFFFF0903#32, 1#32, 2#32, 3#32, 0x00040005#32, 6#32, 7#32, 8#32, 0x0009000A#32, 0#32⟩ =
      .ok (.gbox ⟨1, 2, 3, 5, 4, .c4, .u8⟩ ⟨6, 7, 8, 10, 9, .c3, .u16⟩ 65535) := by rfl

/-- Program P4. -/
theorem test_decode_fgauss :
    decode ⟨0x00010C04#32, 0#32, 0#32, 0#32, 0#32, 0x1000#32, 0xA#32, 0x14#32, 0x00020002#32, 0#32⟩ =
      .ok (.fgauss ⟨0x1000, 10, 20, 2, 2, .c4, .u16⟩ 1) := by rfl

theorem test_decode_fgaussn :
    decode ⟨0x00010005#32, 0#32, 0#32, 0#32, 0#32, 0x1000#32, 0xF#32, 0xF#32, 0x00010005#32, 0#32⟩ =
      .ok (.fgaussn ⟨0x1000, 15, 15, 5, 1, .c3, .u8⟩ 1) := by rfl

theorem test_decode_gauss :
    decode ⟨0x00050A06#32, 0x1000#32, 0xF#32, 0xF#32, 0x00010005#32, 0x2000#32, 0xF#32, 0xF#32, 0x00010005#32,
        0x00018000#32⟩ =
      .ok (.gauss ⟨0x1000, 15, 15, 5, 1, .c3, .u16⟩ ⟨0x2000, 15, 15, 5, 1, .c3, .u16⟩ 5 0x18000) := by rfl

theorem test_decode_median :
    decode ⟨0x00020F07#32, 0x1000#32, 0xA#32, 0x14#32, 0x00020002#32, 0x2000#32, 0xA#32, 0x14#32, 0x00020002#32, 0#32⟩ =
      .ok (.median ⟨0x1000, 10, 20, 2, 2, .c4, .u16⟩ ⟨0x2000, 10, 20, 2, 2, .c4, .u16⟩ 2) := by rfl

/-- Rows 2, 5, 7, 9 and 12 of V8: each clause of R108. -/
theorem test_decode_illegal :
    decode { baseDesc with w0 := 0x00010008#32 } = .error .opcode ∧
    decode { baseDesc with w0 := 0x00018001#32 } = .error .reservedBits ∧
    decode { Desc.zero with w0 := 0x00000100#32 } = .error .reservedBits ∧
    decode { baseDesc with w9 := 1#32 } = .error .mustBeZero ∧
    decode { baseDesc with w0 := 0x00010204#32, w1 := 0#32, w2 := 0#32, w3 := 0#32, w4 := 0#32 } = .error .mustBeZero :=
  ⟨rfl, rfl, rfl, rfl, rfl⟩

/-- The table's numbering: bit 0 is the least bit of W0, the words above `nbits` are zero. -/
theorem test_table_word : decodeTableWord 32 0x00010001 = some (.box ⟨0, 0, 0, 0, 0, .c3, .u8⟩ ⟨0, 0, 0, 0, 0, .c3, .u8⟩ 1) ∧
    decodeTableWord 32 8 = none := by decide +kernel

theorem test_fetch_word : goesOn (step (State.reset.withFetchWord 32 0)) (fun t => t.runState == .halted) = true := by
  decide +kernel

/-! ### Commands: vectors of spec/95_test_vectors.md -/

/-- V7, HALT. -/
theorem test_halt : goesOn (step (running .halt)) (fun t =>
    t.runState == .halted && t.cp == 0x100#32 && t.err == 0#32 && t.irqStat == 1#32 && t.mem == []) = true := by
  decide +kernel

/-- V7, FGAUSSN on 5 by 1. -/
theorem test_fgaussn : leaves
    (started ⟨0x00010005#32, 0#32, 0#32, 0#32, 0#32, 0x1000#32, 0xF#32, 0xF#32, 0x00010005#32, 0#32⟩
      [(0x1000, [0, 0, 0xC8, 0, 0x0A, 0xC8, 0xFF, 0x14, 0xC8, 0, 0x1E, 0xC8, 0, 0x28, 0xC8])])
    0x1000 [0x1C, 4, 0xC8, 0x39, 0x0B, 0xC8, 0x55, 0x14, 0xC8, 0x39, 0x1D, 0xC8, 0x1C, 0x24, 0xC8] = true := by
  decide +kernel

/-- V7, BOX with `r = 1` on 3 by 2. -/
theorem test_box : leaves
    (started ⟨0x00010001#32, 0x1000#32, 9#32, 0x12#32, 0x00020003#32, 0x2000#32, 9#32, 0x12#32, 0x00020003#32, 0#32⟩
      [(0x1000, [0, 0x0A, 0xFF, 0x5A, 0x14, 0xFF, 0xFF, 0x1E, 0, 0x1E, 0x28, 0, 0x3C, 0x32, 0, 0, 0x3C, 0])])
    0x2000 [0x21, 0x17, 0xAA, 0x57, 0x1E, 0x71, 0x8C, 0x25, 0x39, 0x25, 0x21, 0x55, 0x3A, 0x28, 0x39, 0x50, 0x2F, 0x1C]
      = true := by
  decide +kernel

/-- TENT on one row: V3 row 2 (`BoxLine_1` twice on `10 20 30`) and S2's row `0 255 0`; the column passes are the identity. -/
theorem test_tent : leaves
    (started ⟨0x00010002#32, 0x1000#32, 9#32, 9#32, 0x00010003#32, 0x2000#32, 9#32, 9#32, 0x00010003#32, 0#32⟩
      [(0x1000, [10, 0, 0, 20, 255, 0, 30, 0, 0])])
    0x2000 [15, 85, 0, 20, 85, 0, 25, 85, 0] = true := by
  decide +kernel

/-- The same source through GBOX: `15 20 25` becomes `17 20 23` (`(15+15+20+1) div 3`, `(20+25+25+1) div 3`). -/
theorem test_gbox : leaves
    (started ⟨0x00010003#32, 0x1000#32, 9#32, 9#32, 0x00010003#32, 0x2000#32, 9#32, 9#32, 0x00010003#32, 0#32⟩
      [(0x1000, [10, 0, 0, 20, 255, 0, 30, 0, 0])])
    0x2000 [17, 85, 0, 20, 85, 0, 23, 85, 0] = true := by
  decide +kernel

/-- P4, FGAUSS on 2 by 2, 16-bit, 4 channels, the padding kept. -/
theorem test_fgauss : leaves
    (started ⟨0x00010C04#32, 0#32, 0#32, 0#32, 0#32, 0x1000#32, 0xA#32, 0x14#32, 0x00020002#32, 0#32⟩
      [(0x1000, [0, 0, 0xFF, 0xFF, 0xE8, 3, 0xFF, 0xFF, 0x30, 0x75, 0, 0, 0xE9, 3, 0xFF, 0xFF, 0xAB, 0xAB, 0xAB, 0xAB,
        0x60, 0xEA, 0, 0, 0xEA, 3, 0, 0, 3, 0, 3, 0, 0xEB, 3, 0xFF, 0xFF, 0xAB, 0xAB, 0xAB, 0xAB])])
    0x1000 [0x20, 0x4E, 0xC7, 0x71, 0xE9, 3, 0x1C, 0xC7, 0x21, 0x4E, 0xE4, 0x38, 0xEA, 3, 0x8D, 0xE3, 0xAB, 0xAB, 0xAB,
      0xAB, 0x31, 0x75, 0xE4, 0x38, 0xE9, 3, 0x38, 0x8E, 0x21, 0x4E, 0x73, 0x1C, 0xEA, 3, 0x1C, 0xC7, 0xAB, 0xAB, 0xAB,
      0xAB] = true := by
  decide +kernel

/-- V7, GAUSS on 5 by 1, 16-bit, `K = 5`, sigma 1.5. -/
theorem test_gauss : leaves
    (started ⟨0x00050A06#32, 0x1000#32, 0xF#32, 0xF#32, 0x00010005#32, 0x2000#32, 0xF#32, 0xF#32, 0x00010005#32,
        0x00018000#32⟩
      [(0x1000, [0, 0, 0, 0, 0xFF, 0xFF, 0, 0, 0xE8, 3, 0xFF, 0xFF, 0xFF, 0xFF, 0xD0, 7, 0xFF, 0xFF, 0, 0, 0xB8, 0x0B,
        0xFF, 0xFF, 0, 0, 0xA0, 0x0F, 0xFF, 0xFF])])
    0x2000 [0xBD, 0x1E, 0xDA, 1, 0xFF, 0xFF, 0xE0, 0x3B, 0x60, 4, 0xFF, 0xFF, 0xC6, 0x4A, 0xD0, 7, 0xFF, 0xFF, 0xE0, 0x3B,
      0x40, 0x0B, 0xFF, 0xFF, 0xBD, 0x1E, 0xC6, 0x0D, 0xFF, 0xFF] = true := by
  decide +kernel

/-- V7, MEDIAN on 5 by 1. -/
theorem test_median : leaves
    (started ⟨0x00010007#32, 0x1000#32, 0xF#32, 0xF#32, 0x00010005#32, 0x2000#32, 0xF#32, 0xF#32, 0x00010005#32, 0#32⟩
      [(0x1000, [5, 0xFA, 0, 0xC8, 0x37, 1, 7, 0xF8, 2, 9, 0xF6, 3, 0, 0xFF, 4])])
    0x2000 [5, 0xFA, 0, 7, 0xF8, 1, 9, 0xF6, 2, 7, 0xF8, 3, 0, 0xFF, 4] = true := by
  decide +kernel

/-- V6's coarse-to-fine trace: the 2 by 2 image `0 30000 / 60000 3`, output (0, 0). -/
theorem test_median_coarse_to_fine :
    (medianRow .u16 (fun row col => ([[0, 30000], [60000, 3]].getD (clamp row 2) []).getD (clamp col 2) 0) 1 0 1).out =
      [3] := by
  decide +kernel

/-! ### Line functions and kernels -/

/-- V2 rows 6, 7, 8 and 15. -/
theorem test_box_line :
    (boxRun 5 [0, 90, 255]).out = [101, 124, 147] ∧ (boxRun 1 [0, 65535, 0]).out = [21845, 21845, 21845] ∧
      (boxRun 1 [0, 1, 0, 1, 0, 1]).out = [0, 0, 1, 0, 1, 1] := by
  decide +kernel

/-- V3 rows 5 and 6. -/
theorem test_tent2_line :
    (tent2Run 1 [0, 65535, 0]).out = [14563, 21845, 14563] ∧
      (tent2Run 2 [0, 0, 0, 0, 65535, 0, 0, 0, 0]).out = [2621, 5243, 7864, 10486, 13107, 10486, 7864, 5243, 2621] := by
  decide +kernel

/-- V5 row 9, with the kernel of V4. -/
theorem test_fir_line : (firRun [6980, 51576, 6980] 255 [0, 0, 0, 255, 255, 255]).out = [0, 0, 27, 228, 255, 255] := by
  decide +kernel

/-- Rows of V4, each rounding decided by the enclosures. -/
theorem test_kernels :
    gkeCoef 3 0x10000 = [17961, 29614, 17961] ∧ gkeCoef 7 0x20000 = [4598, 8590, 12499, 14162, 12499, 8590, 4598] ∧
      gkeCoef 9 0x4000 = [0, 0, 0, 22, 65492, 22, 0, 0, 0] ∧ gkeCoef 3 0xFFFFFFFF = [21845, 21846, 21845] ∧
      kernelDecided 7 0x20000 = true := by
  decide +kernel

/-! ### Faults and the register port -/

/-- V8 rows 3, 17, 25, 29, 38, 42 and 48. -/
theorem test_faults :
    faultsWith (started { baseDesc with w0 := 0x000100FF#32 } []) 0x105#32 = true ∧
    faultsWith (started { baseDesc with w2 := 8#32 } []) 0x201#32 = true ∧
    faultsWith (started { baseDesc with w7 := 0x1A#32 } []) 0x1301#32 = true ∧
    faultsWith (started { baseDesc with w0 := 0x00040006#32, w9 := 0x10000#32 } []) 0x102#32 = true ∧
    faultsWith (started { baseDesc with w0 := 0x00010401#32, w6 := 0xC#32, w7 := 0x24#32 } []) 0x303#32 = true ∧
    faultsWith (started { baseDesc with w1 := 0x3000#32, w5 := 0x301A#32 } []) 4#32 = true ∧
    faultsWith { running .halt with cp := 0xFFDC#32 } 0x106#32 = true := by
  decide +kernel

/-- V9 rows 1, 3, 4, 6, 10 and 11. -/
theorem test_registers :
    (regRead 0 4 .reset).value = 0x53464501#32 ∧ (regRead 0x0C 4 (regWrite 0x0C 4 0x103#32 .reset)).value = 0x100#32 ∧
    (regRead 0x14 4 (regWrite 0x14 4 0xFFFFFFFF#32 .reset)).value = 3#32 ∧
    (regRead 8 4 (regWrite 4 4 2#32 .reset)).value = 0#32 ∧
    (regRead 0x18 4 (regWrite 0x18 4 2#32 { State.reset with irqStat := 1#32 })).value = 1#32 ∧
    (regWrite 0x14 4 2#32 { State.reset with irqStat := 1#32, irqEn := 1#32 }).irq = false ∧
    ({ State.reset with irqStat := 1#32, irqEn := 1#32 } : State).irq = true := by
  decide

/-- R300: a START and an IRQ_EN write while `rst` is high are lost; after `rst` goes low a START runs. -/
theorem test_reset_hold :
    (regWrite 4 4 1#32 (assertReset (running .halt))).runState = .idle ∧
    (releaseReset (regWrite 0x14 4 3#32 (assertReset (running .halt)))).irqEn = 0#32 ∧
    (regWrite 4 4 1#32 (hardReset (running .halt))).runState = .run := by
  decide +kernel

/-! ### Witnesses: states and operands that meet the hypotheses of the statements, at the ends of their ranges -/

theorem test_witness_DecodeInvertsEncode :
    ∀ i ∈ [Instr.halt, .box (bufAt 0xFFFFFFFF) (bufAt 0) 0xFFFF, .tent (bufAt 0) (bufAt 0) 0, .gbox (bufAt 0) (bufAt 0) 0,
      .fgauss { bufAt 0 with stride := 0xFFFFFFFF, len := 0xFFFFFFFF } 1, .fgaussn { bufAt 0 with width := 0xFFFF } 1,
      .gauss (bufAt 0) { bufAt 0 with height := 0xFFFF } 0xFFFF 0xFFFFFFFF, .median (bufAt 0) (bufAt 0) 0],
      i.wf = true := by
  decide

theorem test_witness_OnlyHaltIgnoresWords :
    ({ baseDesc with w0 := 0#32 } : Desc).w0 = 0#32 ∧ decode baseDesc = .ok (.box ⟨0x2000, 9, 27, 3, 3, .c3, .u8⟩
      ⟨0x3000, 9, 27, 3, 3, .c3, .u8⟩ 1) ∧ (∃ t, fetch { State.reset with cp := 0xFFD8#32 } = .ok t) :=
  ⟨rfl, rfl, _, rfl⟩

/-- Each clause: opcodes 8 and 255; the reserved bits and HALT's format bits; W9 and a source word; what is left. -/
theorem test_witness_IllegalDescriptorsFault :
    ([{ baseDesc with w0 := 0x00010008#32 }, { baseDesc with w0 := 0x00018007#32 }, { Desc.zero with w0 := 0x00000100#32 },
      { baseDesc with w0 := 0x00010007#32, w9 := 1#32 }, { baseDesc with w0 := 0x00030006#32, w9 := 1#32 }].all fun d =>
      (started d []).runState == .run && (started d []).mem.readDesc 0x100 == d &&
        decide ((started d []).cp.toNat + 40 ≤ (started d []).memBytes)) = true ∧
    7 < Desc.opcode { baseDesc with w0 := 0x00010008#32 } ∧ 7 < Desc.opcode { baseDesc with w0 := 0x000100FF#32 } ∧
    (let d : Desc := { baseDesc with w0 := 0x00018007#32 };
      d.opcode ≤ 7 ∧ d.reserved ≠ 0) ∧
    (let d : Desc := { Desc.zero with w0 := 0x00000100#32 };
      d.opcode ≤ 7 ∧ d.opcode = 0 ∧ bits d.w0 31 8 ≠ 0) ∧
    (let d : Desc := { baseDesc with w0 := 0x00010007#32, w9 := 1#32 };
      d.opcode ≤ 7 ∧ d.reserved = 0 ∧ d.opcode ≠ 0 ∧ d.opcode ≠ 6 ∧ d.w9 ≠ 0#32) ∧
    (let d : Desc := { Desc.zero with w0 := 0x00010205#32 };
      d.opcode ≤ 7 ∧ d.reserved = 0 ∧ d.opcode ≠ 0 ∧ d.opcode ≠ 6 ∧ d.opcode = 5 ∧ bits d.w0 9 8 ≠ 0) ∧
    (let d : Desc := { baseDesc with w0 := 0x00030006#32, w9 := 1#32 };
      d.opcode ≤ 7 ∧ d.reserved = 0 ∧ d.opcode = 6) := by
  decide +kernel

theorem test_witness_MemWriteThenRead :
    Memory.wf [(3, 1#8), (9, 255#8)] ∧ (∀ n ∈ [1, 2, 4], 0 < 256 ^ n ∧ 256 ^ n - 1 < 256 ^ n) := by decide

theorem test_witness_StepRunsCommandAtCp :
    let s := { running (.box (dotAt 0x200) (dotAt 0x300) 1) with memBytes := 0x128 }
    s.runState = .run ∧ s.cp.toNat + 40 ≤ s.memBytes ∧
      decode (s.mem.readDesc s.cp.toNat) = .ok (.box (dotAt 0x200) (dotAt 0x300) 1) :=
  ⟨rfl, by decide +kernel, rfl⟩

theorem test_witness_StoppedEngineIdles : State.reset.runState ≠ .run := by decide

theorem test_witness_FetchOutsideMemoryFaults :
    let s : State := { State.reset with cp := 0xFFDC#32, runState := .run }
    let u : State := { State.reset with cp := 0xFFD8#32, runState := .run }
    s.runState = .run ∧ s.memBytes < s.cp.toNat + 40 ∧ u.cp.toNat + 40 ≤ u.memBytes := by
  decide

/-- A state a command finds, used below. -/
theorem test_witness_Ready : ∀ i ∈ [Instr.halt, .box (dotAt 0x200) (dotAt 0x300) 1], Ready (running i) := by decide +kernel

/-- BoxCompletes, TentCompletes, GboxCompletes, MedianCompletes, RadiusZeroIsIdentity: buffers side by side, the second
ending with memory, and a 16-bit pair. -/
theorem test_witness_LegalPair :
    Ready (running .halt) ∧
    LegalPair (bufAt 0xFFF4) (bufAt 0xFFFA) (running .halt).memBytes ∧
    LegalPair (wideDotAt 0xFFF8) (wideDotAt 0) (running .halt).memBytes ∧
    LegalPair (bufAt 0xFFFA) { bufAt 0 with stride := 7, len := 9 } (running .halt).memBytes :=
  ⟨by decide +kernel, by decide, by decide, by decide⟩

/-- FgaussCompletes, FgaussnCompletes, RadiusZeroIsIdentity: a buffer that ends with memory, also in a memory of 40 bytes. -/
theorem test_witness_Fits :
    (let s := running .halt;
      Ready s ∧ Fits (bufAt 0xFFFA) s.memBytes) ∧
    (let s := { running .halt with memBytes := 40 };
      Ready s ∧ Fits (wideDotAt 32) s.memBytes) := by
  decide +kernel

/-- GaussCompletes, KernelContract: both ends of the kernel sizes and of sigma. -/
theorem test_witness_LegalKernel :
    Ready (running .halt) ∧ LegalPair (bufAt 0xFFF4) (bufAt 0xFFFA) (running .halt).memBytes ∧ LegalKernel 1 1 ∧
      LegalKernel 255 0xFFFFFFFF := by
  decide +kernel

/-- GeometryFaults: each check at its boundary. -/
theorem test_witness_GeometryFaults :
    GeometryFails { bufAt 0 with width := 0 } 0x10000 1 ∧ GeometryFails { bufAt 0 with height := 0 } 0x10000 1 ∧
    GeometryFails { bufAt 0 with stride := 5 } 0x10000 2 ∧ GeometryFails { bufAt 0 with len := 5 } 0x10000 3 ∧
    GeometryFails (wideDotAt 1) 0x10000 4 ∧ GeometryFails (bufAt 0xFFFB) 0x10000 5 ∧
    TwoBuffer (bufAt 0) (bufAt 6) (.gauss (bufAt 0) (bufAt 6) 3 1) ∧ InPlace (bufAt 0) (.fgaussn (bufAt 0) 0) ∧
    Fits (bufAt 0xFFFA) 0x10000 ∧ InBounds (bufAt 0xFFFA) 0 1 2 := by
  refine ⟨?_, ?_, ?_, ?_, ?_, ?_, .inr (.inr (.inr (.inl ⟨3, 1, rfl⟩))), .inr ⟨0, rfl⟩, by decide, by decide⟩ <;>
    simp only [GeometryFails] <;> decide

/-- ParameterFaults: `K = 0`, `K = 256`, `sigma = 0`, `K = 257`; a legal pair and a legal buffer. -/
theorem test_witness_ParameterFaults :
    Ready State.reset ∧ State.reset.memBytes = 0x10000 ∧ LegalPair (bufAt 0) (bufAt 6) 0x10000 ∧ Fits (bufAt 0) 0x10000 ∧ Fits (bufAt 6) 0x10000 ∧ 0 % 2 = 0 ∧ 256 % 2 = 0 ∧ 255 % 2 = 1 ∧ 257 % 2 = 1 ∧ 255 < 257 := by
  decide

/-- SizeMismatchFaults: each clause, the parameter check passed at its ends. -/
theorem test_witness_SizeMismatchFaults :
    ParameterOk (.gauss (bufAt 0) (bufAt 6) 1 1) ∧ ParameterOk (.gauss (bufAt 0) (bufAt 6) 255 1) ∧ Ready State.reset ∧
    Fits (bufAt 0) 0x10000 ∧ Fits (dotAt 6) 0x10000 ∧ (bufAt 0).width ≠ (dotAt 6).width ∧
    Fits (⟨6, 6, 12, 2, 2, .c3, .u8⟩ : Buffer) 0x10000 ∧ Fits (⟨6, 8, 8, 2, 1, .c4, .u8⟩ : Buffer) 0x10000 ∧
    Fits (⟨6, 6, 6, 2, 1, .c3, .u16⟩ : Buffer) 0x10000 ∧ SameSize (bufAt 0) (bufAt 6) ∧ Apart (bufAt 0) (bufAt 6) := by
  refine ⟨?_, ?_, by decide, by decide, by decide, by decide, by decide, by decide, by decide, by decide, by decide⟩ <;>
    simp only [ParameterOk] <;> decide

/-- OverlapFaults: one shared byte, and one buffer twice. -/
theorem test_witness_OverlapFaults :
    TwoBuffer (bufAt 0) (bufAt 5) (.box (bufAt 0) (bufAt 5) 1) ∧ ParameterOk (.box (bufAt 0) (bufAt 5) 1) ∧
    Fits (bufAt 0) 0x10000 ∧ Fits (bufAt 5) 0x10000 ∧ SameSize (bufAt 0) (bufAt 5) ∧ inFootprint (bufAt 0) 5 = true ∧
    inFootprint (bufAt 5) 5 = true ∧ TwoBuffer (bufAt 0) (bufAt 0) (.median (bufAt 0) (bufAt 0) 1) ∧
    ParameterOk (.median (bufAt 0) (bufAt 0) 1) :=
  ⟨.inl ⟨1, rfl⟩, trivial, by decide, by decide, by decide, rfl, rfl, .inr (.inr (.inr (.inr ⟨1, rfl⟩))), trivial⟩

/-- FaultsArePrecise, RestartRepeatsFault, ControlTransfers: a fault of FETCH, of decoding and of VALIDATE. -/
theorem test_witness_faulting :
    ∀ s ∈ [{ running .halt with cp := 0xFFDC#32 }, started { baseDesc with w0 := 8#32 } [], running (.fgauss (bufAt 0xFFFB) 1)],
      Ready s ∧ s.runState = .run ∧ goesOn (step s) (fun t => t.runState == .faulted) = true := by
  decide +kernel

/-- NoFaultAfterValidate. -/
theorem test_witness_NoFaultAfterValidate :
    Ready (running .halt) ∧ Instr.gauss (dotAt 0) (dotAt 3) 1 1 ≠ .halt ∧
      checkOf (.gauss (dotAt 0) (dotAt 3) 1 1) 0x10000 = none := by
  decide +kernel

/-- StepKeepsInv, EventsKeepInv, ErrRegister: states of each STATE, and steps from them. -/
theorem test_witness_Inv :
    Inv State.reset ∧ Inv (running (.box (dotAt 0x200) (dotAt 0x300) 1)) ∧
    Inv { State.reset with runState := .faulted, err := 0x106#32, irqStat := 3#32, irqEn := 3#32, cp := 0xFFFFFFFC#32 } ∧
    goesOn (step (running (.box (dotAt 0x200) (dotAt 0x300) 1))) (fun t => decide (Inv t)) = true ∧
    goesOn (onEvent .rstHigh (running .halt)) (fun t => t.runState == .idle) = true ∧
    goesOn (onEvent (.hostWrite 0xFFFF 1#8) State.reset) (fun t => t.mem == [(0xFFFF, 1#8)]) = true :=
  ⟨by decide +kernel, by decide +kernel, by decide +kernel, by decide +kernel, by decide +kernel, by decide +kernel⟩

/-- A state in RUN whose run started at `start` and has completed `done` commands, in a memory of `2^32` bytes. -/
def midRun (start : Word) (done : Nat) : State :=
  { State.reset with
    runState := .run, seq := Sequencer.empty .fetch, memBytes := 0x100000000, runStart := start, runDone := done,
    cp := start + BitVec.ofNat 32 (40 * done) }

/-- CommandPointerPort: CP at the start of the run, one command on, wrapped to 0, and past the start again (the state the
review names: start 16, CP 40). -/
theorem test_witness_CommandPointerPort :
    State.reset.runState ≠ .run ∧ Inv (midRun 0x100#32 0) ∧
    (Inv (midRun 0x100#32 1) ∧ (midRun 0x100#32 1).cp = 0x128#32) ∧
    (Inv (midRun 0xFFFFFFD8#32 1) ∧ (midRun 0xFFFFFFD8#32 1).cp = 0#32) ∧
    (Inv (midRun 16#32 107374183) ∧ (midRun 16#32 107374183).cp = 40#32) ∧
    goesOn (step (midRun 0x100#32 1)) (fun _ => true) = true := by
  exact ⟨by decide, by decide +kernel, by decide +kernel, by decide +kernel, by decide +kernel, by decide +kernel⟩

theorem test_witness_RegisterPortDecoding :
    (2 ≠ 4) ∧ (0x0E % 4 ≠ 0) ∧ (0x18 < 0x19) ∧ 0x1C ∉ [0x04, 0x0C, 0x14, 0x18] ∧ State.reset.runState ≠ .faulted := by decide

theorem test_witness_IdStatusAndEnable :
    ∀ r ∈ [RunState.idle, .run, .halted, .faulted], ({ State.reset with runState := r } : State).runState = r := by decide

theorem test_witness_StartWrite :
    (0xFFFFFFFF#32 : Word).getLsbD 0 = true ∧ (0xFFFFFFFE#32 : Word).getLsbD 0 = false ∧ State.reset.runState ≠ .run ∧
      (running .halt).runState = .run := by
  decide +kernel

/-- InterruptLine: both sources enabled, one pending, 1 written to that one only. -/
theorem test_witness_InterruptLine :
    let s : State := { State.reset with irqStat := 1#32, irqEn := 3#32 }
    s.rst = false ∧ ∀ k, k < 2 → (s.irqStat.getLsbD k && s.irqEn.getLsbD k) = true → (1#32 : Word).getLsbD k = true := by
  decide

/-- InterruptLine and InterruptStatusSticky: a pending bit enabled later, a pending bit cleared, and one kept. -/
theorem test_witness_interrupts :
    (let s : State := { State.reset with irqStat := 2#32 };
      s.irqStat.getLsbD 1 = true ∧ (2#32 : Word).getLsbD 1 = true ∧ s.irqEn.getLsbD 0 = false ∧ Ready s ∧
        goesOn (onEvent (.regWrite 0x18 4 1#32) s) (fun _ => true) = true) ∧
    goesOn (onEvent (.engineWhileClearing 3#32) (running .halt))
      (fun t => t.runState == .halted && t.irqStat == 1#32) = true ∧
    goesOn (onEvent (.engineWhileClearing 3#32) (started { baseDesc with w0 := 8#32 } []))
      (fun t => t.runState == .faulted && t.irqStat == 2#32) = true := by
  decide +kernel

/-- RunStateTransitions: each kind of transition occurs. -/
theorem test_witness_RunStateTransitions :
    Ready (running .halt) ∧ goesOn (onEvent .rstHigh (running .halt)) (fun t => t.runState == .idle) = true ∧
    goesOn (onEvent (.regWrite 4 4 1#32) .reset) (fun t => t.runState == .run) = true ∧
    (running .halt).nextCommand = some .halt ∧
    goesOn (onEvent .engine (running .halt)) (fun t => t.runState == .halted) = true ∧
    goesOn (onEvent .engine (started { baseDesc with w0 := 8#32 } [])) (fun t => t.runState == .faulted) = true := by
  decide +kernel

theorem test_witness_ResetState :
    State.reset = State.reset ∧ State.reset.runState ≠ .run ∧
    (let s := assertReset (running .halt);
      Inv s ∧ s.rst = true ∧ goesOn (onEvent (.regWrite 4 4 1#32) s) (fun t => t.rst) = true ∧
        goesOn (onEvent .rstLow s) (fun t => !t.rst) = true) := by
  decide +kernel

/-- ResetCutsOnlyDestinationPixels: a command that is cut before its FETCH and in each later phase, and one that VALIDATE
refuses. -/
theorem test_witness_ResetCutsOnlyDestinationPixels :
    (let s := running (.median (dotAt 0x200) (dotAt 0x300) 0);
      Memory.wf s.mem ∧ s.runState = .run ∧ s.seq.phase = .fetch ∧
        s.nextCommand = some (.median (dotAt 0x200) (dotAt 0x300) 0) ∧
        checkOf (.median (dotAt 0x200) (dotAt 0x300) 0) s.memBytes = none) ∧
    ([Phase.validate, .execute, .complete].all fun phase =>
      (unfinishedRun [.sequencer, .sequencer, .load 0 0, .compute 0 0, .store 0 0, .land 1, .land 0, .land 0, .sequencer]
          (running (.median (dotAt 0x200) (dotAt 0x300) 0))).any fun s =>
        decide (Memory.wf s.mem) && s.runState == .run && s.seq.phase != .fetch &&
          ({ s with seq := { s.seq with phase := phase } } : State).command ==
            some (.median (dotAt 0x200) (dotAt 0x300) 0)) = true ∧
    (let s := running (.median (dotAt 0x200) (dotAt 0x202) 0);
      s.nextCommand = some (.median (dotAt 0x200) (dotAt 0x202) 0) ∧
        checkOf (.median (dotAt 0x200) (dotAt 0x202) 0) s.memBytes ≠ none) := by
  exact ⟨by decide +kernel, by decide +kernel, by decide +kernel⟩

/-- BoxLineLaws, BoxImpulse, Tent2LineLaws: the hypotheses at the ends of their ranges. -/
theorem test_witness_line_laws :
    (∀ v ∈ [10, 20, 30], 10 ≤ v ∧ v ≤ 30) ∧ List.Forall₂ (· ≤ ·) [1, 2, 3] [1, 5, 3] ∧
    (2 ≤ 2 ∧ 2 - 1 ≤ 1 ∧ 0 < 2 ∧ 1 < 2) ∧ (1 ≤ 1 ∧ 1 + 1 + 1 ≤ 3) ∧ (2 * 1 ≤ 2 ∧ 2 + 2 * 1 + 1 ≤ 5 ∧ 4 < 5) := by
  decide

/-- FirLineLaws, AccumulatorBounds: the kernels of V4 for `K = 3` and `K = 1`. -/
theorem test_witness_kernels :
    (let q := [17961, 29614, 17961];
      q.length % 2 = 1 ∧ q.sum = 65536 ∧ q.reverse = q ∧ centreTap q.length ≤ 1 ∧ 1 + centreTap q.length + 1 ≤ 3) ∧
    (let q := [65536];
      q.length = 1 ∧ q.sum = 65536 ∧ q.reverse = q) ∧
    (∀ v ∈ [65535, 0], v ≤ 65535) := by
  decide

theorem test_witness_KernelMatchesGaussian :
    LegalKernel 1 1 ∧ kernelDecided 1 1 = true ∧ LegalKernel 3 0x10000 ∧ kernelDecided 3 0x10000 = true := by decide +kernel

/-- HistogramFindsMedian, CounterBounds. -/
theorem test_witness_histogram (row col : Int) :
    (fun _ _ => 255 : Int → Int → Nat) row col ≤ CompWidth.u8.maxValue ∧
      (fun _ _ => 65535 : Int → Int → Nat) row col ≤ CompWidth.u16.maxValue ∧ 65535 ≤ 65535 := by
  refine ⟨?_, ?_, ?_⟩ <;> exact Nat.le_refl _

theorem test_witness_MedianRank : [7].length % 2 = 1 ∧ [9, 1, 5].length % 2 = 1 := by decide

/-- MedianLaws: a uniform window, a bare majority, one outlier in nine, and images one below the other. -/
theorem test_witness_MedianLaws :
    (∀ x ∈ windowSamples (fun _ _ => 4) 1 0 0, x = 4) ∧
    (2 * 1 + 1) * (2 * 1 + 1) / 2 < (windowSamples (fun row col => if row < 0 ∨ (row = 0 ∧ col < 1) then 4 else 9) 1 0 0).count 4 ∧
    (2 * 1 + 1) * (2 * 1 + 1) ≤ (windowSamples (fun row col => if row = 0 ∧ col = 0 then 255 else 0) 1 0 0).count 0 + 1 ∧
    (∀ row col : Int, (fun _ _ => 0 : Int → Int → Nat) row col ≤ (fun _ _ => 1 : Int → Int → Nat) row col) :=
  ⟨by decide +kernel, by decide +kernel, by decide +kernel, fun _ _ => Nat.zero_le 1⟩

/-- LineOrderIsFree: an in-place row pass, a column pass and a window pass, lines in reverse. -/
theorem test_witness_LineOrderIsFree :
    Ready (running .halt) ∧ LegalPass 0x10000 (.row (.box 1) ⟨0, 3, 6, 1, 2, .c3, .u8⟩ ⟨0, 3, 6, 1, 2, .c3, .u8⟩) ∧
    LegalPass 0x10000 (.col .fir (bufAt 0xFFFA)) ∧ LegalPass 0x10000 (.window 1 (bufAt 0) (bufAt 6)) ∧
    [1, 0].Perm (List.range (Pass.lines (.col .fir (bufAt 0xFFFA)))) ∧
    [0].Perm (List.range (Pass.lines (.window 1 (bufAt 0) (bufAt 6)))) := by
  refine ⟨by decide +kernel, ?_, ?_, ?_, by decide, by decide⟩ <;> simp only [LegalPass] <;> decide

theorem test_witness_WorkerCountIsInvisible :
    Ready (running .halt) ∧ 0 < [Worker.idle].length ∧ 0 < [Worker.idle, ⟨.loaded 3, [[1]], [[2]], []⟩].length := by
  decide +kernel

/-- AnyInterleavingIsOneStep, EveryCommandCanFinish, EveryScheduleFinishes: two workers on the two columns of a box filter,
the second column first and the components reaching memory out of order. -/
theorem test_witness_AnyInterleavingIsOneStep :
    let s : State := { running (.fgauss (bufAt 0x200) 1) with workers := [Worker.idle, Worker.idle] }
    Inv s ∧ s.runState = .run ∧
      (commandRun [.sequencer, .sequencer, .load 0 1, .compute 0 1, .store 0 1, .land 5, .land 0, .land 2, .land 0,
        .land 1, .land 0, .sequencer, .load 1 0, .load 0 1, .compute 0 1, .compute 1 0, .store 1 0, .store 0 1, .land 3,
        .land 4, .land 0, .land 0, .land 1, .land 0, .sequencer, .sequencer] s).isSome = true ∧
      (unfinishedRun [.sequencer, .sequencer, .load 0 1, .compute 0 1, .store 0 1, .land 5] s).isSome = true := by
  intro s
  exact ⟨by decide +kernel, rfl, by decide +kernel, by decide +kernel⟩

/-- OnlyDestinationPixelsWritten. -/
theorem test_witness_OnlyDestinationPixelsWritten :
    let i := Instr.median (dotAt 0x200) (dotAt 0x300) 1
    Ready (running i) ∧ i ≠ .halt ∧ goesOn (exec i (running i)) (fun _ => true) = true ∧
      inFootprint (dotAt 0x200) 0x202 = true := by
  decide +kernel

theorem test_witness_TwoBuffer : TwoBuffer (dotAt 0x200) (dotAt 0x300) (.median (dotAt 0x200) (dotAt 0x300) 1) :=
  .inr (.inr (.inr (.inr ⟨1, rfl⟩)))

/-- BoxCommandsChain: buffers side by side; two of them holding the same image. -/
theorem test_witness_BoxCommandsChain :
    LegalPair (dotAt 0) (dotAt 3) 0x10000 ∧ LegalPair (dotAt 3) (dotAt 6) 0x10000 ∧ LegalPair (dotAt 6) (dotAt 9) 0x10000 ∧
    LegalPair (dotAt 0) (dotAt 6) 0x10000 ∧ LegalPair (dotAt 0) (dotAt 9) 0x10000 ∧ SameSize (dotAt 0) (dotAt 3) ∧
    Holds (dotAt 3) State.reset.mem (imageOf (dotAt 0) State.reset.mem) ∧ Ready State.reset :=
  ⟨by decide, by decide, by decide, by decide, by decide, by decide, fun _ _ _ _ => rfl, by decide⟩

/-- HostWriteOutsideListIsHarmless: a box filter, HALT after it (zero bytes), and a byte neither uses. -/
theorem test_witness_HostWriteOutsideListIsHarmless :
    let s := { running (.box (dotAt 0x200) (dotAt 0x203) 1) with memBytes := 0x400 }
    Inv s ∧ s.runState = .run ∧ goesOn (hostWrite 0x206 7#8 s) (fun _ => true) = true ∧
      goesOn (step s) (fun _ => true) = true := by
  decide +kernel

/-- HostMemoryAccess: the last byte of memory; the last byte of the descriptor at CP and of a footprint of its command; the
first byte outside. -/
theorem test_witness_HostMemoryAccess :
    (Memory.wf State.reset.mem ∧ State.reset.runState ≠ .run ∧ 0xFFFF < State.reset.memBytes) ∧
    (let s := running (.box (dotAt 0x200) (dotAt 0x300) 1);
      s.runState = .run ∧ 0x127 < s.memBytes ∧ s.cp.toNat ≤ 0x127 ∧ 0x127 < s.cp.toNat + 40 ∧
        s.nextCommand = some (.box (dotAt 0x200) (dotAt 0x300) 1) ∧
        dotAt 0x300 ∈ buffersOf (.box (dotAt 0x200) (dotAt 0x300) 1) ∧ inFootprint (dotAt 0x300) 0x302 = true) ∧
    State.reset.memBytes ≤ 0x10000 := by
  decide +kernel

/-- HostMemoryAccess: the last byte of the second descriptor of the running list. -/
theorem test_witness_HostMemoryAccess_later :
    ∃ t, ListReaches 1 (running (.box (dotAt 0x200) (dotAt 0x203) 1)) t ∧ UsesByte 0x14F t := by
  obtain ⟨t, ht, hp⟩ := goesOn_next
    (show goesOn (step (running (.box (dotAt 0x200) (dotAt 0x203) 1)))
      (fun t => t.cp == 0x128#32 && t.runState == .run) = true by decide +kernel)
  simp only [Bool.and_eq_true, beq_iff_eq] at hp
  refine ⟨t, ⟨rfl, t, ht, hp.2, rfl⟩, .inl ?_⟩
  rw [hp.1]
  decide

/-- HostMemoryAccess: a list that ends, the first byte past its destination, which it does not use, and one it only reads. -/
theorem test_witness_HostMemoryAccess_unused :
    let s := { running (.box (dotAt 0x200) (dotAt 0x203) 1) with memBytes := 0x400 }
    s.runState = .run ∧ ListEnds s ∧ (∀ n t, ListReaches n s t → ¬ UsesByte 0x206 t) ∧
      ∀ n t, ListReaches n s t → ¬ WritesByte 0x202 t := by
  intro s
  have h := of_someCommand_eq_false (show someCommand (usesByte 0x206) (listFuel s - 1) s = false by decide +kernel)
  have k := of_someCommand_eq_false (show someCommand (writesByte 0x202) (listFuel s - 1) s = false by decide +kernel)
  exact ⟨rfl, h.2, fun n t ht hu => absurd (usesByte_eq_true.mpr hu) (by rw [h.1 n t ht]; decide),
    fun n t ht hu => absurd (writesByte_eq_true.mpr hu) (by rw [k.1 n t ht]; decide)⟩

end Sys2Proof.Tests
end

