-- ==== Sys2Proof/Proofs/Scope.lean ====
section
/-! SUPPORT. What spec 00_scope.md R7 leaves free, the number of workers, cannot be seen from outside (R154): two states that
differ only in their workers, COEF, latches and hidden state are taken to states that differ only there. -/

namespace Sys2Proof.Machine

/-! ### The step by what FETCH and decoding find

`delta` opens `step` as it stands: `unfold` and `simp` would first generate and kernel-check its equations, which waits for the
long evaluations of the tests and costs a thread's stack of memory. -/

/-- Out of RUN (R277, R300). -/
theorem step_of_not_run {s : State} (h : s.runState ≠ .run) : step s = .next s := by
  delta step
  cases hr : s.runState with
  | run => exact absurd hr h
  | idle => rfl
  | halted => rfl
  | faulted => rfl

/-- In RUN with a descriptor outside memory (R262). -/
theorem step_of_fetch_fault {s : State} (hr : s.runState = .run) (hf : s.memBytes < s.cp.toNat + 40) :
    step s = .next (raiseTrap ⟨.descriptorFault, 1⟩ s) := by
  delta step
  rw [hr, fetch_fault hf]

/-- In RUN with an illegal descriptor (R263). -/
theorem step_of_illegal {s : State} {e : Illegal} (hr : s.runState = .run) (hf : s.cp.toNat + 40 ≤ s.memBytes)
    (hd : decode (s.mem.readDesc s.cp.toNat) = .error e) : step s = .next (raiseTrap (illegalTrap e) (fetched s)) := by
  delta step
  rw [hr, fetch_ok hf]
  dsimp only
  rw [hd]
  rfl

/-- In RUN with a command at CP (R140). -/
theorem step_of_command {s : State} {i : Instr} (hr : s.runState = .run) (hf : s.cp.toNat + 40 ≤ s.memBytes)
    (hd : decode (s.mem.readDesc s.cp.toNat) = .ok i) : step s = exec i (fetched s) := by
  delta step
  rw [hr, fetch_ok hf]
  dsimp only
  rw [hd]
  rfl

/-- FETCH leaves the workers alone. -/
@[simp] theorem fetched_workers (s : State) : (fetched s).workers = s.workers := rfl

/-- FETCH leaves no write pending. -/
@[simp] theorem fetched_pending (s : State) : (fetched s).seq.pending = [] := rfl

/-! ### States alike in what the host can see -/

/-- The two states are alike but in what the latches, COEF, the workers and the sequencer's hidden state hold. -/
def SameButStores (s u : State) : Prop :=
  ∃ d coef ws q, u = { s with d := d, coef := coef, workers := ws, seq := q }

/-- Both outcomes are next states, and these are alike. -/
def AnswerAlike (o o' : Host.Outcome State Fault Refusal) : Prop :=
  ∃ t u, o = .next t ∧ o' = .next u ∧ SameButStores t u

section
variable {s u : State}

/-- The fields FETCH and VALIDATE read. -/
theorem SameButStores.sameInputs (h : SameButStores s u) :
    u.runState = s.runState ∧ u.mem = s.mem ∧ u.cp = s.cp ∧ u.memBytes = s.memBytes := by
  obtain ⟨d, coef, ws, q, rfl⟩ := h
  exact ⟨rfl, rfl, rfl, rfl⟩

theorem SameButStores.fetched (h : SameButStores s u) : SameButStores (fetched s) (fetched u) := by
  obtain ⟨d, coef, ws, q, rfl⟩ := h
  exact ⟨_, coef, ws, _, rfl⟩

theorem SameButStores.raiseTrap (h : SameButStores s u) (t : Trap) : SameButStores (raiseTrap t s) (raiseTrap t u) := by
  obtain ⟨d, coef, ws, q, rfl⟩ := h
  exact ⟨d, coef, ws, _, rfl⟩

theorem SameButStores.enterHalted (h : SameButStores s u) : SameButStores (enterHalted s) (enterHalted u) := by
  obtain ⟨d, coef, ws, q, rfl⟩ := h
  exact ⟨d, coef, ws, _, rfl⟩

/-- COMPLETE, with the memory the passes of one command leave. -/
theorem SameButStores.completeCommand (h : SameButStores s u) (passes : List Pass) (coef : List Nat) :
    SameButStores { completeCommand s with mem := passesMemory passes coef s.mem }
      { completeCommand u with mem := passesMemory passes coef u.mem } := by
  obtain ⟨d, _, ws, q, rfl⟩ := h
  exact ⟨d, _, _, _, rfl⟩

/-- VALIDATE decides on a command's operands and `MEM_BYTES`, and what its passes leave is a function of the memory before
them (`exec_completes`): a command reads nothing of what the workers, COEF and the latches hold. -/
theorem exec_answerAlike (i : Instr) (h : SameButStores s u) (hs : 0 < s.workers.length) (hu : 0 < u.workers.length)
    (hps : s.seq.pending = []) (hpu : u.seq.pending = []) : AnswerAlike (exec i s) (exec i u) := by
  by_cases hi : i = .halt
  · subst hi
    exact ⟨_, _, rfl, rfl, h.enterHalted⟩
  · obtain ⟨_, _, _, hbytes⟩ := h.sameInputs
    cases hc : checkOf i s.memBytes with
    | some t => exact ⟨_, _, exec_traps hi s hc, exec_traps hi u (hbytes ▸ hc), h.raiseTrap t⟩
    | none => exact ⟨_, _, exec_completes hi s hs hps hc, exec_completes hi u hu hpu (hbytes ▸ hc), h.completeCommand _ _⟩

/-- FETCH fills the latches from memory and empties the hidden state, so a step reads nothing of what either held. -/
theorem step_answerAlike (h : SameButStores s u) (hs : 0 < s.workers.length) (hu : 0 < u.workers.length) :
    AnswerAlike (step s) (step u) := by
  obtain ⟨hrun, hmem, hcp, hbytes⟩ := h.sameInputs
  by_cases hr : s.runState = .run
  · have hru : u.runState = .run := hrun.trans hr
    rcases Nat.lt_or_ge s.memBytes (s.cp.toNat + 40) with hf | hf
    · have hfu : u.memBytes < u.cp.toNat + 40 := by rwa [hbytes, hcp]
      exact ⟨_, _, step_of_fetch_fault hr hf, step_of_fetch_fault hru hfu, h.raiseTrap _⟩
    · have hfu : u.cp.toNat + 40 ≤ u.memBytes := by rwa [hbytes, hcp]
      have hdec : decode (u.mem.readDesc u.cp.toNat) = decode (s.mem.readDesc s.cp.toNat) := by rw [hmem, hcp]
      cases hd : decode (s.mem.readDesc s.cp.toNat) with
      | error e => exact ⟨_, _, step_of_illegal hr hf hd, step_of_illegal hru hfu (hdec.trans hd), h.fetched.raiseTrap _⟩
      | ok i =>
        rw [step_of_command hr hf hd, step_of_command hru hfu (hdec.trans hd)]
        exact exec_answerAlike i h.fetched (by rwa [fetched_workers]) (by rwa [fetched_workers]) (fetched_pending s)
          (fetched_pending u)
  · exact ⟨s, u, step_of_not_run hr, step_of_not_run (hrun ▸ hr), h⟩

/-- What the host can see of two alike outcomes is the same (R25 to R32). -/
theorem AnswerAlike.visible {o o' : Host.Outcome State Fault Refusal} (h : AnswerAlike o o') :
    ∃ t u, o = .next t ∧ o' = .next u ∧ u.mem = t.mem ∧ u.cp = t.cp ∧ u.err = t.err ∧ u.runState = t.runState ∧
      u.irqStat = t.irqStat ∧ u.irqEn = t.irqEn := by
  obtain ⟨t, _, ht, hu, d, coef, ws, q, rfl⟩ := h
  exact ⟨t, _, ht, hu, rfl, rfl, rfl, rfl, rfl, rfl⟩

end

/-- Settles O52: replacing the workers, COEF and the latches gives an alike state, and `exec` and `step` answer alike. -/
theorem workerCountIsInvisible : Obligations.WorkerCountIsInvisible := by
  intro i s ws ⟨hw, _, hp⟩ hws
  refine ⟨?_, fun d coef => ?_⟩
  · have hsame : SameButStores s { s with workers := ws } := ⟨s.d, s.coef, ws, s.seq, rfl⟩
    exact (exec_answerAlike i hsame hw hws hp hp).visible
  · have hsame : SameButStores s { s with workers := ws, coef := coef, d := d } := ⟨d, coef, ws, s.seq, rfl⟩
    exact (step_answerAlike hsame hw hws).visible

end Sys2Proof.Machine
end

