-- ==== Sys2Proof/Proofs/State.lean ====
section
/-! SUPPORT. The rules of spec 10_state.md: the register port, what a step and every other event at the boundary can do, and
the invariant that all of them keep. -/

namespace Sys2Proof.Machine

/-! ### The status words, bit by bit -/

/-- Bits 31:2 of a word are zero exactly when only its two low bits can be set (R31, R32). -/
theorem bits_31_2_eq_zero_iff (w : Word) : bits w 31 2 = 0 ↔ w.toNat < 4 := by
  have := w.isLt
  simp only [bits]
  omega

/-- The mask of the implemented interrupt bits leaves nothing above them. -/
theorem toNat_and_irqMask_lt (w : Word) : (w &&& irqMask).toNat < 4 := by
  rw [BitVec.toNat_and]
  exact Nat.lt_succ_of_le Nat.and_le_right

/-- The two implemented bits pass the mask (R31, R32). -/
theorem getLsbD_irqMask {k : Nat} (hk : k < 2) : irqMask.getLsbD k = true := by
  obtain rfl | rfl : k = 0 ∨ k = 1 := by omega
  · rfl
  · rfl

/-- An implemented bit of the next IRQ_STAT: the set wins over the clear (R32). -/
theorem getLsbD_irqStatNext (old clear set : Word) {k : Nat} (hk : k < 2) :
    (irqStatNext old clear set).getLsbD k = (old.getLsbD k && !clear.getLsbD k || set.getLsbD k) := by
  have hk32 : k < 32 := by omega
  delta irqStatNext
  simp [getLsbD_irqMask hk, hk32]

/-- The test a write to CTRL makes is of bit 0 (R27). -/
theorem and_one_eq_one_iff (v : Word) : v &&& 1#32 = 1#32 ↔ v.getLsbD 0 = true := by
  rw [BitVec.and_one_eq_setWidth_ofBool_getLsbD]
  cases v.getLsbD 0 <;> decide

/-- Dropping the two low bits of a word (R29). -/
theorem toNat_drop_low_bits (v : Word) : (v &&& 0xFFFFFFFC#32).toNat = v.toNat / 4 * 4 := by
  have h : v &&& 0xFFFFFFFC#32 = (v >>> 2) <<< 2 := by
    ext k hk
    simp only [BitVec.getElem_and, BitVec.getElem_shiftLeft]
    interval_cases k <;> simp
  have := v.isLt
  rw [h, BitVec.toNat_shiftLeft, BitVec.toNat_ushiftRight, Nat.shiftLeft_eq, Nat.shiftRight_eq_div_pow]
  omega

/-! ### The register port, one rule per register

The lemmas about `regRead` and `regWrite` open them once; everything below goes through these. `delta` opens a definition
here for the reason given in Proofs/Scope.lean. For the same reason this file declares no inductive type, and cites its own
equivalences as `Iff.mp lemma`: resolving the dotted name `lemma.mp` would wait for the lemma's kernel check. -/

/-- The accesses that reach a register: aligned and of 32 bits (R25, R33). -/
theorem wordAccess_eq_true {offset size : Nat} : wordAccess offset size = true ↔ size = 4 ∧ offset % 4 = 0 := by
  delta wordAccess
  simp

/-- An access that is not an aligned 32-bit one reads 0 and writes nothing (R33). -/
theorem regAccess_of_not_word {offset size : Nat} (h : wordAccess offset size = false) (v : Word) (s : State) :
    regRead offset size s = ⟨0#32, s⟩ ∧ regWrite offset size v s = s := by
  constructor
  · delta regRead
    rw [h]
    rfl
  · delta regWrite
    rw [h]
    exact ite_self s

/-- Above 0x18 no register is mapped (R25). -/
theorem regValue_above {offset : Nat} (h : 0x18 < offset) (s : State) : regValue s offset = 0#32 := by
  obtain ⟨n, rfl⟩ : ∃ n, offset = n + 25 := ⟨offset - 25, by omega⟩
  rfl

/-- A word read, but of CP in RUN, returns the register and changes nothing (R25 to R33). -/
theorem regRead_word {offset : Nat} {s : State} (ha : offset % 4 = 0) (h : offset ≠ 0x0C ∨ s.runState ≠ .run) :
    regRead offset 4 s = ⟨regValue s offset, s⟩ := by
  have hn : ¬(offset = 0x0C ∧ s.runState = .run) := by tauto
  have hw : wordAccess offset 4 = true := Iff.mpr wordAccess_eq_true ⟨rfl, ha⟩
  delta regRead
  rw [if_pos hw, if_neg hn]

/-- A read of CP in RUN draws one of the descriptor addresses of the run (R29; log 10). -/
theorem regRead_cp_run {s : State} (h : s.runState = .run) :
    regRead 0x0C 4 s = ⟨cpDuringRun s, { s with draws := s.draws + 1 }⟩ := by
  delta regRead
  exact (if_pos rfl).trans (if_pos ⟨rfl, h⟩)

/-- A read leaves everything but the model's count of draws (R33; log 13). -/
theorem regRead_after (offset size : Nat) (s : State) : ∃ n, (regRead offset size s).after = { s with draws := n } := by
  cases hw : wordAccess offset size with
  | false => exact ⟨s.draws, by rw [(regAccess_of_not_word hw 0#32 s).1]⟩
  | true =>
    obtain ⟨rfl, ha⟩ := Iff.mp wordAccess_eq_true hw
    by_cases h : offset = 0x0C ∧ s.runState = .run
    · obtain ⟨rfl, hr⟩ := h
      exact ⟨s.draws + 1, by rw [regRead_cp_run hr]⟩
    · exact ⟨s.draws, by rw [regRead_word ha (by tauto)]⟩

/-- While `rst` is high no write has an effect (R300). -/
theorem regWrite_of_rst {s : State} (h : s.rst = true) (offset size : Nat) (v : Word) : regWrite offset size v s = s := by
  delta regWrite
  exact if_pos h

section
variable {s : State} (h : s.rst = false) (v : Word)
include h

theorem regWrite_ctrl : regWrite 0x04 4 v s = writeCtrl v s := by
  delta regWrite
  rw [h]
  rfl

theorem regWrite_cp : regWrite 0x0C 4 v s = writeCp v s := by
  delta regWrite
  rw [h]
  rfl

theorem regWrite_irqEn : regWrite 0x14 4 v s = writeIrqEn v s := by
  delta regWrite
  rw [h]
  rfl

theorem regWrite_irqStat : regWrite 0x18 4 v s = writeIrqStat v s := by
  delta regWrite
  rw [h]
  rfl

end

/-- A write to any other offset changes nothing (R26, R28, R30, R33). -/
theorem regWrite_elsewhere {offset : Nat} (h : offset ∉ [0x04, 0x0C, 0x14, 0x18]) (size : Nat) (v : Word) (s : State) :
    regWrite offset size v s = s := by
  simp only [List.mem_cons, List.not_mem_nil, or_false, not_or] at h
  rcases Bool.eq_false_or_eq_true s.rst with hrst | hrst
  · exact regWrite_of_rst hrst offset size v
  cases hw : wordAccess offset size with
  | false => exact (regAccess_of_not_word hw v s).2
  | true =>
    obtain ⟨-, ha⟩ := Iff.mp wordAccess_eq_true hw
    have ho : offset = 0x00 ∨ offset = 0x08 ∨ offset = 0x10 ∨ offset = (offset - 0x19) + 0x19 := by omega
    delta regWrite
    rw [hrst, hw]
    obtain rfl | rfl | rfl | ho := ho
    · rfl
    · rfl
    · rfl
    · rw [ho]
      rfl

/-- An accepted START (R27). -/
theorem writeCtrl_start {v : Word} {s : State} (hv : v.getLsbD 0 = true) (hr : s.runState ≠ .run) :
    writeCtrl v s = acceptStart s := if_pos ⟨(and_one_eq_one_iff v).mpr hv, hr⟩

/-- Writing 0 to START, or anything in RUN, has no effect (R27). -/
theorem writeCtrl_ignored {v : Word} {s : State} (h : v.getLsbD 0 = false ∨ s.runState = .run) : writeCtrl v s = s := by
  refine if_neg fun hc => ?_
  rcases h with hv | hr
  · rw [(and_one_eq_one_iff v).mp hc.1] at hv
    contradiction
  · exact hc.2 hr

/-- What a write to CTRL can do. -/
theorem writeCtrl_cases (v : Word) (s : State) :
    writeCtrl v s = s ∨ v.getLsbD 0 = true ∧ s.runState ≠ .run ∧ writeCtrl v s = acceptStart s := by
  by_cases h : v.getLsbD 0 = true ∧ s.runState ≠ .run
  · exact .inr ⟨h.1, h.2, writeCtrl_start h.1 h.2⟩
  · refine .inl (writeCtrl_ignored ?_)
    rw [← Bool.not_eq_true]
    tauto

/-- In RUN a write to CP is ignored (R29). -/
theorem writeCp_run {s : State} (hr : s.runState = .run) (v : Word) : writeCp v s = s := if_pos hr

/-- Outside RUN a write to CP stores the value with its two low bits dropped (R29). -/
theorem writeCp_not_run {s : State} (hr : s.runState ≠ .run) (v : Word) :
    writeCp v s = { s with cp := v &&& 0xFFFFFFFC#32 } := if_neg hr

/-- A write to CTRL that starts nothing, whatever the level of `rst` (R27, R300). -/
theorem regWrite_ctrl_ignored {v : Word} {s : State} (h : v.getLsbD 0 = false ∨ s.runState = .run) :
    regWrite 0x04 4 v s = s := by
  rcases Bool.eq_false_or_eq_true s.rst with hrst | hrst
  · exact regWrite_of_rst hrst _ _ v
  · rw [regWrite_ctrl hrst, writeCtrl_ignored h]

/-- A write to CP in RUN, whatever the level of `rst` (R29, R300). -/
theorem regWrite_cp_run {s : State} (hr : s.runState = .run) (v : Word) : regWrite 0x0C 4 v s = s := by
  rcases Bool.eq_false_or_eq_true s.rst with hrst | hrst
  · exact regWrite_of_rst hrst _ _ v
  · rw [regWrite_cp hrst, writeCp_run hr]

/-- What a register write can do: nothing, START, or the write of CP, IRQ_EN or IRQ_STAT (R33). -/
theorem regWrite_cases (offset size : Nat) (v : Word) (s : State) :
    regWrite offset size v s = s ∨ s.rst = false ∧ size = 4 ∧
      (offset = 0x04 ∧ v.getLsbD 0 = true ∧ s.runState ≠ .run ∧ regWrite offset size v s = acceptStart s ∨
        offset = 0x0C ∧ s.runState ≠ .run ∧ regWrite offset size v s = { s with cp := v &&& 0xFFFFFFFC#32 } ∨
        offset = 0x14 ∧ regWrite offset size v s = writeIrqEn v s ∨
        offset = 0x18 ∧ regWrite offset size v s = writeIrqStat v s) := by
  rcases Bool.eq_false_or_eq_true s.rst with hrst | hrst
  · exact .inl (regWrite_of_rst hrst offset size v)
  cases hw : wordAccess offset size with
  | false => exact .inl (regAccess_of_not_word hw v s).2
  | true =>
    obtain ⟨rfl, -⟩ := Iff.mp wordAccess_eq_true hw
    by_cases ho : offset ∈ [0x04, 0x0C, 0x14, 0x18]
    · simp only [List.mem_cons, List.not_mem_nil, or_false] at ho
      obtain rfl | rfl | rfl | rfl := ho
      · rw [regWrite_ctrl hrst]
        exact (writeCtrl_cases v s).imp_right fun ⟨hv, hr, h⟩ => ⟨hrst, rfl, .inl ⟨rfl, hv, hr, h⟩⟩
      · rw [regWrite_cp hrst]
        by_cases hr : s.runState = .run
        · exact .inl (writeCp_run hr v)
        · exact .inr ⟨hrst, rfl, .inr (.inl ⟨rfl, hr, writeCp_not_run hr v⟩)⟩
      · exact .inr ⟨hrst, rfl, .inr (.inr (.inl ⟨rfl, regWrite_irqEn hrst v⟩))⟩
      · exact .inr ⟨hrst, rfl, .inr (.inr (.inr ⟨rfl, regWrite_irqStat hrst v⟩))⟩
    · exact .inl (regWrite_elsewhere ho 4 v s)

/-! ### The register port: O28, O29, O31 -/

/-- Settles O28: each part is one of the rules above. -/
theorem registerPortDecoding : Obligations.RegisterPortDecoding := by
  refine ⟨fun offset size v s h => ?outside, regRead_after, fun offset v s h => regWrite_elsewhere h 4 v s,
    fun v s => ?effects, fun offset size v s => ⟨rfl, rfl, fun hf => ?noFault⟩⟩
  case outside =>
    cases hw : wordAccess offset size with
    | false => exact regAccess_of_not_word hw v s
    | true =>
      obtain ⟨rfl, ha⟩ := Iff.mp wordAccess_eq_true hw
      have hhigh : 0x18 < offset := by tauto
      constructor
      · rw [regRead_word ha (.inl (by omega)), regValue_above hhigh]
      · refine regWrite_elsewhere ?_ 4 v s
        simp only [List.mem_cons, List.not_mem_nil, or_false]
        omega
  case effects =>
    rcases Bool.eq_false_or_eq_true s.rst with hrst | hrst
    · simp only [regWrite_of_rst hrst]
      exact ⟨⟨s.err, s.runState, s.seq, s.runStart, s.runDone, rfl⟩, ⟨s.cp, rfl⟩, ⟨s.irqEn, rfl⟩, ⟨s.irqStat, rfl⟩⟩
    · rw [regWrite_ctrl hrst, regWrite_cp hrst, regWrite_irqEn hrst, regWrite_irqStat hrst]
      refine ⟨?ctrl, ?cp, ⟨v &&& irqMask, rfl⟩, ⟨irqStatNext s.irqStat v 0#32, rfl⟩⟩
      case ctrl =>
        obtain h | ⟨-, -, h⟩ := writeCtrl_cases v s
        · exact ⟨_, _, _, _, _, h⟩
        · exact ⟨_, _, _, _, _, h⟩
      case cp =>
        by_cases hr : s.runState = .run
        · exact ⟨s.cp, writeCp_run hr v⟩
        · exact ⟨_, writeCp_not_run hr v⟩
  case noFault =>
    obtain h | ⟨-, -, ⟨-, -, -, h⟩ | ⟨-, -, h⟩ | ⟨-, h⟩ | ⟨-, h⟩⟩ := regWrite_cases offset size v s <;> rw [h]
    · exact hf
    · simp
    · exact hf
    · exact hf
    · exact hf

/-- Settles O29: reads of the other registers return what they hold, and `irqMask` keeps the two enable bits. -/
theorem idStatusAndEnable : Obligations.IdStatusAndEnable := by
  have hread (offset : Nat) (s : State) (ha : offset % 4 = 0) (ho : offset ≠ 0x0C) :
      (regRead offset 4 s).value = regValue s offset := by rw [regRead_word ha (.inl ho)]
  have hstatus (s : State) : (regRead 0x08 4 s).value = BitVec.ofNat 32 s.runState.code := hread 0x08 s rfl (by decide)
  refine ⟨fun v s => ⟨hread 0x00 s rfl (by decide), regWrite_elsewhere (by decide) 4 v s,
    regWrite_elsewhere (by decide) 4 v s, hread 0x18 s rfl (by decide)⟩, fun s => ?_, fun v s hrst => ?_⟩
  · rw [hstatus]
    refine ⟨fun h => ?_, fun h => ?_, fun h => ?_, fun h => ?_⟩ <;> rw [h] <;> rfl
  · rw [regWrite_irqEn hrst, hread 0x14 _ rfl (by decide)]
    refine ⟨fun k hk => ?_, (bits_31_2_eq_zero_iff _).mpr (toNat_and_irqMask_lt v)⟩
    show (v &&& irqMask).getLsbD k = v.getLsbD k
    rw [BitVec.getLsbD_and, getLsbD_irqMask hk, Bool.and_true]

/-- Settles O31: an accepted START is `acceptStart`, and every other write to CTRL is ignored. -/
theorem startWrite : Obligations.StartWrite := by
  intro v s
  refine ⟨fun hv hr hrst => ⟨s.cp, 0, ?_⟩, fun hv => regWrite_ctrl_ignored (.inl hv),
    fun hr => regWrite_ctrl_ignored (.inr hr), ?_⟩
  · rw [regWrite_ctrl hrst, writeCtrl_start hv hr]
    rfl
  · rw [regRead_word rfl (.inl (by decide))]
    rfl

/-! ### What a step from RUN can do -/

theorem one_le_code (c : Cause) : 1 ≤ c.code := by cases c <;> decide

theorem code_le_six (c : Cause) : c.code ≤ 6 := by cases c <;> decide

/-- A recorded subcause fits its byte of ERR (R30), so the value recorded is not cut. -/
theorem errWord_toNat {tr : Trap} (h : tr.sub < 256) : tr.errWord.toNat = tr.cause.code + 256 * tr.sub := by
  have := code_le_six tr.cause
  delta Trap.errWord
  rw [BitVec.toNat_ofNat]
  omega

/-- The layout of ERR after a fault entry (R30). -/
theorem errWord_layout {tr : Trap} (h : tr.sub < 256) :
    bits tr.errWord 3 0 = tr.cause.code ∧ bits tr.errWord 7 4 = 0 ∧ bits tr.errWord 31 16 = 0 := by
  have := code_le_six tr.cause
  simp only [bits, errWord_toNat h]
  omega

/-- Fault entry records a cause, so ERR is not zero (R30). -/
theorem errWord_ne_zero {tr : Trap} (h : tr.sub < 256) : tr.errWord ≠ 0#32 := by
  intro h0
  have := one_le_code tr.cause
  have := errWord_toNat h
  rw [h0, BitVec.toNat_zero] at this
  omega

/-- Where the check finds something, its subcause fits the byte ERR has for it. -/
def SubFits (o : Option Trap) : Prop := ∀ tr, o = some tr → tr.sub < 256

theorem subFits_none : SubFits none := fun _ h => nomatch h

theorem subFits_some {c : Cause} {n : Nat} (h : n < 256) : SubFits (some ⟨c, n⟩) := by
  rintro _ ⟨⟩
  exact h

theorem subFits_or {o o' : Option Trap} (h : SubFits o) (h' : SubFits o') : SubFits (o.or o') := by
  intro tr htr
  rcases Option.or_eq_some_iff.mp htr with ho | ⟨-, ho⟩
  · exact h tr ho
  · exact h' tr ho

theorem geometrySub_le {b : Buffer} {memBytes n : Nat} (h : geometrySub b memBytes = some n) : n ≤ 5 := by
  unfold geometrySub at h
  split_ifs at h <;> simp_all <;> omega

theorem subFits_checkSource (b : Buffer) (memBytes : Nat) : SubFits (checkSource b memBytes) := by
  intro tr h
  obtain ⟨n, hn, rfl⟩ := Option.map_eq_some_iff.mp h
  exact lt_of_le_of_lt (geometrySub_le hn) (by decide)

theorem subFits_checkDest (b : Buffer) (memBytes : Nat) : SubFits (checkDest b memBytes) := by
  intro tr h
  obtain ⟨n, hn, rfl⟩ := Option.map_eq_some_iff.mp h
  exact lt_of_le_of_lt (Nat.add_le_add_right (geometrySub_le hn) 16) (by decide)

theorem subFits_checkKernel (k sigma : Nat) : SubFits (checkKernel k sigma) := by
  unfold checkKernel
  split_ifs
  · exact subFits_some (by decide)
  · exact subFits_some (by decide)
  · exact subFits_some (by decide)
  · exact subFits_none

theorem subFits_checkSizes (src dst : Buffer) : SubFits (checkSizes src dst) := by
  unfold checkSizes
  split_ifs
  · exact subFits_some (by decide)
  · exact subFits_some (by decide)
  · exact subFits_some (by decide)
  · exact subFits_some (by decide)
  · exact subFits_none

theorem subFits_checkOverlap (src dst : Buffer) : SubFits (checkOverlap src dst) := by
  unfold checkOverlap
  split_ifs
  · exact subFits_some (by decide)
  · exact subFits_none

theorem subFits_checkTwoBuffers (src dst : Buffer) (memBytes : Nat) : SubFits (checkTwoBuffers src dst memBytes) :=
  subFits_or (subFits_or (subFits_checkSource src memBytes) (subFits_checkDest dst memBytes))
    (subFits_or (subFits_checkSizes src dst) (subFits_checkOverlap src dst))

/-- Every subcause VALIDATE can raise fits its byte of ERR (R261, R264 to R267). -/
theorem subFits_checkOf (i : Instr) (memBytes : Nat) : SubFits (checkOf i memBytes) := by
  cases i with
  | halt => exact subFits_none
  | box src dst _ => exact subFits_checkTwoBuffers src dst memBytes
  | tent src dst _ => exact subFits_checkTwoBuffers src dst memBytes
  | gbox src dst _ => exact subFits_checkTwoBuffers src dst memBytes
  | fgauss buf _ => exact subFits_checkDest buf memBytes
  | fgaussn buf _ => exact subFits_checkDest buf memBytes
  | gauss src dst k sigma =>
    exact subFits_or (subFits_or (subFits_checkSource src memBytes) (subFits_checkDest dst memBytes))
      (subFits_or (subFits_checkKernel k sigma) (subFits_or (subFits_checkSizes src dst) (subFits_checkOverlap src dst)))
  | median src dst _ => exact subFits_checkTwoBuffers src dst memBytes

theorem illegalSub_lt (e : Illegal) : illegalSub e < 256 := by cases e <;> decide

theorem nextCommand_of_fetch_fault {s : State} (h : s.memBytes < s.cp.toNat + 40) : s.nextCommand = none := by
  delta State.nextCommand
  rw [fetch_fault h]

theorem nextCommand_of_fetch {s : State} (h : s.cp.toNat + 40 ≤ s.memBytes) :
    s.nextCommand = (decode (s.mem.readDesc s.cp.toNat)).toOption := by
  delta State.nextCommand
  rw [fetch_ok h]

/-- A clear of IRQ_STAT does not touch the command at CP. -/
theorem writeIrqStat_nextCommand (v : Word) (s : State) : (writeIrqStat v s).nextCommand = s.nextCommand := by
  rcases Nat.lt_or_ge s.memBytes (s.cp.toNat + 40) with hf | hf
  · rw [nextCommand_of_fetch_fault hf, nextCommand_of_fetch_fault (s := writeIrqStat v s) hf]
  · rw [nextCommand_of_fetch hf, nextCommand_of_fetch (s := writeIrqStat v s) hf]
    rfl

/-- What a step from RUN can do: fault entry, HALT, or COMPLETE with the memory the passes of a validated command leave; the
latches may have been filled (spec 40_pipeline.md R140, R156, R157, spec 60_exceptions.md R269). -/
def RunStep (s t : State) : Prop :=
  (∃ tr d, tr.sub < 256 ∧ s.nextCommand ≠ some .halt ∧ t = { raiseTrap tr s with d := d }) ∨
    (∃ d, s.nextCommand = some .halt ∧ t = { enterHalted s with d := d }) ∨
    ∃ i d, checkOf i s.memBytes = none ∧
      t = { completeCommand s with d := d, mem := passesMemory (passesOf i) (coefOf i) s.mem }

/-- A step from RUN does one of these. -/
theorem step_runStep {s t : State} (hw : 0 < s.workers.length) (hr : s.runState = .run) (h : step s = .next t) :
    RunStep s t := by
  rcases Nat.lt_or_ge s.memBytes (s.cp.toNat + 40) with hf | hf
  · rw [step_of_fetch_fault hr hf] at h
    cases h
    exact .inl ⟨⟨.descriptorFault, 1⟩, s.d, by decide, by simp [nextCommand_of_fetch_fault hf], rfl⟩
  cases hd : decode (s.mem.readDesc s.cp.toNat) with
  | error e =>
    rw [step_of_illegal hr hf hd] at h
    cases h
    have hn : s.nextCommand = none := by
      rw [nextCommand_of_fetch hf, hd]
      rfl
    exact .inl ⟨illegalTrap e, _, illegalSub_lt e, by simp [hn], rfl⟩
  | ok i =>
    rw [step_of_command hr hf hd] at h
    have hn : s.nextCommand = some i := by
      rw [nextCommand_of_fetch hf, hd]
      rfl
    by_cases hi : i = .halt
    · subst hi
      cases h
      exact .inr (.inl ⟨_, hn, rfl⟩)
    · cases hc : checkOf i s.memBytes with
      | some tr =>
        rw [exec_traps hi (fetched s) hc] at h
        cases h
        exact .inl ⟨tr, _, subFits_checkOf i _ tr hc, by simpa [hn] using hi, rfl⟩
      | none =>
        rw [exec_completes hi (fetched s) hw (fetched_pending s) hc] at h
        cases h
        exact .inr (.inr ⟨i, _, hc, rfl⟩)

/-- Everything a step can do: nothing out of RUN, one of these in RUN. -/
theorem step_cases {s t : State} (hw : 0 < s.workers.length) (h : step s = .next t) :
    s.runState ≠ .run ∧ t = s ∨ s.runState = .run ∧ RunStep s t := by
  by_cases hr : s.runState = .run
  · exact .inr ⟨hr, step_runStep hw hr h⟩
  · rw [step_of_not_run hr] at h
    cases h
    exact .inl ⟨hr, rfl⟩

section
variable {s t : State} (hw : 0 < s.workers.length) (h : step s = .next t)
include hw h

/-- STATE after a step, and what was at CP (R34). -/
theorem step_runState :
    t.runState = s.runState ∨ s.runState = .run ∧
      (t.runState = .halted ∧ s.nextCommand = some .halt ∨ t.runState = .faulted ∧ s.nextCommand ≠ some .halt) := by
  obtain ⟨-, rfl⟩ | ⟨hr, ⟨tr, d, -, hn, rfl⟩ | ⟨d, hn, rfl⟩ | ⟨i, d, -, rfl⟩⟩ := step_cases hw h
  · exact .inl rfl
  · exact .inr ⟨hr, .inr ⟨rfl, hn⟩⟩
  · exact .inr ⟨hr, .inl ⟨rfl, hn⟩⟩
  · exact .inl rfl

/-- ERR after a step: kept, or written by fault entry (R30). -/
theorem step_err :
    t.err = s.err ∨ s.runState = .run ∧ t.runState = .faulted ∧ 1 ≤ bits t.err 3 0 ∧ bits t.err 3 0 ≤ 6 := by
  obtain ⟨-, rfl⟩ | ⟨hr, ⟨tr, d, hsub, -, rfl⟩ | ⟨d, -, rfl⟩ | ⟨i, d, -, rfl⟩⟩ := step_cases hw h
  · exact .inl rfl
  · have hcode : bits tr.errWord 3 0 = tr.cause.code := (errWord_layout hsub).1
    exact .inr ⟨hr, rfl, hcode ▸ one_le_code _, hcode ▸ code_le_six _⟩
  · exact .inl rfl
  · exact .inl rfl

/-- A step clears no bit of IRQ_STAT (R32). -/
theorem step_irqStat_sticky {k : Nat} (hk : k < 2) (hs : s.irqStat.getLsbD k = true) : t.irqStat.getLsbD k = true := by
  have hset (w : Word) : (irqStatNext s.irqStat 0#32 w).getLsbD k = true := by simp [getLsbD_irqStatNext _ _ _ hk, hs]
  obtain ⟨-, rfl⟩ | ⟨-, ⟨tr, d, -, -, rfl⟩ | ⟨d, -, rfl⟩ | ⟨i, d, -, rfl⟩⟩ := step_cases hw h
  · exact hs
  · exact hset faultBit
  · exact hset haltBit
  · exact hs

/-- A step from RUN sets the bit of the state it enters (R32). -/
theorem step_irqStat_set (hr : s.runState = .run) :
    (t.runState = .halted → t.irqStat.getLsbD 0 = true) ∧ (t.runState = .faulted → t.irqStat.getLsbD 1 = true) := by
  obtain ⟨hn, -⟩ | ⟨-, ⟨tr, d, -, -, rfl⟩ | ⟨d, -, rfl⟩ | ⟨i, d, -, rfl⟩⟩ := step_cases hw h
  · exact absurd hr hn
  · refine ⟨nofun, fun _ => (getLsbD_irqStatNext _ _ _ (by decide)).trans ?_⟩
    exact Bool.or_true _
  · refine ⟨fun _ => (getLsbD_irqStatNext _ _ _ (by decide)).trans ?_, nofun⟩
    exact Bool.or_true _
  · simp [hr]

end

/-- A step from RUN and the record of the run (log 10). -/
theorem runStep_runRecord {s t : State} (hr : s.runState = .run) (h : RunStep s t) :
    t.runStart = s.runStart ∧ t.runDone = if t.runState = .run then s.runDone + 1 else s.runDone := by
  obtain ⟨tr, d, -, -, rfl⟩ | ⟨d, -, rfl⟩ | ⟨i, d, -, rfl⟩ := h
  · simp
  · simp
  · simp [hr]

/-! ### What the other events at the boundary can do -/

/-- A step during which the host clears bits of IRQ_STAT is a step after the clear, which has no effect while `rst` is high
(R32, R300; log 14). -/
theorem step_of_clearing {v : Word} {s t : State} (h : onEvent (.engineWhileClearing v) s = .next t) :
    step s = .next t ∨ s.rst = false ∧ step (writeIrqStat v s) = .next t := by
  have h : step (regWrite 0x18 4 v s) = .next t := h
  rcases Bool.eq_false_or_eq_true s.rst with hrst | hrst
  · rw [regWrite_of_rst hrst] at h
    exact .inl h
  · rw [regWrite_irqStat hrst] at h
    exact .inr ⟨hrst, h⟩

/-- A register read changes nothing but the count of draws (R33; log 13). -/
theorem onEvent_regRead {offset size : Nat} {s t : State} (h : onEvent (.regRead offset size) s = .next t) :
    ∃ n, t = { s with draws := n } := by
  cases h
  exact regRead_after offset size s

/-- What a host read leaves: everything but the count of draws (log 13). -/
theorem hostRead_after {a : Nat} {s : State} {seen : Seen Byte} (h : hostRead a s = .ok seen) :
    ∃ n, seen.after = { s with draws := n } := by
  delta hostRead at h
  by_cases ha : s.memBytes ≤ a
  · rw [if_pos ha] at h
    cases h
  · rw [if_neg ha] at h
    by_cases hd : s.runState = .run ∧ listWrites s a = true
    · rw [if_pos hd] at h
      cases h
      exact ⟨s.draws + 1, rfl⟩
    · rw [if_neg hd] at h
      cases h
      exact ⟨s.draws, rfl⟩

/-- A host read that answers changes nothing but the count of draws. -/
theorem onEvent_hostRead {a : Nat} {s t : State} (h : onEvent (.hostRead a) s = .next t) :
    ∃ n, t = { s with draws := n } := by
  delta onEvent at h
  dsimp only at h
  cases hread : hostRead a s with
  | error f =>
    rw [hread] at h
    cases h
  | ok seen =>
    rw [hread] at h
    cases h
    exact hostRead_after hread

/-- A host write that answers writes its byte, which lies in memory (spec 20_memory.md R70, R72). -/
theorem onEvent_hostWrite {a : Nat} {b : Byte} {s t : State} (h : onEvent (.hostWrite a b) s = .next t) :
    a < s.memBytes ∧ t = { s with mem := s.mem.write a b } := by
  have h : hostWrite a b s = .next t := h
  delta hostWrite at h
  by_cases ha : s.memBytes ≤ a
  · rw [if_pos ha] at h
    cases h
  · rw [if_neg ha] at h
    by_cases hd : s.runState = .run ∧ listUses s a = true
    · rw [if_pos hd] at h
      cases h
    · rw [if_neg hd] at h
      cases h
      exact ⟨Nat.lt_of_not_le ha, rfl⟩

/-! ### The interrupt status and the transitions of STATE: O34, O35 -/

/-- Only a reset and a host write of 1 clear a set bit of IRQ_STAT (R32). -/
theorem onEvent_irqStat_sticky {e : Event} {s t : State} (hw : 0 < s.workers.length) (h : onEvent e s = .next t) {k : Nat}
    (hk : k < 2) (hs : s.irqStat.getLsbD k = true) (he : e ≠ .rstHigh)
    (hwrite : ∀ v, e = .regWrite 0x18 4 v → v.getLsbD k = false)
    (hclear : ∀ v, e = .engineWhileClearing v → v.getLsbD k = false) : t.irqStat.getLsbD k = true := by
  have hkept (v : Word) (hv : v.getLsbD k = false) : (writeIrqStat v s).irqStat.getLsbD k = true := by
    simp [getLsbD_irqStatNext _ _ _ hk, hs, hv]
  cases e with
  | engine => exact step_irqStat_sticky hw h hk hs
  | engineWhileClearing v =>
    rcases step_of_clearing h with h | ⟨-, h⟩
    · exact step_irqStat_sticky hw h hk hs
    · exact step_irqStat_sticky (s := writeIrqStat v s) hw h hk (hkept v (hclear v rfl))
  | regRead offset size =>
    obtain ⟨n, rfl⟩ := onEvent_regRead h
    exact hs
  | regWrite offset size v =>
    cases h
    obtain h | ⟨-, rfl, ⟨-, -, -, h⟩ | ⟨-, -, h⟩ | ⟨-, h⟩ | ⟨rfl, h⟩⟩ := regWrite_cases offset size v s <;> rw [h]
    · exact hs
    · exact hs
    · exact hs
    · exact hs
    · exact hkept v (hwrite v rfl)
  | hostRead a =>
    obtain ⟨n, rfl⟩ := onEvent_hostRead h
    exact hs
  | hostWrite a b =>
    obtain ⟨-, rfl⟩ := onEvent_hostWrite h
    exact hs
  | rstHigh => exact absurd rfl he
  | rstLow =>
    cases h
    exact hs

/-- Settles O34: the next IRQ_STAT is `irqStatNext`, in which the set wins, wherever an event writes it. -/
theorem interruptStatusSticky : Obligations.InterruptStatusSticky := by
  refine ⟨fun v s k hrst hk => ?_, fun v s t ⟨hw, _, _⟩ hr h => ?_,
    fun e s t k ⟨hw, _, _⟩ hk hs h he hwrite hclear => onEvent_irqStat_sticky hw h hk hs he hwrite hclear⟩
  · rw [regWrite_irqStat hrst]
    refine ⟨?_, (bits_31_2_eq_zero_iff _).mpr (toNat_and_irqMask_lt _)⟩
    simp [getLsbD_irqStatNext _ _ _ hk]
  · rcases h with h | h
    · exact step_irqStat_set hw h hr
    · rcases step_of_clearing h with h | ⟨-, h⟩
      · exact step_irqStat_set hw h hr
      · exact step_irqStat_set (s := writeIrqStat v s) hw h hr

/-- STATE after a step, also after one during which the host clears bits of IRQ_STAT (R32, R34). -/
theorem onEvent_engine_runState {e : Event} {s t : State} (he : e = .engine ∨ ∃ v, e = .engineWhileClearing v)
    (hw : 0 < s.workers.length) (h : onEvent e s = .next t) :
    t.runState = s.runState ∨ s.runState = .run ∧
      (t.runState = .halted ∧ s.nextCommand = some .halt ∨ t.runState = .faulted ∧ s.nextCommand ≠ some .halt) := by
  obtain rfl | ⟨v, rfl⟩ := he
  · exact step_runState hw h
  · rcases step_of_clearing h with h | ⟨-, h⟩
    · exact step_runState hw h
    · exact writeIrqStat_nextCommand v s ▸ step_runState (s := writeIrqStat v s) hw h

/-- Settles O35: STATE changes by a step (`step_runState`), by START and by reset only. -/
theorem runStateTransitions : Obligations.RunStateTransitions := by
  intro e s t ⟨hw, _, _⟩ h
  by_cases he : e = .engine ∨ ∃ v, e = .engineWhileClearing v
  · refine ⟨fun hreset => by simp [hreset] at he, fun _ => ?_⟩
    obtain h | ⟨hr, ⟨h, hn⟩ | ⟨h, hn⟩⟩ := onEvent_engine_runState he hw h
    · exact .inl h
    · exact .inr (.inr (.inl ⟨hr, h, hn, he⟩))
    · exact .inr (.inr (.inr ⟨hr, h, hn, he⟩))
  cases e with
  | engine => exact absurd (.inl rfl) he
  | engineWhileClearing v => exact absurd (.inr ⟨v, rfl⟩) he
  | regRead offset size =>
    obtain ⟨n, rfl⟩ := onEvent_regRead h
    exact ⟨nofun, fun _ => .inl rfl⟩
  | regWrite offset size v =>
    cases h
    refine ⟨nofun, fun _ => ?_⟩
    obtain h | ⟨-, rfl, ⟨rfl, hv, hr, h⟩ | ⟨-, -, h⟩ | ⟨-, h⟩ | ⟨-, h⟩⟩ := regWrite_cases offset size v s <;> rw [h]
    · exact .inl rfl
    · exact .inr (.inl ⟨hr, rfl, v, rfl, hv⟩)
    · exact .inl rfl
    · exact .inl rfl
    · exact .inl rfl
  | hostRead a =>
    obtain ⟨n, rfl⟩ := onEvent_hostRead h
    exact ⟨nofun, fun _ => .inl rfl⟩
  | hostWrite a b =>
    obtain ⟨-, rfl⟩ := onEvent_hostWrite h
    exact ⟨nofun, fun _ => .inl rfl⟩
  | rstHigh =>
    cases h
    exact ⟨fun _ => rfl, fun he => absurd rfl he⟩
  | rstLow =>
    cases h
    exact ⟨nofun, fun _ => .inl rfl⟩

/-! ### A validated command writes inside memory -/

/-- The pixel area, address by address (spec 20_memory.md R75). -/
theorem mem_pixelArea {b : Buffer} {a : Nat} :
    a ∈ pixelArea b ↔ ∃ row col ch k, InBounds b row col ch ∧ k < b.cw.bytes ∧ a = bufAddr b row col ch + k := by
  delta pixelArea componentBytes
  simp only [List.mem_flatMap, List.mem_map, List.mem_range]
  constructor
  · rintro ⟨row, hrow, col, hcol, ch, hch, k, hk, rfl⟩
    exact ⟨row, col, ch, k, ⟨hrow, hcol, hch⟩, hk, rfl⟩
  · rintro ⟨row, col, ch, k, ⟨hrow, hcol, hch⟩, hk, rfl⟩
    exact ⟨row, hrow, col, hcol, ch, hch, k, hk, rfl⟩

/-- The pixel area of a legal buffer lies in its footprint, hence in memory (R264, spec 20_memory.md R75). -/
theorem pixelArea_lt {b : Buffer} {memBytes a : Nat} (hb : Fits b memBytes) (ha : a ∈ pixelArea b) : a < memBytes := by
  obtain ⟨row, col, ch, k, ⟨hrow, hcol, hch⟩, hk, rfl⟩ := Iff.mp mem_pixelArea ha
  obtain ⟨-, -, hstride, hlen, -, hend⟩ := hb
  have hindex : row * b.stride + col * b.channels.count + ch + 1 ≤ b.len := by
    have hrows := Nat.mul_le_mul_right b.stride (Nat.succ_le_of_lt hrow)
    have hcols := Nat.mul_le_mul_right b.channels.count (Nat.succ_le_of_lt hcol)
    rw [Nat.succ_mul] at hrows hcols
    rw [Nat.mul_comm b.stride] at hlen
    omega
  have hbytes := Nat.mul_le_mul_right b.cw.bytes hindex
  rw [Nat.succ_mul] at hbytes
  simp only [bufAddr]
  omega

/-- The row and column passes of a two-buffer command are legal where its buffers are (spec 40_pipeline.md R150). -/
theorem fromSource_legal {src dst : Buffer} {memBytes : Nat} (h : LegalPair src dst memBytes) (f : LineFn) :
    ∀ p ∈ [Pass.row f src dst, .col f dst], LegalPass memBytes p := by
  obtain ⟨hsrc, hdst, hsize, hapart⟩ := h
  simp only [List.mem_cons, List.not_mem_nil, or_false]
  rintro p (rfl | rfl)
  · exact ⟨hsrc, hdst, hsize, .inr hapart⟩
  · exact hdst

/-- So are the row and column passes in place on a legal buffer. -/
theorem inPlace_legal {b : Buffer} {memBytes : Nat} (h : Fits b memBytes) (f : LineFn) :
    ∀ p ∈ [Pass.row f b b, .col f b], LegalPass memBytes p := by
  simp only [List.mem_cons, List.not_mem_nil, or_false]
  rintro p (rfl | rfl)
  · exact ⟨h, h, ⟨rfl, rfl, rfl, rfl⟩, .inl rfl⟩
  · exact h

/-- Where the checks of two buffers, alone and together, find nothing, the pair is legal (R264, R266, R267). -/
theorem legalPair_of_checks {src dst : Buffer} {memBytes : Nat}
    (heach : (checkSource src memBytes).or (checkDest dst memBytes) = none)
    (hboth : (checkSizes src dst).or (checkOverlap src dst) = none) : LegalPair src dst memBytes := by
  obtain ⟨hsrc, hdst⟩ := Option.or_eq_none_iff.mp heach
  obtain ⟨hsize, hapart⟩ := Option.or_eq_none_iff.mp hboth
  exact ⟨checkSource_eq_none.mp hsrc, checkDest_eq_none.mp hdst, checkSizes_eq_none.mp hsize, checkOverlap_eq_none.mp hapart⟩

theorem legalPair_of_checkTwoBuffers {src dst : Buffer} {memBytes : Nat} (h : checkTwoBuffers src dst memBytes = none) :
    LegalPair src dst memBytes := by
  obtain ⟨heach, hboth⟩ := Option.or_eq_none_iff.mp h
  exact legalPair_of_checks heach hboth

theorem legalPair_of_checkGauss {src dst : Buffer} {k sigma memBytes : Nat}
    (h : checkGauss src dst k sigma memBytes = none) : LegalPair src dst memBytes := by
  obtain ⟨heach, hrest⟩ := Option.or_eq_none_iff.mp h
  obtain ⟨-, hboth⟩ := Option.or_eq_none_iff.mp hrest
  exact legalPair_of_checks heach hboth

/-- Every pass of a command VALIDATE passes is on legal buffers (R271, spec 40_pipeline.md R150). -/
theorem passesOf_legal {i : Instr} {memBytes : Nat} (hc : checkOf i memBytes = none) :
    ∀ p ∈ passesOf i, LegalPass memBytes p := by
  cases i with
  | halt => exact nofun
  | box src dst r => exact fromSource_legal (legalPair_of_checkTwoBuffers hc) (.box r)
  | tent src dst r =>
    have h := legalPair_of_checkTwoBuffers hc
    exact List.forall_mem_append.mpr ⟨fromSource_legal h (.box r), inPlace_legal h.2.1 (.box r)⟩
  | gbox src dst r =>
    have h := legalPair_of_checkTwoBuffers hc
    have hagain := inPlace_legal h.2.1 (.box r)
    exact List.forall_mem_append.mpr ⟨List.forall_mem_append.mpr ⟨fromSource_legal h (.box r), hagain⟩, hagain⟩
  | fgauss buf r => exact inPlace_legal (checkDest_eq_none.mp hc) (.box r)
  | fgaussn buf r => exact inPlace_legal (checkDest_eq_none.mp hc) (.tent2 r)
  | gauss src dst k sigma => exact fromSource_legal (legalPair_of_checkGauss hc) .fir
  | median src dst r => exact List.forall_mem_singleton.mpr (legalPair_of_checkTwoBuffers hc)

/-- A sample of a line of a legal pass is a pixel of the buffer the pass writes (spec 40_pipeline.md R147). -/
theorem LegalPass.inBounds {memBytes : Nat} {p : Pass} (h : LegalPass memBytes p) {line j ch : Nat} (hl : line < p.lines)
    (hj : j < p.lineLength) (hch : ch < p.writes.channels.count) :
    InBounds p.writes (p.rowOf line j) (p.colOf line j) ch := by
  cases p with
  | row f a b =>
    obtain ⟨-, -, ⟨hwidth, hheight, -, -⟩, -⟩ := h
    exact ⟨hheight ▸ hl, hwidth ▸ hj, hch⟩
  | col f b => exact ⟨hj, hl, hch⟩
  | window r src dst =>
    obtain ⟨-, -, ⟨hwidth, hheight, -, -⟩, -⟩ := h
    exact ⟨hheight ▸ hl, hwidth ▸ hj, hch⟩

/-- The buffer a legal pass writes is legal. -/
theorem LegalPass.writes_fits {memBytes : Nat} {p : Pass} (h : LegalPass memBytes p) : Fits p.writes memBytes := by
  cases p with
  | row f a b => exact h.2.1
  | col f b => exact h
  | window r src dst => exact h.2.1

/-- A line writes only pixels of the buffer its pass writes (R159, spec 40_pipeline.md R148, R149). -/
theorem lineWrites_pixelArea {memBytes : Nat} {p : Pass} (hp : LegalPass memBytes p) {line : Nat} (hl : line < p.lines)
    {lb : List (List Nat)} {c : Host.Cell} (hc : c ∈ lineWrites p line lb) : c.1 ∈ pixelArea p.writes := by
  delta lineWrites storeCells cellsOf at hc
  simp only [List.mem_flatMap, List.mem_map, List.mem_range] at hc
  obtain ⟨j, hj, ch, hch, k, hk, rfl⟩ := hc
  exact Iff.mpr mem_pixelArea ⟨_, _, ch, k, hp.inBounds hl hj hch, hk, rfl⟩

/-- Every listed byte lies in a memory of `n` bytes (spec 20_memory.md R70). -/
def InsideMemory (n : Nat) (m : Memory) : Prop := ∀ c ∈ m, c.1 < n

theorem insideMemory_writeAll {n : Nat} {m : Memory} (hm : InsideMemory n m) {cs : List Host.Cell}
    (hcs : ∀ c ∈ cs, c.1 < n) : InsideMemory n (m.writeAll cs) := by
  intro c hc
  rcases mem_writeAll hc with h | h
  · exact hm c h
  · exact hcs c h

theorem insideMemory_write {n : Nat} {m : Memory} (hm : InsideMemory n m) {a : Nat} (ha : a < n) (b : Byte) :
    InsideMemory n (m.write a b) := by
  intro c hc
  rcases mem_write hc with h | rfl
  · exact hm c h
  · exact ha

theorem insideMemory_linesMemory {n : Nat} {p : Pass} (hp : LegalPass n p) (coef : List Nat) {order : List Nat}
    (ho : ∀ line ∈ order, line < p.lines) {m : Memory} (hm : InsideMemory n m) :
    InsideMemory n (linesMemory order p coef m) := by
  induction order generalizing m with
  | nil => exact hm
  | cons line order ih =>
    rw [linesMemory_cons]
    refine ih (fun l hl => ho l (by simp [hl])) (insideMemory_writeAll hm fun c hc => ?_)
    exact pixelArea_lt hp.writes_fits (lineWrites_pixelArea hp (ho line (by simp)) hc)

theorem insideMemory_passesMemory {n : Nat} {passes : List Pass} (hp : ∀ p ∈ passes, LegalPass n p) (coef : List Nat)
    {m : Memory} (hm : InsideMemory n m) : InsideMemory n (passesMemory passes coef m) := by
  induction passes generalizing m with
  | nil => exact hm
  | cons p passes ih =>
    exact ih (fun q hq => hp q (by simp [hq]))
      (insideMemory_linesMemory (hp p (by simp)) coef (fun line hl => List.mem_range.mp hl) hm)

/-- A command's destination is one of its buffers. -/
theorem mem_buffersOf_of_mem_destOf {i : Instr} {b : Buffer} (h : b ∈ destOf i) : b ∈ buffersOf i := by
  cases i with
  | halt => exact h
  | box src _ _ => exact List.mem_cons_of_mem src h
  | tent src _ _ => exact List.mem_cons_of_mem src h
  | gbox src _ _ => exact List.mem_cons_of_mem src h
  | fgauss _ _ => exact h
  | fgaussn _ _ => exact h
  | gauss src _ _ _ => exact List.mem_cons_of_mem src h
  | median src _ _ => exact List.mem_cons_of_mem src h

/-- The command a reset abandons is one VALIDATE passes (R301). -/
theorem checkOf_abandonedCommand {s : State} {i : Instr} (h : abandonedCommand s = some i) :
    checkOf i s.memBytes = none := by
  delta abandonedCommand at h
  exact Option.isNone_iff_eq_none.mp (Option.filter_eq_some_iff.mp h).2

/-- The bytes a reset cuts lie in the pixel area of the abandoned command's destination (R301). -/
theorem mem_cutCells {s : State} {c : Host.Cell} (h : c ∈ cutCells s) :
    ∃ i b, abandonedCommand s = some i ∧ b ∈ destOf i ∧ c.1 ∈ pixelArea b := by
  delta cutCells at h
  cases hr : s.runState with
  | run =>
    rw [hr] at h
    dsimp only at h
    cases hi : abandonedCommand s with
    | some i =>
      rw [hi] at h
      obtain ⟨b, hb, hc⟩ := List.mem_flatMap.mp h
      obtain ⟨a, ha, rfl⟩ := List.mem_map.mp hc
      exact ⟨i, b, rfl, hb, ha⟩
    | none =>
      rw [hi] at h
      cases h
  | idle =>
    rw [hr] at h
    cases h
  | halted =>
    rw [hr] at h
    cases h
  | faulted =>
    rw [hr] at h
    cases h

/-- The bytes a reset cuts lie in memory. -/
theorem cutCells_lt {s : State} {c : Host.Cell} (h : c ∈ cutCells s) : c.1 < s.memBytes := by
  obtain ⟨i, b, hi, hb, hc⟩ := mem_cutCells h
  exact pixelArea_lt (checkOf_eq_none (checkOf_abandonedCommand hi) b (mem_buffersOf_of_mem_destOf hb)) hc

/-! ### The invariant: O25 to O27 -/

/-- Settles O26: every conjunct is about literals. -/
theorem resetHasInv : Obligations.ResetHasInv := by
  unfold Obligations.ResetHasInv
  decide

theorem add_forty_mod_four {w : Word} (h : w.toNat % 4 = 0) : (w + 40#32).toNat % 4 = 0 := by
  rw [BitVec.toNat_add]
  simp only [BitVec.toNat_ofNat]
  omega

/-- One more completed command moves the record of the run on by one descriptor (R24; log 10). -/
theorem runRecord_succ (start : Word) (n : Nat) :
    start + BitVec.ofNat 32 (40 * n) + 40#32 = start + BitVec.ofNat 32 (40 * (n + 1)) := by
  rw [Nat.mul_succ, BitVec.ofNat_add, BitVec.add_assoc]

section
variable {s t : State} (hi : Inv s)
include hi

theorem Inv.workers_pos : 0 < s.workers.length := by
  obtain ⟨⟨-, -, hw⟩, -⟩ := hi
  exact hw

theorem Inv.acceptStart (hrst : s.rst = false) : Inv (acceptStart s) := by
  obtain ⟨hpar, hwf, hin, hcp, hen, hst, -, -, -, -, -, hws, hcoef⟩ := hi
  exact ⟨hpar, hwf, hin, hcp, hen, hst, by simp, by simp [bits], by simp [hrst], by simp, rfl, hws, hcoef⟩

theorem Inv.cpWritten (hr : s.runState ≠ .run) (hrst : s.rst = false) (v : Word) :
    Inv { s with cp := v &&& 0xFFFFFFFC#32 } := by
  obtain ⟨hpar, hwf, hin, -, hen, hst, herr, hlay, -, -, hseq, hws, hcoef⟩ := hi
  have hcp : (v &&& 0xFFFFFFFC#32).toNat % 4 = 0 := by
    rw [toNat_drop_low_bits]
    exact Nat.mul_mod_left _ 4
  exact ⟨hpar, hwf, hin, hcp, hen, hst, herr, hlay, by simp [hrst], fun h => absurd h hr, hseq, hws, hcoef⟩

theorem Inv.irqEnWritten (hrst : s.rst = false) (v : Word) : Inv (writeIrqEn v s) := by
  obtain ⟨hpar, hwf, hin, hcp, -, hst, herr, hlay, -, hrun, hseq, hws, hcoef⟩ := hi
  exact ⟨hpar, hwf, hin, hcp, toNat_and_irqMask_lt _, hst, herr, hlay, by simp [hrst], hrun, hseq, hws, hcoef⟩

theorem Inv.irqStatWritten (hrst : s.rst = false) (v : Word) : Inv (writeIrqStat v s) := by
  obtain ⟨hpar, hwf, hin, hcp, hen, -, herr, hlay, -, hrun, hseq, hws, hcoef⟩ := hi
  exact ⟨hpar, hwf, hin, hcp, hen, toNat_and_irqMask_lt _, herr, hlay, by simp [hrst], hrun, hseq, hws, hcoef⟩

theorem Inv.memWritten {a : Nat} (ha : a < s.memBytes) (b : Byte) : Inv { s with mem := s.mem.write a b } := by
  obtain ⟨hpar, hwf, hin, hrest⟩ := hi
  exact ⟨hpar, write_wf hwf a b, insideMemory_write hin ha b, hrest⟩

theorem Inv.assertReset : Inv (assertReset s) := by
  obtain ⟨⟨hmin, hmax, hworkers⟩, hwf, hin, -⟩ := hi
  refine ⟨⟨hmin, hmax, by simpa using hworkers⟩, writeAll_wf hwf _, insideMemory_writeAll hin fun _ => cutCells_lt, ?_⟩
  exact ⟨rfl, by simp, by simp, by simp, by simp [bits], by simp, nofun, rfl, by simp, rfl⟩

theorem Inv.releaseReset : Inv (releaseReset s) := by
  obtain ⟨hpar, hwf, hin, hcp, hen, hst, herr, hlay, -, hrun, hseq, hws, hcoef⟩ := hi
  exact ⟨hpar, hwf, hin, hcp, hen, hst, herr, hlay, by simp, hrun, hseq, hws, hcoef⟩

/-- A step from RUN keeps the invariant: `rst` is low there, since it holds the engine in IDLE (R300). -/
theorem Inv.runStep (hr : s.runState = .run) (h : RunStep s t) : Inv t := by
  obtain ⟨hpar, hwf, hin, hcp, hen, hst, herr, hlay, hrst, hrun, hseq, hws, hcoef⟩ := hi
  have hlow : s.rst ≠ true := fun hrst' => by simpa [hr] using (hrst hrst').1
  have herr0 : s.err = 0#32 := by simpa [hr] using herr
  obtain ⟨tr, d, hsub, -, rfl⟩ | ⟨d, -, rfl⟩ | ⟨i, d, hc, rfl⟩ := h
  · obtain ⟨hcode, h7, h31⟩ := errWord_layout hsub
    exact ⟨hpar, hwf, hin, hcp, hen, toNat_and_irqMask_lt _, iff_of_true (errWord_ne_zero hsub) rfl,
      ⟨hcode.trans_le (code_le_six _), h7, h31⟩, fun h => absurd h hlow, nofun, rfl, hws, hcoef⟩
  · exact ⟨hpar, hwf, hin, hcp, hen, toNat_and_irqMask_lt _, iff_of_false (by simp [herr0]) nofun, hlay,
      fun h => absurd h hlow, nofun, rfl, hws, hcoef⟩
  · obtain ⟨hmin, hmax, hworkers⟩ := hpar
    refine ⟨⟨hmin, hmax, by simpa using hworkers⟩, passesMemory_wf hwf _ _,
      insideMemory_passesMemory (passesOf_legal hc) _ hin, add_forty_mod_four hcp, hen, hst, herr, hlay,
      fun h => absurd h hlow, fun h => ?_, ?_, by simp, rfl⟩
    · show s.cp + 40#32 = s.runStart + BitVec.ofNat 32 (40 * (s.runDone + 1))
      rw [hrun hr, runRecord_succ]
    · show Sequencer.empty .fetch = Sequencer.empty (restPhase s.runState)
      rw [hr]
      rfl

theorem Inv.step (h : step s = .next t) : Inv t := by
  obtain ⟨-, rfl⟩ | ⟨hr, h⟩ := step_cases hi.workers_pos h
  · exact hi
  · exact hi.runStep hr h

theorem Inv.regWrite (offset size : Nat) (v : Word) : Inv (regWrite offset size v s) := by
  obtain h | ⟨hrst, -, ⟨-, -, -, h⟩ | ⟨-, hr, h⟩ | ⟨-, h⟩ | ⟨-, h⟩⟩ := regWrite_cases offset size v s <;> rw [h]
  · exact hi
  · exact hi.acceptStart hrst
  · exact hi.cpWritten hr hrst v
  · exact hi.irqEnWritten hrst v
  · exact hi.irqStatWritten hrst v

end

/-- Settles O25: `step_cases`, with `Inv.runStep` for the step from RUN. -/
theorem stepKeepsInv : Obligations.StepKeepsInv := fun _ _ hi h => Inv.step hi h

/-- Settles O27: one rule of the section above for each event. -/
theorem eventsKeepInv : Obligations.EventsKeepInv := by
  intro e s t hi h
  cases e with
  | engine => exact hi.step h
  | engineWhileClearing v => exact (hi.regWrite 0x18 4 v).step h
  | regRead offset size =>
    obtain ⟨n, rfl⟩ := onEvent_regRead h
    exact hi
  | regWrite offset size v =>
    cases h
    exact hi.regWrite offset size v
  | hostRead a =>
    obtain ⟨n, rfl⟩ := onEvent_hostRead h
    exact hi
  | hostWrite a b =>
    obtain ⟨ha, rfl⟩ := onEvent_hostWrite h
    exact hi.memWritten ha b
  | rstHigh =>
    cases h
    exact hi.assertReset
  | rstLow =>
    cases h
    exact hi.releaseReset

/-! ### ERR and CP: O30, O32 -/

/-- Who writes ERR (R30). -/
theorem onEvent_err {e : Event} {s t : State} (hw : 0 < s.workers.length) (h : onEvent e s = .next t) :
    t.err = s.err ∨ (s.runState = .run ∧ t.runState = .faulted ∧ 1 ≤ bits t.err 3 0 ∧ bits t.err 3 0 ≤ 6) ∨
      (t.err = 0#32 ∧ (e = .rstHigh ∨ (s.runState ≠ .run ∧ t.runState = .run ∧ ∃ v, e = .regWrite 0x04 4 v))) := by
  cases e with
  | engine => exact (step_err hw h).imp_right .inl
  | engineWhileClearing v =>
    rcases step_of_clearing h with h | ⟨-, h⟩
    · exact (step_err hw h).imp_right .inl
    · exact (step_err (s := writeIrqStat v s) hw h).imp_right .inl
  | regRead offset size =>
    obtain ⟨n, rfl⟩ := onEvent_regRead h
    exact .inl rfl
  | regWrite offset size v =>
    cases h
    obtain h | ⟨-, rfl, ⟨rfl, -, hr, h⟩ | ⟨-, -, h⟩ | ⟨-, h⟩ | ⟨-, h⟩⟩ := regWrite_cases offset size v s <;> rw [h]
    · exact .inl rfl
    · exact .inr (.inr ⟨rfl, .inr ⟨hr, rfl, v, rfl⟩⟩)
    · exact .inl rfl
    · exact .inl rfl
    · exact .inl rfl
  | hostRead a =>
    obtain ⟨n, rfl⟩ := onEvent_hostRead h
    exact .inl rfl
  | hostWrite a b =>
    obtain ⟨-, rfl⟩ := onEvent_hostWrite h
    exact .inl rfl
  | rstHigh =>
    cases h
    exact .inr (.inr ⟨rfl, .inl rfl⟩)
  | rstLow =>
    cases h
    exact .inl rfl

/-- Settles O30: the layout and the equivalence are the invariant's, which every event keeps. -/
theorem errRegister : Obligations.ErrRegister := by
  have hlayout (s : State) (hi : Inv s) :
      bits s.err 7 4 = 0 ∧ bits s.err 31 16 = 0 ∧ (s.err ≠ 0#32 ↔ s.runState = .faulted) := by
    obtain ⟨-, -, -, -, -, -, herr, ⟨-, h7, h31⟩, -⟩ := hi
    exact ⟨h7, h31, herr⟩
  refine ⟨fun v s => ⟨?_, regWrite_elsewhere (by decide) 4 v s⟩, hlayout, fun e s t hi h => ?_⟩
  · rw [regRead_word rfl (.inl (by decide))]
    rfl
  · obtain ⟨h7, h31, herr⟩ := hlayout t (eventsKeepInv e s t hi h)
    exact ⟨h7, h31, herr, onEvent_err hi.workers_pos h⟩

/-- Settles O32: the rules of the port for CP, and the invariant's record of the run. -/
theorem commandPointerPort : Obligations.CommandPointerPort := by
  intro v s
  refine ⟨fun hr => regRead_word rfl (.inr hr), fun hr hrst => ⟨⟨v &&& 0xFFFFFFFC#32, toNat_drop_low_bits v, ?write⟩, ?start⟩,
    fun hr => ⟨regWrite_cp_run hr v, Config.cpChoice s.draws % (s.runDone + 1), ?bound, ?read⟩, fun t hi hr h => ?record⟩
  case write => rw [regWrite_cp hrst, writeCp_not_run hr]
  case start =>
    rw [regWrite_ctrl hrst, writeCtrl_start rfl hr]
    exact ⟨rfl, rfl⟩
  case bound => exact Nat.lt_succ_iff.mp (Nat.mod_lt _ (Nat.succ_pos _))
  case read =>
    rw [regRead_cp_run hr]
    rfl
  case record =>
    have hrecord := runStep_runRecord hr (step_runStep (Inv.workers_pos hi) hr h)
    obtain ⟨-, -, -, -, -, -, -, -, -, hrun, -⟩ := hi
    exact ⟨hrun hr, hrecord⟩

end Sys2Proof.Machine
end

