-- ==== Sys2Proof/Proofs/Memory.lean ====
section
/-! SUPPORT. The rules of spec 20_memory.md: `MemRead` and `MemWrite` byte by byte. -/

namespace Sys2Proof.Machine

/-- Little-endian as a sum (R71, R72). -/
theorem natOfBytes_map_range (f : Nat → Byte) (n : Nat) :
    natOfBytes ((List.range n).map f) = ((List.range n).map fun i => (f i).toNat * 256 ^ i).sum := by
  induction n generalizing f with
  | zero => rfl
  | succ n ih =>
    have hrest : ((List.range n).map fun i => (f (i + 1)).toNat * 256 ^ (i + 1)).sum =
        256 * ((List.range n).map fun i => (f (i + 1)).toNat * 256 ^ i).sum := by
      rw [← List.sum_map_mul_left]
      simp only [pow_succ', Nat.mul_left_comm]
    rw [List.range_succ_eq_map, List.map_cons, List.map_map, List.map_cons, List.map_map, List.sum_cons, natOfBytes,
      ih (f ∘ Nat.succ), pow_zero, Nat.mul_one]
    exact congrArg _ hrest.symm

/-- `MemRead` as the sum of R72, for every length. -/
theorem readNat_eq_sum (m : Memory) (a n : Nat) :
    m.readNat a n = ((List.range n).map fun i => (m.read (a + i)).toNat * 256 ^ i).sum :=
  natOfBytes_map_range (fun i => m.read (a + i)) n

/-- Byte `i` of a natural (R71, R72). -/
theorem bytesOfNat_eq_map_range (n v : Nat) :
    bytesOfNat n v = (List.range n).map fun i => BitVec.ofNat 8 (v / 256 ^ i) := by
  induction n generalizing v with
  | zero => rfl
  | succ n ih => simp [bytesOfNat, ih, List.range_succ_eq_map, Nat.div_div_eq_div_mul, pow_succ']

/-- The writes of `MemWrite` name the addresses `a .. a + n - 1` in order. -/
theorem cellsOf_map_fst (a n v : Nat) : (cellsOf a n v).map (·.1) = (List.range n).map (a + ·) := by
  simp [cellsOf]

/-- A byte that `MemWrite` writes (R72). -/
theorem read_writeAll_cellsOf {m : Memory} (hm : m.wf) (a v : Nat) {n i : Nat} (hi : i < n) :
    (m.writeAll (cellsOf a n v)).read (a + i) = BitVec.ofNat 8 (v / 256 ^ i) := by
  have hnodup : ((cellsOf a n v).map (·.1)).Nodup := by
    rw [cellsOf_map_fst]
    exact List.nodup_range.map (add_right_injective a)
  have hmem : (a + i, BitVec.ofNat 8 (v / 256 ^ i)) ∈ cellsOf a n v :=
    List.mem_map.mpr ⟨i, List.mem_range.mpr hi, rfl⟩
  exact read_writeAll_mem hm hnodup hmem

/-- A byte that `MemWrite` does not write (R72). -/
theorem read_writeAll_cellsOf_other {m : Memory} (hm : m.wf) {a n x : Nat} (v : Nat) (hx : x < a ∨ a + n ≤ x) :
    (m.writeAll (cellsOf a n v)).read x = m.read x := by
  refine read_writeAll_other hm fun c hc => ?_
  obtain ⟨i, hi, rfl⟩ := List.mem_map.mp hc
  have hi := List.mem_range.mp hi
  show a + i ≠ x
  omega

/-- What `MemWrite` leaves in its bytes is the encoding of the value. -/
theorem bytesAt_writeAll_cellsOf {m : Memory} (hm : m.wf) (a n v : Nat) :
    (m.writeAll (cellsOf a n v)).bytesAt a n = bytesOfNat n v := by
  rw [bytesOfNat_eq_map_range]
  exact List.map_congr_left fun i hi => read_writeAll_cellsOf hm a v (List.mem_range.mp hi)

/-- `MemRead` after `MemWrite`, for every value (R72). -/
theorem readNat_writeAll_cellsOf {m : Memory} (hm : m.wf) (a n v : Nat) :
    (m.writeAll (cellsOf a n v)).readNat a n = v % 256 ^ n := by
  rw [Memory.readNat, bytesAt_writeAll_cellsOf hm, natOfBytes_bytesOfNat]

/-- Settles O5: the rules above hold for every length `n`, so for 1, 2 and 4. -/
theorem memWriteThenRead : Obligations.MemWriteThenRead := by
  refine ⟨fun m a n _ => readNat_eq_sum m a n, fun m a n v hm _ hv => ⟨?value, fun i hi => ?bytes, fun x hx => ?frame⟩⟩
  case value => rw [readNat_writeAll_cellsOf hm, Nat.mod_eq_of_lt hv]
  case bytes => rw [read_writeAll_cellsOf hm a v hi, BitVec.toNat_ofNat]
  case frame => exact read_writeAll_cellsOf_other hm v hx

end Sys2Proof.Machine
end

