-- ==== Sys2Proof/Proofs/Encoding.lean ====
section
/-! SUPPORT. The rules of spec 30_encoding.md: which ten words are a command and which command they are (`Desc.command`), what
the encoder's words hold, and that encoding a decoded command gives its words back. -/

namespace Sys2Proof

open Laws

/-! ### The decoder: three clauses, then the command of the opcode -/

/-- Clause (b) of R108 finds nothing. -/
abbrev Desc.ReservedZero (d : Desc) : Prop := d.reserved = 0 ∧ (d.opcode = 0 → bits d.w0 31 8 = 0)

/-- Clause (c) of R108 finds nothing: what the opcode does not use is zero. -/
abbrev Desc.UnusedZero (d : Desc) : Prop :=
  (d.opcode ≠ 0 → d.opcode ≠ 6 → d.w9 = 0#32) ∧
    (d.opcode = 4 ∨ d.opcode = 5 → d.w1 = 0#32 ∧ d.w2 = 0#32 ∧ d.w3 = 0#32 ∧ d.w4 = 0#32 ∧ bits d.w0 9 8 = 0)

/-- The command of a legal descriptor, by its opcode alone (R107). -/
def Desc.command (d : Desc) : Instr :=
  match d.opcode with
  | 1 => .box d.srcBuffer d.dstBuffer d.param
  | 2 => .tent d.srcBuffer d.dstBuffer d.param
  | 3 => .gbox d.srcBuffer d.dstBuffer d.param
  | 4 => .fgauss d.dstBuffer d.param
  | 5 => .fgaussn d.dstBuffer d.param
  | 6 => .gauss d.srcBuffer d.dstBuffer d.param d.w9.toNat
  | 7 => .median d.srcBuffer d.dstBuffer d.param
  | _ => .halt

/-- The eight opcodes that are assigned (R107). -/
theorem Desc.opcode_cases {d : Desc} (h : d.opcode ≤ 7) :
    d.opcode = 0 ∨ d.opcode = 1 ∨ d.opcode = 2 ∨ d.opcode = 3 ∨ d.opcode = 4 ∨ d.opcode = 5 ∨ d.opcode = 6 ∨
      d.opcode = 7 := by
  omega

/-- Clause (a) of R108. -/
theorem decode_of_opcode {d : Desc} (h : 7 < d.opcode) : decode d = .error .opcode := if_pos h

/-- Clause (b) of R108. -/
theorem decode_of_not_reservedZero {d : Desc} (ho : d.opcode ≤ 7) (h : ¬ d.ReservedZero) :
    decode d = .error .reservedBits := by
  unfold decode
  rw [if_neg (by omega)]
  by_cases hr : d.reserved = 0
  · have hhalt : d.opcode = 0 ∧ bits d.w0 31 8 ≠ 0 := by tauto
    rw [if_neg (not_not.mpr hr), hhalt.1]
    exact if_pos hhalt.2
  · exact if_pos hr

theorem Desc.withoutSigma_eq (d : Desc) (i : Instr) :
    d.withoutSigma i = if d.w9 = 0#32 then .ok i else .error .mustBeZero := by
  simp [Desc.withoutSigma, ite_not]

theorem Desc.inPlace_eq (d : Desc) (i : Instr) :
    d.inPlace i =
      if d.w9 = 0#32 ∧ d.w1 = 0#32 ∧ d.w2 = 0#32 ∧ d.w3 = 0#32 ∧ d.w4 = 0#32 ∧ bits d.w0 9 8 = 0 then .ok i
      else .error .mustBeZero := by
  unfold Desc.inPlace Desc.hasSource
  split_ifs <;> simp_all

/-- Past clauses (a) and (b), clause (c) decides (R108). -/
theorem decode_of_reservedZero {d : Desc} (ho : d.opcode ≤ 7) (hr : d.ReservedZero) :
    decode d = if d.UnusedZero then .ok d.command else .error .mustBeZero := by
  obtain ⟨hres, hhalt⟩ := hr
  unfold decode Desc.command
  rw [if_neg (by omega), if_neg (not_not.mpr hres)]
  obtain h | h | h | h | h | h | h | h := Desc.opcode_cases ho
  · simp [h, hhalt h, Desc.UnusedZero]
  · simp [h, Desc.UnusedZero, Desc.withoutSigma_eq]
  · simp [h, Desc.UnusedZero, Desc.withoutSigma_eq]
  · simp [h, Desc.UnusedZero, Desc.withoutSigma_eq]
  · simp [h, Desc.UnusedZero, Desc.inPlace_eq]
  · simp [h, Desc.UnusedZero, Desc.inPlace_eq]
  · simp [h, Desc.UnusedZero]
  · simp [h, Desc.UnusedZero, Desc.withoutSigma_eq]

/-- The decoder accepts exactly what no clause of R108 speaks against. -/
theorem decode_eq_ok_iff {d : Desc} {i : Instr} :
    decode d = .ok i ↔ d.opcode ≤ 7 ∧ d.ReservedZero ∧ d.UnusedZero ∧ d.command = i := by
  by_cases ho : d.opcode ≤ 7
  · by_cases hr : d.ReservedZero
    · by_cases hu : d.UnusedZero
      · rw [decode_of_reservedZero ho hr, if_pos hu]
        exact ⟨fun h => ⟨ho, hr, hu, Except.ok.inj h⟩, fun ⟨_, _, _, h⟩ => congrArg _ h⟩
      · rw [decode_of_reservedZero ho hr, if_neg hu]
        simp [hu]
    · rw [decode_of_not_reservedZero ho hr]
      simp [hr]
  · rw [decode_of_opcode (by omega)]
    simp [ho]

/-- The command has the descriptor's opcode (R107). -/
theorem Desc.command_opcode {d : Desc} (ho : d.opcode ≤ 7) : d.command.opcode = d.opcode := by
  unfold Desc.command
  obtain h | h | h | h | h | h | h | h := Desc.opcode_cases ho <;> rw [h] <;> rfl

/-! ### The fields of a word, from the encoder to the decoder -/

@[simp] theorem channelsOf_bit (c : Channels) : channelsOf c.bit = c := by cases c <;> rfl

@[simp] theorem compWidthOf_bit (c : CompWidth) : compWidthOf c.bit = c := by cases c <;> rfl

theorem bit_channelsOf {n : Nat} (h : n < 2) : (channelsOf n).bit = n := by interval_cases n <;> rfl

theorem bit_compWidthOf {n : Nat} (h : n < 2) : (compWidthOf n).bit = n := by interval_cases n <;> rfl

theorem Buffer.wf_iff {b : Buffer} :
    b.wf = true ↔
      b.base < 4294967296 ∧ b.stride < 4294967296 ∧ b.len < 4294967296 ∧ b.width < 65536 ∧ b.height < 65536 := by
  simp [Buffer.wf, and_assoc]

theorem paramWf_iff {p : Nat} : paramWf p = true ↔ p < 65536 := decide_eq_true_iff

theorem sigmaWf_iff {v : Nat} : sigmaWf v = true ↔ v < 4294967296 := decide_eq_true_iff

/-- A number that fits a word is read back from it (R103 to R105). -/
theorem toNat_ofNat_of_lt {n : Nat} (h : n < 4294967296) : (BitVec.ofNat 32 n).toNat = n := by
  rw [BitVec.toNat_ofNat]
  exact Nat.mod_eq_of_lt h

/-- Both halves of a dimensions word are read back (R101). -/
theorem bits_dimsWord {b : Buffer} (hw : b.width < 65536) (hh : b.height < 65536) :
    bits (dimsWord b) 15 0 = b.width ∧ bits (dimsWord b) 31 16 = b.height := by
  simp only [bits, dimsWord, BitVec.toNat_ofNat]
  omega

/-- The operand fields of a two-buffer command's `CMD` are read back (R102). -/
theorem bits_cmdWord {opcode param : Nat} (src dst : Buffer) (ho : opcode < 256) (hp : param < 65536) :
    bits (cmdWord opcode src dst param) 8 8 = src.channels.bit ∧ bits (cmdWord opcode src dst param) 9 9 = src.cw.bit ∧
      bits (cmdWord opcode src dst param) 10 10 = dst.channels.bit ∧
      bits (cmdWord opcode src dst param) 11 11 = dst.cw.bit ∧ bits (cmdWord opcode src dst param) 31 16 = param := by
  have h1 := TableRow.channels_bit_lt src.channels
  have h2 := TableRow.compWidth_bit_lt src.cw
  have h3 := TableRow.channels_bit_lt dst.channels
  have h4 := TableRow.compWidth_bit_lt dst.cw
  simp only [bits, cmdWord, BitVec.toNat_ofNat]
  omega

/-- The operand fields of an in-place command's `CMD` are read back (R102). -/
theorem bits_cmdWordInPlace {opcode param : Nat} (buf : Buffer) (ho : opcode < 256) (hp : param < 65536) :
    bits (cmdWordInPlace opcode buf param) 10 10 = buf.channels.bit ∧
      bits (cmdWordInPlace opcode buf param) 11 11 = buf.cw.bit ∧
      bits (cmdWordInPlace opcode buf param) 31 16 = param := by
  have h1 := TableRow.channels_bit_lt buf.channels
  have h2 := TableRow.compWidth_bit_lt buf.cw
  simp only [bits, cmdWordInPlace, BitVec.toNat_ofNat]
  omega

/-- The operands of a two-buffer command are read back from its words (R101, R102). -/
theorem encodeTwo_operands {opcode param sigma : Nat} {src dst : Buffer} (ho : opcode < 256)
    (h : (src.wf && dst.wf && paramWf param) = true) :
    (encodeTwo opcode src dst param sigma).srcBuffer = src ∧ (encodeTwo opcode src dst param sigma).dstBuffer = dst ∧
      (encodeTwo opcode src dst param sigma).param = param := by
  simp only [Bool.and_eq_true, Buffer.wf_iff, paramWf_iff] at h
  obtain ⟨⟨⟨hsb, hss, hsl, hsw, hsh⟩, hdb, hds, hdl, hdw, hdh⟩, hp⟩ := h
  obtain ⟨hsc, hsu, hdc, hdu, hparam⟩ := bits_cmdWord src dst ho hp
  refine ⟨?_, ?_, hparam⟩
  · simp only [Desc.srcBuffer, encodeTwo, toNat_ofNat_of_lt, bits_dimsWord, channelsOf_bit, compWidthOf_bit, *]
  · simp only [Desc.dstBuffer, encodeTwo, toNat_ofNat_of_lt, bits_dimsWord, channelsOf_bit, compWidthOf_bit, *]

/-- The operands of an in-place command are read back from its words (R101, R102). -/
theorem encodeInPlace_operands {opcode param : Nat} {buf : Buffer} (ho : opcode < 256)
    (h : (buf.wf && paramWf param) = true) :
    (encodeInPlace opcode buf param).dstBuffer = buf ∧ (encodeInPlace opcode buf param).param = param := by
  simp only [Bool.and_eq_true, Buffer.wf_iff, paramWf_iff] at h
  obtain ⟨⟨hbb, hbs, hbl, hbw, hbh⟩, hp⟩ := h
  obtain ⟨hc, hu, hparam⟩ := bits_cmdWordInPlace buf ho hp
  refine ⟨?_, hparam⟩
  simp only [Desc.dstBuffer, encodeInPlace, toNat_ofNat_of_lt, bits_dimsWord, channelsOf_bit, compWidthOf_bit, *]

/-! ### Decoding what was encoded: O1 -/

/-- The rows of the opcode table together. -/
theorem encode_tableRow (i : Instr) : TableRow.Statement i := by
  cases i with
  | halt => exact TableRow.halt
  | box src dst r => exact TableRow.box src dst r
  | tent src dst r => exact TableRow.tent src dst r
  | gbox src dst r => exact TableRow.gbox src dst r
  | fgauss buf r => exact TableRow.fgauss buf r
  | fgaussn buf r => exact TableRow.fgaussn buf r
  | gauss src dst k sigma => exact TableRow.gauss src dst k sigma
  | median src dst r => exact TableRow.median src dst r

theorem encode_opcode (i : Instr) : (encode i).opcode = i.opcode := (encode_tableRow i).1

theorem Instr.opcode_le (i : Instr) : i.opcode ≤ 7 := by cases i <;> simp [Instr.opcode]

theorem Instr.opcode_eq_zero {i : Instr} : i.opcode = 0 ↔ i = .halt := by cases i <;> simp [Instr.opcode]

/-- The encoder sets no reserved bit (R110). -/
theorem encode_reservedZero (i : Instr) : (encode i).ReservedZero := by
  obtain ⟨-, hreserved, -⟩ := encode_tableRow i
  refine ⟨hreserved, fun h => ?_⟩
  rw [encode_opcode, Instr.opcode_eq_zero] at h
  subst h
  rfl

/-- The encoder leaves zero what the opcode does not use (R110). -/
theorem encode_unusedZero (i : Instr) : (encode i).UnusedZero := by
  obtain ⟨-, -, hsource⟩ := encode_tableRow i
  unfold Desc.UnusedZero
  rw [encode_opcode]
  cases i with
  | halt => exact ⟨fun h => absurd rfl h, nofun⟩
  | box src dst r => exact ⟨fun _ _ => rfl, nofun⟩
  | tent src dst r => exact ⟨fun _ _ => rfl, nofun⟩
  | gbox src dst r => exact ⟨fun _ _ => rfl, nofun⟩
  | fgauss buf r => exact ⟨fun _ _ => rfl, fun _ => ⟨rfl, rfl, rfl, rfl, hsource rfl⟩⟩
  | fgaussn buf r => exact ⟨fun _ _ => rfl, fun _ => ⟨rfl, rfl, rfl, rfl, hsource rfl⟩⟩
  | gauss src dst k sigma => exact ⟨fun _ h => absurd rfl h, nofun⟩
  | median src dst r => exact ⟨fun _ _ => rfl, nofun⟩

/-- The command of a well-formed command's encoding is that command: every operand is read back. -/
theorem command_encode {i : Instr} (h : i.wf = true) : (encode i).command = i := by
  unfold Desc.command
  rw [encode_opcode]
  cases i with
  | halt => rfl
  | box src dst r =>
    obtain ⟨hs, hd, hp⟩ := encodeTwo_operands (opcode := 1) (sigma := 0) (by decide) h
    simp only [Instr.opcode, encode, hs, hd, hp]
  | tent src dst r =>
    obtain ⟨hs, hd, hp⟩ := encodeTwo_operands (opcode := 2) (sigma := 0) (by decide) h
    simp only [Instr.opcode, encode, hs, hd, hp]
  | gbox src dst r =>
    obtain ⟨hs, hd, hp⟩ := encodeTwo_operands (opcode := 3) (sigma := 0) (by decide) h
    simp only [Instr.opcode, encode, hs, hd, hp]
  | fgauss buf r =>
    obtain ⟨hb, hp⟩ := encodeInPlace_operands (opcode := 4) (by decide) h
    simp only [Instr.opcode, encode, hb, hp]
  | fgaussn buf r =>
    obtain ⟨hb, hp⟩ := encodeInPlace_operands (opcode := 5) (by decide) h
    simp only [Instr.opcode, encode, hb, hp]
  | gauss src dst k sigma =>
    obtain ⟨h, hsigma⟩ := Bool.and_eq_true_iff.mp h
    obtain ⟨hs, hd, hp⟩ := encodeTwo_operands (opcode := 6) (sigma := sigma) (by decide) h
    have hw9 : (encodeTwo 6 src dst k sigma).w9.toNat = sigma := toNat_ofNat_of_lt (sigmaWf_iff.mp hsigma)
    simp only [Instr.opcode, encode, hs, hd, hp, hw9]
  | median src dst r =>
    obtain ⟨hs, hd, hp⟩ := encodeTwo_operands (opcode := 7) (sigma := 0) (by decide) h
    simp only [Instr.opcode, encode, hs, hd, hp]

/-- Settles O1: no clause of R108 speaks against an encoding (`encode_reservedZero`, `encode_unusedZero`), and its fields give
the operands back (`command_encode`). -/
theorem decodeInvertsEncode : Obligations.DecodeInvertsEncode := by
  intro i h
  exact decode_eq_ok_iff.mpr
    ⟨encode_opcode i ▸ i.opcode_le, encode_reservedZero i, encode_unusedZero i, command_encode h⟩

/-- Settles O4: the words and bytes are evaluated; that they decode to the BOX command is O1 for it. -/
theorem workedEncodings : Obligations.WorkedEncodings := by
  unfold Obligations.WorkedEncodings
  intro i d
  have henc : encode i = d := by decide
  exact ⟨henc, henc ▸ decodeInvertsEncode i (by decide), by decide, rfl, by decide⟩

/-! ### Encoding what was decoded: O2 -/

theorem bits_lt (w : Word) (hi lo : Nat) : bits w hi lo < 2 ^ (hi + 1 - lo) := Nat.mod_lt _ (Nat.two_pow_pos _)

theorem Desc.srcBuffer_wf (d : Desc) : d.srcBuffer.wf = true :=
  Buffer.wf_iff.mpr ⟨d.w1.isLt, d.w2.isLt, d.w3.isLt, bits_lt d.w4 15 0, bits_lt d.w4 31 16⟩

theorem Desc.dstBuffer_wf (d : Desc) : d.dstBuffer.wf = true :=
  Buffer.wf_iff.mpr ⟨d.w5.isLt, d.w6.isLt, d.w7.isLt, bits_lt d.w8 15 0, bits_lt d.w8 31 16⟩

theorem Desc.paramWf_param (d : Desc) : paramWf d.param = true := paramWf_iff.mpr (bits_lt d.w0 31 16)

theorem Desc.sigmaWf_w9 (d : Desc) : sigmaWf d.w9.toNat = true := sigmaWf_iff.mpr d.w9.isLt

/-- Whatever the words hold, the operands read from them fit their fields. -/
theorem Desc.command_wf (d : Desc) : d.command.wf = true := by
  unfold Desc.command
  split <;> simp [Instr.wf, d.srcBuffer_wf, d.dstBuffer_wf, d.paramWf_param, d.sigmaWf_w9]

/-- A dimensions word is its two halves (R101). -/
theorem dimsWord_of_bits {b : Buffer} {w : Word} (hw : b.width = bits w 15 0) (hh : b.height = bits w 31 16) :
    dimsWord b = w := by
  apply BitVec.eq_of_toNat_eq
  have := w.isLt
  simp only [bits, dimsWord, BitVec.toNat_ofNat, hw, hh]
  omega

/-- `CMD` with zero reserved bits is its opcode, its four selector bits and its parameter (R102). -/
theorem cmdWord_of_fields {d : Desc} (hr : d.reserved = 0) : cmdWord d.opcode d.srcBuffer d.dstBuffer d.param = d.w0 := by
  apply BitVec.eq_of_toNat_eq
  have := d.w0.isLt
  simp only [Desc.reserved, bits] at hr
  simp only [cmdWord, Desc.srcBuffer, Desc.dstBuffer, bit_channelsOf (bits_lt d.w0 8 8), bit_channelsOf (bits_lt d.w0 10 10),
    bit_compWidthOf (bits_lt d.w0 9 9), bit_compWidthOf (bits_lt d.w0 11 11), BitVec.toNat_ofNat]
  simp only [Desc.opcode, Desc.param, bits]
  omega

/-- The same, for the in-place commands: the source bits are zero too. -/
theorem cmdWordInPlace_of_fields {d : Desc} (hr : d.reserved = 0) (hs : bits d.w0 9 8 = 0) :
    cmdWordInPlace d.opcode d.dstBuffer d.param = d.w0 := by
  apply BitVec.eq_of_toNat_eq
  have := d.w0.isLt
  simp only [Desc.reserved, bits] at hr hs
  simp only [cmdWordInPlace, Desc.dstBuffer, bit_channelsOf (bits_lt d.w0 10 10), bit_compWidthOf (bits_lt d.w0 11 11),
    BitVec.toNat_ofNat]
  simp only [Desc.opcode, Desc.param, bits]
  omega

/-- Encoding the operands read from the words gives the words back, where the reserved bits are zero (R101, R102). -/
theorem encodeTwo_of_fields {d : Desc} {opcode sigma : Nat} (ho : d.opcode = opcode) (hr : d.reserved = 0)
    (h9 : d.w9 = BitVec.ofNat 32 sigma) : encodeTwo opcode d.srcBuffer d.dstBuffer d.param sigma = d := by
  have hcmd := cmdWord_of_fields hr
  have hsrc : dimsWord d.srcBuffer = d.w4 := dimsWord_of_bits rfl rfl
  have hdst : dimsWord d.dstBuffer = d.w8 := dimsWord_of_bits rfl rfl
  rw [encodeTwo, ← ho, hcmd, hsrc, hdst, ← h9]
  simp [Desc.srcBuffer, Desc.dstBuffer]

/-- The same, for the in-place commands. -/
theorem encodeInPlace_of_fields {d : Desc} {opcode : Nat} (ho : d.opcode = opcode) (h45 : opcode = 4 ∨ opcode = 5)
    (hr : d.reserved = 0) (hu : d.UnusedZero) : encodeInPlace opcode d.dstBuffer d.param = d := by
  obtain ⟨h9, hsource⟩ := hu
  obtain ⟨h1, h2, h3, h4, hbits⟩ := hsource (ho ▸ h45)
  have h9 : d.w9 = 0#32 := h9 (by omega) (by omega)
  have hcmd := cmdWordInPlace_of_fields hr hbits
  have hdst : dimsWord d.dstBuffer = d.w8 := dimsWord_of_bits rfl rfl
  show _ = Desc.mk d.w0 d.w1 d.w2 d.w3 d.w4 d.w5 d.w6 d.w7 d.w8 d.w9
  rw [encodeInPlace, ← ho, hcmd, hdst, h1, h2, h3, h4, h9]
  simp [Desc.dstBuffer]

/-- A filter command's ten words are exactly its encoding (R109). -/
theorem encode_command {d : Desc} (ho : d.opcode ≤ 7) (hr : d.reserved = 0) (hu : d.UnusedZero) (h0 : d.opcode ≠ 0) :
    encode d.command = d := by
  have h9 (h6 : d.opcode ≠ 6) : d.w9 = 0#32 := hu.1 h0 h6
  unfold Desc.command
  obtain h | h | h | h | h | h | h | h := Desc.opcode_cases ho <;> rw [h]
  · exact absurd h h0
  · exact encodeTwo_of_fields h hr (h9 (by omega))
  · exact encodeTwo_of_fields h hr (h9 (by omega))
  · exact encodeTwo_of_fields h hr (h9 (by omega))
  · exact encodeInPlace_of_fields h (.inl rfl) hr hu
  · exact encodeInPlace_of_fields h (.inr rfl) hr hu
  · exact encodeTwo_of_fields h hr (by simp)
  · exact encodeTwo_of_fields h hr (h9 (by omega))

/-- HALT ignores `W1..W9` (R109). -/
theorem decode_of_w0_eq_zero {d : Desc} (h : d.w0 = 0#32) : decode d = .ok .halt := by
  have hopcode : d.opcode = 0 := by rw [Desc.opcode, h]; rfl
  have hreserved : d.reserved = 0 := by rw [Desc.reserved, h]; rfl
  refine decode_eq_ok_iff.mpr ⟨by omega, ⟨hreserved, fun _ => by rw [h]; rfl⟩, ⟨by omega, by omega⟩, ?_⟩
  unfold Desc.command
  rw [hopcode]
  rfl

end Sys2Proof

namespace Sys2Proof.Machine

/-! ### The words FETCH reads -/

/-- A stretch of the bytes of memory. -/
theorem drop_take_bytesAt (m : Memory) (a : Nat) {n k l : Nat} (h : k + l ≤ n) :
    ((m.bytesAt a n).drop k).take l = m.bytesAt (a + k) l := by
  apply List.ext_getElem
  · simp
    omega
  · intro i _ _
    simp [Memory.bytesAt, Nat.add_assoc]

/-- Word `k` of the bytes of memory (R100, R72). -/
theorem wordAt_bytesAt (m : Memory) (a : Nat) {n k : Nat} (h : 4 * k + 4 ≤ n) :
    wordAt (m.bytesAt a n) k = BitVec.ofNat 32 (m.readNat (a + 4 * k) 4) := by
  rw [wordAt, drop_take_bytesAt m a h, Memory.readNat]

/-- The ten words at an address (R141). -/
theorem words_readDesc (m : Memory) (a : Nat) :
    (m.readDesc a).words = (List.range 10).map fun k => BitVec.ofNat 32 (m.readNat (a + 4 * k) 4) := by
  show (List.range 10).map (wordAt (m.bytesAt a 40)) = _
  refine List.map_congr_left fun k hk => wordAt_bytesAt m a ?_
  have := List.mem_range.mp hk
  omega

/-- Settles O2: HALT by its first word, every other command by `encode_command`, and FETCH by `words_readDesc`. -/
theorem onlyHaltIgnoresWords : Obligations.OnlyHaltIgnoresWords := by
  refine ⟨fun d => decode_of_w0_eq_zero, fun d i h hi => ?filter, fun s s' h => ?fetched⟩
  case filter =>
    obtain ⟨ho, ⟨hr, -⟩, hu, rfl⟩ := decode_eq_ok_iff.mp h
    have h0 : d.opcode ≠ 0 := fun h0 => hi (by rw [← Instr.opcode_eq_zero, Desc.command_opcode ho, h0])
    exact ⟨encode_command ho hr hu h0, d.command_wf⟩
  case fetched =>
    obtain ⟨-, hf⟩ | ⟨-, hf⟩ := fetch_cases s
    · rw [hf] at h
      contradiction
    · rw [hf] at h
      cases h
      exact words_readDesc s.mem s.cp.toNat

/-! ### Illegal descriptors: O3 -/

/-- Fault entry in full (spec 60_exceptions.md R269). -/
theorem takesFault_raiseTrap (tr : Trap) (s : State) : TakesFault tr.cause.code tr.sub s (raiseTrap tr s) := by
  refine ⟨rfl, rfl, ?_, ?_, ?_, rfl, rfl, rfl, rfl, rfl, rfl, rfl, rfl, rfl, rfl, rfl, rfl⟩
  · rw [raiseTrap_irqStat, getLsbD_irqStatNext _ _ _ (by decide)]
    exact Bool.or_true _
  · rw [raiseTrap_irqStat, getLsbD_irqStatNext _ _ _ (by decide)]
    simp [faultBit]
  · exact (bits_31_2_eq_zero_iff _).mpr (toNat_and_irqMask_lt _)

/-- A descriptor that a clause of R108 rejects takes IllegalCommand with that clause's subcause (R263). -/
theorem step_takesFault_of_illegal {s : State} {e : Illegal} (hr : s.runState = .run) (hf : s.cp.toNat + 40 ≤ s.memBytes)
    (hd : decode (s.mem.readDesc s.cp.toNat) = .error e) :
    ∃ t, step s = .next t ∧ TakesFault 5 (illegalSub e) (fetched s) t :=
  ⟨_, step_of_illegal hr hf hd, takesFault_raiseTrap (illegalTrap e) (fetched s)⟩

/-- Settles O3: the clauses are those of `decode_of_opcode`, `decode_of_not_reservedZero` and `decode_of_reservedZero`, in this
order, and the step takes each as a fault. -/
theorem illegalDescriptorsFault : Obligations.IllegalDescriptorsFault := by
  intro s d hrun hf hd
  have fault {e : Illegal} (h : decode d = .error e) :
      ∃ t, step s = .next t ∧ TakesFault 5 (illegalSub e) (fetched s) t :=
    step_takesFault_of_illegal hrun hf (hd ▸ h)
  clear hd
  refine ⟨fun ho => ?opcode, fun ho hres => ?reserved, fun ho hr h0 h6 hused => ?mustBeZero,
    fun ho hr hhalt h9 hsource => ?legal⟩
  case opcode => exact fault (decode_of_opcode ho)
  case reserved =>
    have hb : ¬ d.ReservedZero := by tauto
    exact fault (decode_of_not_reservedZero ho hb)
  case mustBeZero =>
    have hc : ¬ d.UnusedZero := by tauto
    refine fault (e := .mustBeZero) ?_
    rw [decode_of_reservedZero ho ⟨hr, fun h => absurd h h0⟩, if_neg hc]
  case legal => exact ⟨_, decode_eq_ok_iff.mpr ⟨ho, ⟨hr, hhalt⟩, ⟨h9, hsource⟩, rfl⟩, Desc.command_opcode ho⟩

end Sys2Proof.Machine
end

