-- ==== Sys2Proof/Proofs/PassMemory.lean ====
section
/-! SUPPORT. The lines of a pass as writes to memory (spec 40_pipeline.md R151 to R154): no two lines write the same byte and no
line reads a byte another line writes, so a pass leaves what its lines compute from the memory before it, in whatever order
they run and their writes land. -/

namespace Sys2Proof.Machine

/-! ### Writes in any order -/

/-- The writes that name one address agree on its byte. -/
def Consistent (cs : List Host.Cell) : Prop := ∀ c ∈ cs, ∀ d ∈ cs, c.1 = d.1 → c = d

/-- After consistent writes, each named byte reads as written. -/
theorem read_writeAll_of_consistent {m : Memory} (hm : m.wf) {cs : List Host.Cell} (hcs : Consistent cs) {c : Host.Cell}
    (hc : c ∈ cs) : (m.writeAll cs).read c.1 = c.2 := by
  induction cs generalizing m with
  | nil => exact absurd hc List.not_mem_nil
  | cons d cs ih =>
    have hrest : Consistent cs := fun x hx y hy => hcs x (List.mem_cons_of_mem d hx) y (List.mem_cons_of_mem d hy)
    have hm' : Memory.wf (m.write d.1 d.2) := write_wf hm d.1 d.2
    rw [writeAll_cons]
    by_cases hagain : c ∈ cs
    · exact ih hm' hrest hagain
    · have hcd : c = d := (List.mem_cons.mp hc).resolve_right hagain
      have hother : ∀ e ∈ cs, e.1 ≠ c.1 := fun e he haddr =>
        hagain (hcs e (List.mem_cons_of_mem d he) c hc haddr ▸ he)
      rw [read_writeAll_other hm' hother, hcd, read_write_same hm]

/-- Consistent writes may reach memory in any order, and any number of times (spec 20_memory.md R78, R79). -/
theorem writeAll_congr {m : Memory} (hm : m.wf) {cs ds : List Host.Cell} (hcs : Consistent cs)
    (hmem : ∀ c, c ∈ cs ↔ c ∈ ds) : m.writeAll cs = m.writeAll ds := by
  have hds : Consistent ds := fun c hc d hd => hcs c ((hmem c).mpr hc) d ((hmem d).mpr hd)
  refine memory_ext (writeAll_wf hm cs) (writeAll_wf hm ds) fun a => ?_
  by_cases ha : ∃ c ∈ cs, c.1 = a
  · obtain ⟨c, hc, rfl⟩ := ha
    rw [read_writeAll_of_consistent hm hcs hc, read_writeAll_of_consistent hm hds ((hmem c).mp hc)]
  · rw [read_writeAll_other hm fun c hc haddr => ha ⟨c, hc, haddr⟩,
      read_writeAll_other hm fun c hc haddr => ha ⟨c, (hmem c).mpr hc, haddr⟩]

/-! ### The bytes of components and of lines -/

/-- Quotient and remainder determine each other. -/
theorem eq_and_eq_of_mul_add_eq {n q q' x x' : Nat} (hx : x < n) (hx' : x' < n) (h : q * n + x = q' * n + x') :
    q = q' ∧ x = x' := by
  have hn : 0 < n := by omega
  have hdiv (q : Nat) {x : Nat} (hx : x < n) : (q * n + x) / n = q := by
    rw [Nat.mul_comm, Nat.mul_add_div hn, Nat.div_eq_of_lt hx, Nat.add_zero]
  have hq : q = q' := by rw [← hdiv q hx, ← hdiv q' hx', h]
  subst hq
  exact ⟨rfl, Nat.add_left_cancel h⟩

theorem bytes_pos (cw : CompWidth) : 0 < cw.bytes := by cases cw <;> decide

/-- Different in-bounds components of a buffer have no byte in common (R143, R144). -/
theorem bufAddr_inj {b : Buffer} (hs : b.width * b.channels.count ≤ b.stride) {row col ch k row' col' ch' k' : Nat}
    (h : InBounds b row col ch) (h' : InBounds b row' col' ch') (hk : k < b.cw.bytes) (hk' : k' < b.cw.bytes)
    (heq : bufAddr b row col ch + k = bufAddr b row' col' ch' + k') : row = row' ∧ col = col' ∧ ch = ch' ∧ k = k' := by
  have hcell {row col ch : Nat} (h : InBounds b row col ch) : col * b.channels.count + ch < b.stride := by
    obtain ⟨-, hcol, hch⟩ := h
    have hcol := Nat.mul_le_mul_right b.channels.count (Nat.succ_le_of_lt hcol)
    rw [Nat.succ_mul] at hcol
    omega
  delta bufAddr at heq
  simp only [Nat.add_assoc] at heq
  obtain ⟨hindex, hbyte⟩ := eq_and_eq_of_mul_add_eq hk hk' (Nat.add_left_cancel heq)
  obtain ⟨hrow, hrest⟩ := eq_and_eq_of_mul_add_eq (hcell h) (hcell h') hindex
  obtain ⟨-, -, hchannel⟩ := h
  obtain ⟨-, -, hchannel'⟩ := h'
  obtain ⟨hcol, hch⟩ := eq_and_eq_of_mul_add_eq hchannel hchannel' hrest
  exact ⟨hrow, hcol, hch, hbyte⟩

/-- A legal buffer's pixels lie in its footprint (R40, spec 20_memory.md R75). -/
theorem pixelArea_inFootprint {b : Buffer} {memBytes a : Nat} (hb : Fits b memBytes) (ha : a ∈ pixelArea b) :
    b.base ≤ a ∧ a < bufEnd b := by
  obtain ⟨hwidth, hheight, hstride, hlen, heven, -⟩ := hb
  refine ⟨?_, pixelArea_lt (memBytes := bufEnd b) ⟨hwidth, hheight, hstride, hlen, heven, le_rfl⟩ ha⟩
  obtain ⟨row, col, ch, k, -, -, rfl⟩ := Iff.mp mem_pixelArea ha
  delta bufAddr
  omega

/-- The footprint of the one of two buffers apart holds no pixel of the other (R267). -/
theorem not_mem_pixelArea_of_apart {src dst : Buffer} {memBytes a : Nat} (hdst : Fits dst memBytes) (h : Apart src dst)
    (hlo : src.base ≤ a) (hhi : a < bufEnd src) : a ∉ pixelArea dst := by
  intro ha
  obtain ⟨hlo', hhi'⟩ := pixelArea_inFootprint hdst ha
  delta bufEnd at hhi hhi'
  omega

/-- The byte belongs to the line as the pass writes it (R147). -/
def LineByte (p : Pass) (line a : Nat) : Prop :=
  ∃ j ch k, j < p.lineLength ∧ ch < p.writes.channels.count ∧ k < p.writes.cw.bytes ∧
    a = bufAddr p.writes (p.rowOf line j) (p.colOf line j) ch + k

/-- Lines cross the buffer without meeting (R147). -/
theorem position_inj {p : Pass} {line j line' j' : Nat} (hrow : p.rowOf line j = p.rowOf line' j')
    (hcol : p.colOf line j = p.colOf line' j') : line = line' ∧ j = j' := by
  cases p with
  | row f a b => exact ⟨hrow, hcol⟩
  | col f b => exact ⟨hcol, hrow⟩
  | window r src dst => exact ⟨hrow, hcol⟩

/-- The writes of a line, cell by cell (R148, R149, R242). -/
theorem mem_lineWrites {p : Pass} {line : Nat} {lb : List (List Nat)} {c : Host.Cell} :
    c ∈ lineWrites p line lb ↔ ∃ j ch k, j < p.lineLength ∧ ch < p.writes.channels.count ∧ k < p.writes.cw.bytes ∧
      c = (bufAddr p.writes (p.rowOf line j) (p.colOf line j) ch + k,
        BitVec.ofNat 8 ((lb.getD j []).getD ch 0 / 256 ^ k)) := by
  delta lineWrites storeCells cellsOf
  simp only [List.mem_flatMap, List.mem_map, List.mem_range]
  constructor
  · rintro ⟨j, hj, ch, hch, k, hk, rfl⟩
    exact ⟨j, ch, k, hj, hch, hk, rfl⟩
  · rintro ⟨j, ch, k, hj, hch, hk, rfl⟩
    exact ⟨j, hj, ch, hch, k, hk, rfl⟩

theorem lineByte_of_mem_lineWrites {p : Pass} {line : Nat} {lb : List (List Nat)} {c : Host.Cell}
    (h : c ∈ lineWrites p line lb) : LineByte p line c.1 := by
  obtain ⟨j, ch, k, hj, hch, hk, rfl⟩ := Iff.mp mem_lineWrites h
  exact ⟨j, ch, k, hj, hch, hk, rfl⟩

section
variable {memBytes : Nat} {p : Pass} (hp : LegalPass memBytes p)
include hp

/-- Different component bytes of a legal pass have different addresses. -/
theorem LegalPass.byte_inj {line j ch k line' j' ch' k' : Nat} (hl : line < p.lines) (hl' : line' < p.lines)
    (hj : j < p.lineLength) (hj' : j' < p.lineLength) (hch : ch < p.writes.channels.count)
    (hch' : ch' < p.writes.channels.count) (hk : k < p.writes.cw.bytes) (hk' : k' < p.writes.cw.bytes)
    (heq : bufAddr p.writes (p.rowOf line j) (p.colOf line j) ch + k =
      bufAddr p.writes (p.rowOf line' j') (p.colOf line' j') ch' + k') :
    line = line' ∧ j = j' ∧ ch = ch' ∧ k = k' := by
  obtain ⟨-, -, hstride, -⟩ := hp.writes_fits
  obtain ⟨hrow, hcol, rfl, rfl⟩ := bufAddr_inj hstride (hp.inBounds hl hj hch) (hp.inBounds hl' hj' hch') hk hk' heq
  obtain ⟨rfl, rfl⟩ := position_inj hrow hcol
  exact ⟨rfl, rfl, rfl, rfl⟩

/-- No byte belongs to two lines (R153). -/
theorem LegalPass.lineByte_unique {line line' a : Nat} (hl : line < p.lines) (hl' : line' < p.lines)
    (h : LineByte p line a) (h' : LineByte p line' a) : line = line' := by
  obtain ⟨j, ch, k, hj, hch, hk, rfl⟩ := h
  obtain ⟨j', ch', k', hj', hch', hk', heq⟩ := h'
  exact (hp.byte_inj hl hl' hj hj' hch hch' hk hk' heq).1

/-- A line's bytes are pixels of the buffer the pass writes. -/
theorem LegalPass.lineByte_pixelArea {line a : Nat} (hl : line < p.lines) (h : LineByte p line a) :
    a ∈ pixelArea p.writes := by
  obtain ⟨j, ch, k, hj, hch, hk, rfl⟩ := h
  exact Iff.mpr mem_pixelArea ⟨_, _, ch, k, hp.inBounds hl hj hch, hk, rfl⟩

/-- A line writes each of its bytes once. -/
theorem LegalPass.consistent_lineWrites {line : Nat} (hl : line < p.lines) (lb : List (List Nat)) :
    Consistent (lineWrites p line lb) := by
  intro c hc d hd haddr
  obtain ⟨j, ch, k, hj, hch, hk, rfl⟩ := Iff.mp mem_lineWrites hc
  obtain ⟨j', ch', k', hj', hch', hk', rfl⟩ := Iff.mp mem_lineWrites hd
  obtain ⟨-, rfl, rfl, rfl⟩ := hp.byte_inj hl hl hj hj' hch hch' hk hk' haddr
  rfl

end

/-! ### What a line reads -/

/-- The two memories agree but on bytes of other lines. -/
def SameForLine (p : Pass) (line : Nat) (m m' : Memory) : Prop :=
  ∀ a, (∀ l, l < p.lines → l ≠ line → ¬ LineByte p l a) → m'.read a = m.read a

/-- A component read depends on its bytes only (R145). -/
theorem loadComponent_congr {b : Buffer} {m m' : Memory} {row col ch : Nat}
    (h : ∀ k, k < b.cw.bytes → m'.read (bufAddr b row col ch + k) = m.read (bufAddr b row col ch + k)) :
    loadComponent b m' row col ch = loadComponent b m row col ch := by
  have hbytes : m'.bytesAt (bufAddr b row col ch) b.cw.bytes = m.bytesAt (bufAddr b row col ch) b.cw.bytes :=
    List.map_congr_left fun k hk => h k (List.mem_range.mp hk)
  exact congrArg natOfBytes hbytes

/-- Where two buffers are apart, what is read from the one is not written by any line of a pass on the other. -/
theorem loadComponent_of_apart {memBytes : Nat} {p : Pass} (hp : LegalPass memBytes p) {src : Buffer}
    (hsrc : Fits src memBytes) (hapart : Apart src p.writes) {line : Nat} {m m' : Memory} (h : SameForLine p line m m')
    {row col ch : Nat} (hb : InBounds src row col ch) : loadComponent src m' row col ch = loadComponent src m row col ch := by
  refine loadComponent_congr fun k hk => h _ fun l hl _ hbyte => ?_
  obtain ⟨hlo, hhi⟩ := pixelArea_inFootprint hsrc (Iff.mpr mem_pixelArea ⟨row, col, ch, k, hb, hk, rfl⟩)
  exact not_mem_pixelArea_of_apart hp.writes_fits hapart hlo hhi (hp.lineByte_pixelArea hl hbyte)

/-- In place, what a line reads is its own bytes. -/
theorem loadComponent_of_own {memBytes : Nat} {p : Pass} (hp : LegalPass memBytes p) {line : Nat} (hl : line < p.lines)
    {m m' : Memory} (h : SameForLine p line m m') {j ch : Nat} (hj : j < p.lineLength)
    (hch : ch < p.writes.channels.count) :
    loadComponent p.writes m' (p.rowOf line j) (p.colOf line j) ch =
      loadComponent p.writes m (p.rowOf line j) (p.colOf line j) ch :=
  loadComponent_congr fun k hk => h _ fun _ hl' hne hbyte =>
    hne (hp.lineByte_unique hl' hl hbyte ⟨j, ch, k, hj, hch, hk, rfl⟩)

/-- The line buffer after a load, from its components one by one. -/
theorem lineComponents_congr {p : Pass} {line : Nat} {m m' : Memory}
    (h : ∀ j ch, j < p.lineLength → ch < p.reads.channels.count →
      loadComponent p.reads m' (p.rowOf line j) (p.colOf line j) ch =
        loadComponent p.reads m (p.rowOf line j) (p.colOf line j) ch) :
    lineComponents p m' line = lineComponents p m line :=
  List.map_congr_left fun j hj => List.map_congr_left fun ch hch => h j ch (List.mem_range.mp hj) (List.mem_range.mp hch)

theorem clamp_lt (i : Int) {n : Nat} (hn : 0 < n) : clamp i n < n := by
  delta clamp
  split_ifs <;> omega

/-- What a line's load leaves in the line buffer: nothing for MEDIAN, which reads its window from memory (R152, spec
10_state.md R35). -/
def loadedBuffer (p : Pass) (m : Memory) (line : Nat) : List (List Nat) :=
  match p with
  | .row _ _ _ => lineComponents p m line
  | .col _ _ => lineComponents p m line
  | .window _ _ _ => []

section
variable {memBytes : Nat} {p : Pass} (hp : LegalPass memBytes p) {line : Nat} (hl : line < p.lines) {m m' : Memory}
  (h : SameForLine p line m m')
include hp hl h

/-- What a line of a legal pass loads does not depend on what other lines write (R153). -/
theorem loadedBuffer_congr : loadedBuffer p m' line = loadedBuffer p m line := by
  cases p with
  | row f a b =>
    refine lineComponents_congr fun j ch hj hch => ?_
    obtain ⟨hfits, -, -, rfl | hapart⟩ := id hp
    · exact loadComponent_of_own hp hl h hj hch
    · exact loadComponent_of_apart hp hfits hapart h ⟨hl, hj, hch⟩
  | col f b => exact lineComponents_congr fun j ch hj hch => loadComponent_of_own hp hl h hj hch
  | window r src dst => rfl

/-- Nor does what it computes. -/
theorem lineOutput_congr (coef : List Nat) : lineOutput p coef m' line = lineOutput p coef m line := by
  have hload := loadedBuffer_congr hp hl h
  cases p with
  | row f a b =>
    exact congrArg (fun lb => interleave a.width ((List.range a.channels.count).map fun ch =>
      (f.runOn coef a.cw.maxValue (channelOf lb ch)).out)) hload
  | col f b =>
    exact congrArg (fun lb => interleave b.height ((List.range b.channels.count).map fun ch =>
      (f.runOn coef b.cw.maxValue (channelOf lb ch)).out)) hload
  | window r src dst =>
    obtain ⟨hfits, -, -, hapart⟩ := id hp
    obtain ⟨hwidth, hheight, -⟩ := id hfits
    have hsample (ch : Nat) (hch : ch < src.channels.count) :
        (fun row col => sampleComponent src m' row col ch) = fun row col => sampleComponent src m row col ch :=
      funext₂ fun row col => loadComponent_of_apart hp hfits hapart h ⟨clamp_lt row hheight, clamp_lt col hwidth, hch⟩
    refine congrArg (interleave src.width) (List.map_congr_left fun ch hch => ?_)
    rw [hsample ch (List.mem_range.mp hch)]

end

/-! ### A pass as its lines' writes -/

/-- What a line writes, computed from the memory before the pass. -/
def lineCells (p : Pass) (coef : List Nat) (m : Memory) (line : Nat) : List Host.Cell :=
  lineWrites p line (lineOutput p coef m line)

/-- Writes of some lines leave what another one computes alone. -/
theorem sameForLine_writeAll {p : Pass} {m : Memory} (hm : m.wf) {line : Nat} {cs : List Host.Cell}
    (hcs : ∀ c ∈ cs, ∃ l, l < p.lines ∧ l ≠ line ∧ LineByte p l c.1) : SameForLine p line m (m.writeAll cs) := by
  intro a ha
  refine read_writeAll_other hm fun c hc haddr => ?_
  obtain ⟨l, hl, hne, hbyte⟩ := hcs c hc
  exact ha l hl hne (haddr ▸ hbyte)

section
variable {memBytes : Nat} {p : Pass} (hp : LegalPass memBytes p) (coef : List Nat) {m : Memory} (hm : m.wf)
include hp

/-- Lines of a legal pass agree on every byte they write: no byte is written twice. -/
theorem LegalPass.consistent_lineCells {order : List Nat} (ho : ∀ l ∈ order, l < p.lines) (m : Memory) :
    Consistent (order.flatMap (lineCells p coef m)) := by
  intro c hc d hd haddr
  obtain ⟨l, hl, hc⟩ := List.mem_flatMap.mp hc
  obtain ⟨l', hl', hd⟩ := List.mem_flatMap.mp hd
  have hline : l = l' := hp.lineByte_unique (ho l hl) (ho l' hl') (lineByte_of_mem_lineWrites hc)
    (haddr ▸ lineByte_of_mem_lineWrites hd)
  subst hline
  exact hp.consistent_lineWrites (ho l hl) _ c hc d hd haddr

include hm

/-- The lines of a pass one after another write what each computes from the memory before the pass (R154). -/
theorem linesMemory_eq_writeAll {order : List Nat} (ho : ∀ l ∈ order, l < p.lines) (hnodup : order.Nodup) :
    linesMemory order p coef m = m.writeAll (order.flatMap (lineCells p coef m)) := by
  induction order generalizing m with
  | nil => rfl
  | cons line order ih =>
    obtain ⟨hnew, hnodup⟩ := List.nodup_cons.mp hnodup
    have hline : line < p.lines := ho line List.mem_cons_self
    have hrest : ∀ l ∈ order, l < p.lines := fun l hl => ho l (List.mem_cons_of_mem line hl)
    have hcells : ∀ l ∈ order, lineCells p coef (lineMemory p coef m line) l = lineCells p coef m l := by
      intro l hl
      refine congrArg (lineWrites p l) (lineOutput_congr hp (hrest l hl) (sameForLine_writeAll hm fun c hc => ?_) coef)
      exact ⟨line, hline, fun h => hnew (h ▸ hl), lineByte_of_mem_lineWrites hc⟩
    rw [linesMemory_cons, ih (lineMemory_wf hm p coef line) hrest hnodup, List.flatMap_cons, writeAll_append,
      List.flatMap_congr hcells]
    rfl

/-- Any order of all the lines leaves the same memory (R153, R154). -/
theorem linesMemory_eq_passMemory {order : List Nat} (hperm : order.Perm (List.range p.lines)) :
    linesMemory order p coef m = passMemory p coef m := by
  have hrange : ∀ l ∈ List.range p.lines, l < p.lines := fun l hl => List.mem_range.mp hl
  have horder : ∀ l ∈ order, l < p.lines := fun l hl => hrange l (hperm.mem_iff.mp hl)
  delta passMemory
  rw [linesMemory_eq_writeAll hp coef hm horder (hperm.nodup_iff.mpr List.nodup_range),
    linesMemory_eq_writeAll hp coef hm hrange List.nodup_range]
  exact writeAll_congr hm (hp.consistent_lineCells coef horder m) fun c => (hperm.flatMap_right _).mem_iff

/-- A pass writes what its lines compute from the memory before it. -/
theorem passMemory_eq_writeAll :
    passMemory p coef m = m.writeAll ((List.range p.lines).flatMap (lineCells p coef m)) :=
  linesMemory_eq_writeAll hp coef hm (fun _ hl => List.mem_range.mp hl) List.nodup_range

/-- A pass leaves every byte but the pixels of the buffer it writes (R159). -/
theorem passMemory_sameOutside : SameOutside (pixelArea p.writes) m (passMemory p coef m) := by
  intro a ha
  rw [passMemory_eq_writeAll hp coef hm]
  refine read_writeAll_other hm fun c hc haddr => ha ?_
  obtain ⟨l, hl, hc⟩ := List.mem_flatMap.mp hc
  exact haddr ▸ lineWrites_pixelArea hp (List.mem_range.mp hl) hc

end

/-- The buffer a legal pass reads is legal. -/
theorem LegalPass.reads_fits {memBytes : Nat} {p : Pass} (h : LegalPass memBytes p) : Fits p.reads memBytes := by
  cases p with
  | row f a b => exact h.1
  | col f b => exact h
  | window r src dst => exact h.1

/-- Settles O51: both orders leave the memory of the pass (`linesMemory_eq_passMemory`). -/
theorem lineOrderIsFree : Obligations.LineOrderIsFree := by
  intro p order index s ⟨hw, hm, hpending⟩ hp hperm
  have hreads := fits_admitted hp.reads_fits
  have hwrites := fits_admitted hp.writes_fits
  obtain ⟨t, ht, -, hmem, -⟩ := runPassIn_spec (List.range p.lines) index p s hw hpending hreads hwrites
  obtain ⟨u, hu, -, hmem', -⟩ := runPassIn_spec order index p s hw hpending hreads hwrites
  refine ⟨t, u, ht, hu, ?_⟩
  rw [hmem, hmem', linesMemory_eq_passMemory hp s.coef hm hperm]
  rfl

end Sys2Proof.Machine
end

