-- ==== Sys2Proof/Proofs/LineFunctions.lean ====
section
/-! SUPPORT. The line functions: the running sums and the cascaded sums the hardware keeps compute the closed forms (spec
41_box.md R181, spec 42_fastgauss.md R203), every output is a component value, and radius 0 is the identity. -/

namespace Sys2Proof.Machine

/-! ### Sums -/

theorem foldl_add_range (f : Nat → Nat) (n : Nat) :
    (List.range n).foldl (fun acc k => acc + f k) 0 = ∑ k ∈ Finset.range n, f k := by
  induction n with
  | zero => rfl
  | succ n ih => rw [List.range_succ, List.foldl_append, ih, Finset.sum_range_succ]; rfl

/-- The entry of a tabulated list. -/
theorem getD_map_range {α : Type} (f : Nat → α) {n i : Nat} (h : i < n) (d : α) :
    ((List.range n).map f).getD i d = f i := by
  simp [List.getD_eq_getElem?_getD, h]

/-- Tabulating a list's own entries gives the list. -/
theorem map_range_getD (x : List Nat) : ((List.range x.length).map fun i => x.getD i 0) = x := by
  refine List.ext_getElem (by simp) fun i hi hi' => ?_
  simp [List.getD_eq_getElem?_getD, hi']

/-! ### The running sum -/

theorem windowSum_eq_sum (f : Int → Nat) (r : Nat) (j : Int) :
    windowSum f r j = ∑ k ∈ Finset.range (2 * r + 1), f (j - r + k) := foldl_add_range _ _

/-- One position on: the leaving value goes and the entering one comes (R181). -/
theorem windowSum_succ (f : Int → Nat) (r : Nat) (j : Int) :
    f (j - r) + windowSum f r (j + 1) = windowSum f r j + f (j + 1 + r) := by
  rw [windowSum_eq_sum, windowSum_eq_sum, Finset.sum_range_succ, Finset.sum_range_succ']
  have hmid : ∑ k ∈ Finset.range (2 * r), f (j + 1 - r + k) = ∑ k ∈ Finset.range (2 * r), f (j - r + (k + 1 : Nat)) :=
    Finset.sum_congr rfl fun k _ => congrArg f (by push_cast; ring)
  have hin : j + 1 - r + (2 * r : Nat) = j + 1 + r := by push_cast; ring
  have hout : j - r + (0 : Nat) = j - r := by simp
  rw [hmid, hin, hout]
  omega

theorem slide_windowSum (f : Int → Nat) (r : Nat) (j : Int) (n : Nat) :
    slide f r j (windowSum f r j) n = (List.range n).map fun (i : Nat) => windowSum f r (j + i) := by
  induction n generalizing j with
  | zero => rfl
  | succ n ih =>
    have hnext : windowSum f r j + f (j + 1 + r) - f (j - r) = windowSum f r (j + 1) := by
      rw [← windowSum_succ, Nat.add_sub_cancel_left]
    have htail : ((List.range n).map fun (i : Nat) => windowSum f r (j + 1 + i)) =
        (List.range n).map fun (i : Nat) => windowSum f r (j + (i + 1 : Nat)) :=
      List.map_congr_left fun i _ => congrArg _ (by push_cast; ring)
    rw [List.range_succ_eq_map, List.map_cons, List.map_map]
    show windowSum f r j :: slide f r (j + 1) (windowSum f r j + f (j + 1 + r) - f (j - r)) n = _
    rw [hnext, ih, htail, Nat.cast_zero, add_zero]
    rfl

/-- The running sum is the window sum at every position (R181). -/
theorem slidingSums_eq (f : Int → Nat) (r : Nat) (j : Int) (n : Nat) :
    slidingSums f r j n = (List.range n).map fun (i : Nat) => windowSum f r (j + i) := slide_windowSum f r j n

/-- The accumulator of the box filter computes `BoxLine_r` (R181). -/
theorem boxRun_out (r : Nat) (x : List Nat) : (boxRun r x).out = boxLine r x := by
  show (slidingSums (clampedAt x) r 0 x.length).map (boxRound r) = _
  rw [slidingSums_eq, List.map_map]
  exact List.map_congr_left fun i _ => by rw [Function.comp_apply, zero_add]

/-! ### The cascaded sums -/

/-- A window sum depends on the values in the window. -/
theorem windowSum_congr {f g : Int → Nat} {r : Nat} {j : Int} (h : ∀ i, j - r ≤ i → i ≤ j + r → f i = g i) :
    windowSum f r j = windowSum g r j := by
  rw [windowSum_eq_sum, windowSum_eq_sum]
  refine Finset.sum_congr rfl fun k hk => h _ (by omega) ?_
  have := Finset.mem_range.mp hk
  omega

/-- A sum over all pairs, by the pairs' own sums: `L - |k - 2r|` pairs below `L = 2r + 1` add up to `k` (R202, R203). -/
theorem sum_pairs_eq_weighted (r : Nat) (h : Nat → Nat) :
    ∑ a ∈ Finset.range (2 * r + 1), ∑ b ∈ Finset.range (2 * r + 1), h (a + b) =
      ∑ k ∈ Finset.range (4 * r + 1), (2 * r + 1 - ((k : Int) - 2 * r).natAbs) * h k := by
  have hinner : ∀ a ∈ Finset.range (2 * r + 1), ∑ b ∈ Finset.range (2 * r + 1), h (a + b) =
      ∑ k ∈ Finset.range (4 * r + 1), if a ≤ k ∧ k < a + (2 * r + 1) then h k else 0 := by
    intro a ha
    have ha := Finset.mem_range.mp ha
    have hwindow : {k ∈ Finset.range (4 * r + 1) | a ≤ k ∧ k < a + (2 * r + 1)} = Finset.Ico a (a + (2 * r + 1)) := by
      ext k
      simp only [Finset.mem_filter, Finset.mem_range, Finset.mem_Ico]
      omega
    rw [← Finset.sum_filter, hwindow, Finset.sum_Ico_eq_sum_range, Nat.add_sub_cancel_left]
  rw [Finset.sum_congr rfl hinner, Finset.sum_comm]
  refine Finset.sum_congr rfl fun k hk => ?_
  have hk := Finset.mem_range.mp hk
  have hpairs : {a ∈ Finset.range (2 * r + 1) | a ≤ k ∧ k < a + (2 * r + 1)} =
      Finset.Ico (k - 2 * r) (min (2 * r) k + 1) := by
    ext a
    simp only [Finset.mem_filter, Finset.mem_range, Finset.mem_Ico]
    omega
  rw [← Finset.sum_filter, hpairs, Finset.sum_const, Nat.card_Ico, smul_eq_mul]
  congr 1
  omega

/-- The weighted sum `T` is the window sum of window sums (R203). -/
theorem windowSum_windowSum (x : List Nat) (r i : Nat) :
    windowSum (windowSum (clampedAt x) r) r i = tentSum x r i := by
  have hpair (a b : Nat) : clampedAt x ((i : Int) - r + a - r + b) = clampedAt x ((i : Int) + (a + b : Nat) - 2 * r) :=
    congrArg _ (by push_cast; ring)
  have htent : tentSum x r i = ∑ k ∈ Finset.range (4 * r + 1),
      (2 * r + 1 - ((k : Int) - 2 * r).natAbs) * clampedAt x ((i : Int) + k - 2 * r) := foldl_add_range _ _
  rw [htent, ← sum_pairs_eq_weighted r fun k => clampedAt x ((i : Int) + k - 2 * r), windowSum_eq_sum]
  refine Finset.sum_congr rfl fun a _ => ?_
  rw [windowSum_eq_sum]
  exact Finset.sum_congr rfl fun b _ => hpair a b

/-- The delay line holds the first-stage sums from position `-r` on (R203). -/
theorem firstStage_eq (r : Nat) (x : List Nat) :
    firstStage r x = (List.range (x.length + 2 * r)).map fun (m : Nat) => windowSum (clampedAt x) r ((m : Int) - r) := by
  show slidingSums (clampedAt x) r (-(r : Int)) (x.length + 2 * r) = _
  rw [slidingSums_eq]
  exact List.map_congr_left fun m _ => congrArg _ (by ring)

theorem delayed_firstStage {r : Nat} {x : List Nat} {j : Int} (hlo : -(r : Int) ≤ j) (hhi : j < x.length + r) :
    delayed r (firstStage r x) j = windowSum (clampedAt x) r j := by
  have hpos : (((j + r).toNat : Nat) : Int) - r = j := by omega
  rw [firstStage_eq]
  show List.getD _ (j + r).toNat 0 = _
  rw [getD_map_range _ (by omega), hpos]

/-- The second running sum over the delay line is the weighted sum `T` (R203). -/
theorem secondStage_eq (r : Nat) (x : List Nat) :
    slidingSums (delayed r (firstStage r x)) r 0 x.length = (List.range x.length).map fun i => tentSum x r i := by
  rw [slidingSums_eq]
  refine List.map_congr_left fun i hi => ?_
  have hi := List.mem_range.mp hi
  rw [zero_add, windowSum_congr fun j hlo hhi => delayed_firstStage (by omega) (by omega), windowSum_windowSum]

/-- The two accumulators of FGAUSSN compute `Tent2Line_r` (R203). -/
theorem tent2Run_out (r : Nat) (x : List Nat) : (tent2Run r x).out = tent2Line r x := by
  show (slidingSums (delayed r (firstStage r x)) r 0 x.length).map (tentRound r) = _
  rw [secondStage_eq, List.map_map]
  rfl

/-! ### The closed forms -/

/-- A line function in closed form (R180, R202, R219). -/
def LineFn.closedForm (f : LineFn) (coef : List Nat) (maxValue : Nat) (x : List Nat) : List Nat :=
  match f with
  | .box r => boxLine r x
  | .tent2 r => tent2Line r x
  | .fir => firLine coef maxValue x

/-- Every line function's mechanism computes its closed form. -/
theorem runOn_out (f : LineFn) (coef : List Nat) (maxValue : Nat) (x : List Nat) :
    (f.runOn coef maxValue x).out = f.closedForm coef maxValue x := by
  cases f with
  | box r => exact boxRun_out r x
  | tent2 r => exact tent2Run_out r x
  | fir => exact List.map_map

/-- The line's values do not exceed `M`. -/
def BoundedBy (M : Nat) (x : List Nat) : Prop := ∀ v ∈ x, v ≤ M

theorem clampedAt_le {M : Nat} {x : List Nat} (hx : BoundedBy M x) (i : Int) : clampedAt x i ≤ M := by
  delta clampedAt
  rw [List.getD_eq_getElem?_getD]
  cases h : x[clamp i x.length]? with
  | none => exact Nat.zero_le M
  | some v => exact hx v (List.mem_of_getElem? h)

theorem windowSum_le {f : Int → Nat} {M : Nat} (hf : ∀ i, f i ≤ M) (r : Nat) (j : Int) :
    windowSum f r j ≤ (2 * r + 1) * M := by
  rw [windowSum_eq_sum]
  simpa using Finset.sum_le_card_nsmul (Finset.range (2 * r + 1)) (fun k => f (j - r + k)) M fun k _ => hf _

theorem tentSum_le {M : Nat} {x : List Nat} (hx : BoundedBy M x) (r i : Nat) :
    tentSum x r i ≤ (2 * r + 1) * (2 * r + 1) * M := by
  rw [← windowSum_windowSum, Nat.mul_assoc]
  exact windowSum_le (windowSum_le (clampedAt_le hx) r) r i

/-- Rounding to nearest keeps an average within the bound of what it averages (R182). -/
theorem add_div_le {S D M h : Nat} (hS : S ≤ D * M) (hh : h < D) : (S + h) / D ≤ M := by
  refine Nat.le_of_lt_succ (Nat.div_lt_of_lt_mul ?_)
  rw [Nat.mul_succ]
  omega

/-- Every line function takes component values to component values (R183, R206, R220). -/
theorem closedForm_boundedBy (f : LineFn) (coef : List Nat) {M : Nat} {x : List Nat} (hx : BoundedBy M x) :
    BoundedBy M (f.closedForm coef M x) := by
  intro v hv
  cases f with
  | box r =>
    obtain ⟨i, -, rfl⟩ := List.mem_map.mp hv
    exact add_div_le (windowSum_le (clampedAt_le hx) r i) (by omega)
  | tent2 r =>
    obtain ⟨i, -, rfl⟩ := List.mem_map.mp hv
    have hD : 0 < (2 * r + 1) * (2 * r + 1) := by positivity
    exact add_div_le (tentSum_le hx r i) (by omega)
  | fir =>
    obtain ⟨i, -, rfl⟩ := List.mem_map.mp hv
    exact Nat.min_le_left _ _

/-! ### Radius zero -/

theorem clamp_natCast {i n : Nat} (hi : i < n) : clamp (i : Int) n = i := by
  delta clamp
  split_ifs <;> omega

theorem clampedAt_natCast (x : List Nat) {i : Nat} (hi : i < x.length) : clampedAt x i = x.getD i 0 := by
  delta clampedAt
  rw [clamp_natCast hi]

theorem windowSum_zero (f : Int → Nat) (j : Int) : windowSum f 0 j = f j := by
  simp [windowSum_eq_sum]

theorem boxLine_zero (x : List Nat) : boxLine 0 x = x := by
  refine Eq.trans (List.map_congr_left fun i hi => ?_) (map_range_getD x)
  rw [windowSum_zero, clampedAt_natCast x (List.mem_range.mp hi)]
  exact Nat.div_one _

theorem tent2Line_zero (x : List Nat) : tent2Line 0 x = x := by
  refine Eq.trans (List.map_congr_left fun i hi => ?_) (map_range_getD x)
  rw [← windowSum_windowSum, windowSum_zero, windowSum_zero, clampedAt_natCast x (List.mem_range.mp hi)]
  exact Nat.div_one _

end Sys2Proof.Machine
end

