-- ==== Sys2Proof/Proofs/MedianHistogram.lean ====
section
/-! SUPPORT. The histogram mechanism finds the median by rank (spec 44_median.md R241, R243 to R246): a table is the counts of
its samples, sliding it keeps it so, and the rank scan of the counts ends at the element of that rank. -/

namespace Sys2Proof.Machine

/-! ### Tables as counts -/

/-- The table that counts the samples, for the 256 values it has counters for. -/
def countTable (xs : List Nat) : List Nat := (List.range 256).map fun v => xs.count v

theorem countTable_getElem? (xs : List Nat) (v : Nat) :
    (countTable xs)[v]? = if v < 256 then some (xs.count v) else none := by
  delta countTable
  by_cases hv : v < 256 <;> simp [hv]

theorem countTable_perm {xs ys : List Nat} (h : xs.Perm ys) : countTable xs = countTable ys :=
  List.map_congr_left fun v _ => h.count_eq v

/-- Counting a sample in (R243). -/
theorem countIn_countTable (xs : List Nat) (v : Nat) : countIn (countTable xs) v = countTable (v :: xs) := by
  refine List.ext_getElem? fun u => ?_
  show ((countTable xs).modify v (· + 1))[u]? = _
  rw [List.getElem?_modify, countTable_getElem?, countTable_getElem?, List.count_cons]
  by_cases hu : u < 256 <;> by_cases huv : v = u <;> simp [hu, huv]

/-- Counting a sample out that the table counts (R244). -/
theorem countOut_countTable (xs : List Nat) (v : Nat) : countOut (countTable (v :: xs)) v = countTable xs := by
  refine List.ext_getElem? fun u => ?_
  show ((countTable (v :: xs)).modify v (· - 1))[u]? = _
  rw [List.getElem?_modify, countTable_getElem?, countTable_getElem?, List.count_cons]
  by_cases hu : u < 256 <;> by_cases huv : v = u <;> simp [hu, huv]

/-- Clearing the table and counting every sample (R243). -/
theorem fillTable_eq (xs : List Nat) : fillTable xs = countTable xs := by
  have hfold (ys : List Nat) : ∀ zs, ys.foldl countIn (countTable zs) = countTable (ys.reverse ++ zs) := by
    induction ys with
    | nil => exact fun _ => rfl
    | cons y ys ih =>
      intro zs
      rw [List.foldl_cons, countIn_countTable, ih, List.reverse_cons, List.append_assoc]
      rfl
  have hempty : emptyTable = countTable [] := by
    delta emptyTable countTable
    simp only [List.count_nil, List.map_const', List.length_range]
  show xs.foldl countIn emptyTable = _
  rw [hempty, hfold, List.append_nil]
  exact countTable_perm xs.reverse_perm

/-! ### The window as it slides -/

theorem offsets_eq (r : Nat) : offsets r = (List.range (2 * r + 1)).map fun (k : Nat) => (k : Int) - r := by
  delta offsets
  simp only [List.bind_eq_flatMap, List.pure_def, List.map_flatMap, List.map_cons, List.map_nil]
  exact List.flatMap_pure_eq_map _ _

/-- The samples of row `dy` of the window at `(y, c)` (R240). -/
def windowRow (g : Int → Int → Nat) (r y c : Nat) (dy : Int) : List Nat := (offsets r).map fun dx => g (y + dy) (c + dx)

theorem windowSamples_eq (g : Int → Int → Nat) (r y c : Nat) :
    windowSamples g r y c = (offsets r).flatMap (windowRow g r y c) := rfl

/-- A row of the window as the columns it shares with the next window, and the one that leaves (R244). -/
theorem windowRow_eq_cons (g : Int → Int → Nat) (r y c : Nat) (dy : Int) :
    windowRow g r y c dy =
      g (y + dy) ((c : Int) - r) :: (List.range (2 * r)).map fun (k : Nat) => g (y + dy) ((c : Int) + 1 + k - r) := by
  delta windowRow
  rw [offsets_eq, List.range_succ_eq_map, List.map_cons, List.map_cons, List.map_map, List.map_map]
  congr 1
  · exact congrArg _ (by push_cast; ring)
  · exact List.map_congr_left fun k _ => congrArg (g (y + dy)) (by dsimp only; push_cast; ring)

/-- A row of the next window as the columns it shares with this one, and the one that enters (R244). -/
theorem windowRow_succ_eq_append (g : Int → Int → Nat) (r y c : Nat) (dy : Int) :
    windowRow g r y (c + 1) dy =
      ((List.range (2 * r)).map fun (k : Nat) => g (y + dy) ((c : Int) + 1 + k - r)) ++ [g (y + dy) ((c : Int) + 1 + r)] := by
  delta windowRow
  rw [offsets_eq, List.range_succ, List.map_append, List.map_append, List.map_map]
  congr 1
  · exact List.map_congr_left fun k _ => congrArg (g (y + dy)) (by dsimp only; push_cast; ring)
  · exact congrArg (fun i => [g (y + dy) i]) (by push_cast; ring)

/-- Counting one row's leaving sample out and its entering one in (R244). -/
theorem slideRow_countTable (bucket : Nat → Nat) (g : Int → Int → Nat) (r y c : Nat) (dy : Int) (before after : List Nat) :
    countIn (countOut (countTable (before ++ ((windowRow g r y c dy).map bucket ++ after)))
        (bucket (g (y + dy) ((c : Int) - r)))) (bucket (g (y + dy) ((c : Int) + 1 + r))) =
      countTable (before ++ (windowRow g r y (c + 1) dy).map bucket ++ after) := by
  rw [windowRow_eq_cons, windowRow_succ_eq_append, List.map_cons, List.map_append, List.cons_append,
    countTable_perm List.perm_middle, countOut_countTable, countIn_countTable]
  refine countTable_perm (List.Perm.symm ?_)
  rw [List.map_cons, List.map_nil, ← List.append_assoc, ← List.append_assoc, List.append_assoc _ [_] after]
  exact List.perm_middle

/-- Row after row of the window (R244). -/
theorem slideRows_countTable (bucket : Nat → Nat) (g : Int → Int → Nat) (r y c : Nat) (dys : List Int) (before : List Nat) :
    dys.foldl
        (fun t dy =>
          countIn (countOut t (bucket (g (y + dy) ((c : Int) - r)))) (bucket (g (y + dy) ((c : Int) + 1 + r))))
        (countTable (before ++ (dys.flatMap (windowRow g r y c)).map bucket)) =
      countTable (before ++ (dys.flatMap (windowRow g r y (c + 1))).map bucket) := by
  induction dys generalizing before with
  | nil => rfl
  | cons dy dys ih =>
    rw [List.foldl_cons, List.flatMap_cons, List.flatMap_cons, List.map_append, List.map_append, slideRow_countTable, ih,
      List.append_assoc]

/-- The table kept along the row counts the window of every column (R243, R244). -/
theorem slideTable_countTable (cw : CompWidth) (g : Int → Int → Nat) (r y c : Nat) :
    slideTable cw g r y c (countTable ((windowSamples g r y c).map (bucketOf cw))) =
      countTable ((windowSamples g r y (c + 1)).map (bucketOf cw)) :=
  slideRows_countTable (bucketOf cw) g r y c (offsets r) []

theorem tablesFrom_eq (cw : CompWidth) (g : Int → Int → Nat) (r y n c : Nat) :
    tablesFrom cw g r y c (countTable ((windowSamples g r y c).map (bucketOf cw))) n =
      (List.range n).map fun k => countTable ((windowSamples g r y (c + k)).map (bucketOf cw)) := by
  induction n generalizing c with
  | zero => rfl
  | succ n ih =>
    show _ :: tablesFrom cw g r y (c + 1) (slideTable cw g r y c _) n = _
    rw [slideTable_countTable, ih, List.range_succ_eq_map, List.map_cons, List.map_map]
    refine congrArg (List.cons _) (List.map_congr_left fun k _ => ?_)
    rw [Function.comp_apply, Nat.succ_eq_add_one, Nat.add_assoc, Nat.add_comm 1]

/-! ### Rank and the rank scan -/

/-- How many samples are below `v`. -/
def countBelow (xs : List Nat) (v : Nat) : Nat := xs.countP fun x => decide (x < v)

theorem countBelow_succ (xs : List Nat) (v : Nat) : countBelow xs (v + 1) = countBelow xs v + xs.count v := by
  delta countBelow
  induction xs with
  | nil => rfl
  | cons x xs ih =>
    simp only [List.countP_cons, List.count_cons, ih, decide_eq_true_eq, beq_iff_eq]
    rcases Nat.lt_trichotomy x v with h | h | h
    · simp [h, h.ne, Nat.lt_succ_of_lt h]; omega
    · simp [h]; omega
    · have h1 : ¬ x < v := by omega
      have h2 : ¬ x < v + 1 := by omega
      simp [h1, h2, h.ne']

theorem countBelow_eq_length {xs : List Nat} {v : Nat} (h : ∀ x ∈ xs, x < v) : countBelow xs v = xs.length :=
  List.countP_eq_length.mpr fun x hx => decide_eq_true (h x hx)

theorem countBelow_perm {xs ys : List Nat} (h : xs.Perm ys) (v : Nat) : countBelow xs v = countBelow ys v :=
  h.countP_eq _

/-- `v` is the element of the rank when fewer samples than that are below it and enough are not above it (R241). -/
def HasRank (xs : List Nat) (rank v : Nat) : Prop := countBelow xs v < rank ∧ rank ≤ countBelow xs (v + 1)

/-- In a sorted list the elements below `v` come first. -/
theorem sorted_getElem_lt_iff {xs : List Nat} (hs : xs.Pairwise (· ≤ ·)) {i : Nat} (hi : i < xs.length) (v : Nat) :
    xs[i] < v ↔ i < countBelow xs v := by
  induction xs generalizing i with
  | nil => exact absurd hi (Nat.not_lt_zero i)
  | cons x xs ih =>
    obtain ⟨hx, hs⟩ := List.pairwise_cons.mp hs
    by_cases hxv : x < v
    · have hcount : countBelow (x :: xs) v = countBelow xs v + 1 := List.countP_cons_of_pos (decide_eq_true hxv)
      cases i with
      | zero => simp [hcount, hxv]
      | succ i =>
        have := ih hs (Nat.lt_of_succ_lt_succ hi)
        rw [List.getElem_cons_succ]
        omega
    · have hall : ∀ y ∈ x :: xs, ¬ y < v := by
        intro y hy
        rcases List.mem_cons.mp hy with rfl | hy
        · exact hxv
        · have := hx y hy
          omega
      have hcount : countBelow (x :: xs) v = 0 := List.countP_eq_zero.mpr fun y hy => by simpa using hall y hy
      have := hall _ (List.getElem_mem hi)
      omega

/-- The element of a rank, by the counts on both sides of it (R241). -/
theorem elementOfRank_eq {xs : List Nat} {rank v : Nat} (h : HasRank xs rank v) : elementOfRank rank xs = v := by
  obtain ⟨hbelow, habove⟩ := h
  have hperm : (xs.insertionSort (· ≤ ·)).Perm xs := List.perm_insertionSort _ xs
  have hsorted : (xs.insertionSort (· ≤ ·)).Pairwise (· ≤ ·) := List.pairwise_insertionSort _ xs
  have hlength : countBelow xs (v + 1) ≤ xs.length := List.countP_le_length
  have hi : rank - 1 < (xs.insertionSort (· ≤ ·)).length := by
    rw [hperm.length_eq]
    omega
  have hlo := sorted_getElem_lt_iff hsorted hi v
  have hhi := sorted_getElem_lt_iff hsorted hi (v + 1)
  rw [countBelow_perm hperm] at hlo hhi
  show (xs.insertionSort (· ≤ ·)).getD (rank - 1) 0 = v
  rw [List.getD_eq_getElem _ _ hi]
  omega

theorem rankScan_cons (rank n : Nat) (table : List Nat) (t v : Nat) :
    rankScan rank (n :: table) t v = if t + n < rank then rankScan rank table (t + n) (v + 1) else (v, t) := rfl

/-- The rank scan from value `v` on, with `base + countBelow xs v` elements below it: where the counts reach the rank, it
ends at the first value at which they do (R245, R246). -/
theorem rankScan_counts (rank base : Nat) (xs : List Nat) (n v : Nat) (hlo : base + countBelow xs v < rank)
    (hhi : rank ≤ base + countBelow xs (v + n)) :
    ∃ u, u < v + n ∧ rankScan rank ((List.range' v n).map fun w => xs.count w) (base + countBelow xs v) v =
        (u, base + countBelow xs u) ∧
      base + countBelow xs u < rank ∧ rank ≤ base + countBelow xs (u + 1) := by
  induction n generalizing v with
  | zero => exact absurd hhi (Nat.not_le.mpr hlo)
  | succ n ih =>
    have hsucc := countBelow_succ xs v
    rw [List.range'_succ, List.map_cons, rankScan_cons]
    by_cases hmore : base + countBelow xs v + xs.count v < rank
    · obtain ⟨u, hu, hscan, hrank⟩ := ih (v + 1) (by omega) (by rwa [Nat.add_right_comm])
      refine ⟨u, by omega, ?_, hrank⟩
      rw [if_pos hmore, Nat.add_assoc, ← hsucc, hscan]
    · refine ⟨v, by omega, if_neg hmore, hlo, ?_⟩
      omega

/-- The scan of a whole table whose counters reach the rank. -/
theorem rankScan_countTable {rank base : Nat} {xs : List Nat} (hlo : base < rank) (hhi : rank ≤ base + xs.length)
    (hxs : ∀ x ∈ xs, x < 256) :
    ∃ u, u < 256 ∧ rankScan rank (countTable xs) base 0 = (u, base + countBelow xs u) ∧
      base + countBelow xs u < rank ∧ rank ≤ base + countBelow xs (u + 1) := by
  have hzero : countBelow xs 0 = 0 := List.countP_eq_zero.mpr fun x _ => by simp
  have hall : countBelow xs 256 = xs.length := countBelow_eq_length hxs
  obtain ⟨u, hu, hscan, hrank⟩ := rankScan_counts rank base xs 256 0 (by omega) (by rw [Nat.zero_add]; omega)
  rw [hzero, ← List.range_eq_range'] at hscan
  exact ⟨u, by omega, hscan, hrank⟩

/-! ### One output -/

theorem windowSamples_length (g : Int → Int → Nat) (r y c : Nat) :
    (windowSamples g r y c).length = (2 * r + 1) * (2 * r + 1) := by
  have hrow (dy : Int) : (windowRow g r y c dy).length = 2 * r + 1 := by
    delta windowRow
    simp [offsets_eq]
  rw [windowSamples_eq, List.length_flatMap, List.map_congr_left fun dy _ => hrow dy]
  simp [offsets_eq, Function.comp_def]

theorem medianRank_bounds (g : Int → Int → Nat) (r y c : Nat) :
    0 < medianRank r ∧ medianRank r ≤ (windowSamples g r y c).length := by
  have hpos : 0 < (2 * r + 1) * (2 * r + 1) := by positivity
  rw [windowSamples_length]
  delta medianRank
  omega

theorem mem_windowSamples_le {g : Int → Int → Nat} {M : Nat} (hg : ∀ row col, g row col ≤ M) {r y c v : Nat}
    (hv : v ∈ windowSamples g r y c) : v ≤ M := by
  obtain ⟨dy, -, hv⟩ := List.mem_flatMap.mp hv
  obtain ⟨dx, -, rfl⟩ := List.mem_map.mp hv
  exact hg _ _

/-- The low bytes of the samples whose high byte is `b` (R246). -/
def lowBytes (xs : List Nat) (b : Nat) : List Nat := (xs.filter fun s => s / 256 == b).map (· % 256)

theorem lowBytes_lt {xs : List Nat} {b v : Nat} (h : v ∈ lowBytes xs b) : v < 256 := by
  obtain ⟨s, -, rfl⟩ := List.mem_map.mp h
  exact Nat.mod_lt s (by decide)

theorem fineTable_eq (xs : List Nat) (b : Nat) : fineTable xs b = countTable (lowBytes xs b) := fillTable_eq _

/-- How many samples are below a 16-bit value, by high and low byte (R246). -/
theorem countBelow_split (xs : List Nat) (b : Nat) {u : Nat} (hu : u ≤ 256) :
    countBelow xs (256 * b + u) = countBelow (xs.map (· / 256)) b + countBelow (lowBytes xs b) u := by
  delta countBelow lowBytes
  induction xs with
  | nil => rfl
  | cons x xs ih =>
    by_cases hb : x / 256 = b
    · have hbelow : x < 256 * b + u ↔ x % 256 < u := by omega
      simp only [List.map_cons, List.countP_cons, List.filter_cons, hb, beq_self_eq_true, if_true, ih, decide_eq_true_eq,
        hbelow, lt_irrefl, if_false]
      omega
    · have hbelow : x < 256 * b + u ↔ x / 256 < b := by omega
      have hne : (x / 256 == b) = false := beq_eq_false_iff_ne.mpr hb
      simp only [List.map_cons, List.countP_cons, List.filter_cons, hne, ih, decide_eq_true_eq, hbelow, Bool.false_eq_true,
        if_false]
      omega

/-- The samples of one coarse bucket (R246). -/
theorem countBelow_high_succ (xs : List Nat) (b : Nat) :
    countBelow (xs.map (· / 256)) (b + 1) = countBelow (xs.map (· / 256)) b + (lowBytes xs b).length := by
  have hnext := countBelow_split xs (b + 1) (Nat.zero_le 256)
  have hall := countBelow_split xs b (le_refl 256)
  have hnone : countBelow (lowBytes xs (b + 1)) 0 = 0 := List.countP_eq_zero.mpr fun x _ => by simp
  rw [countBelow_eq_length fun _ => lowBytes_lt] at hall
  rw [hnone, Nat.mul_succ, Nat.add_zero, Nat.add_zero, hall] at hnext
  exact hnext.symm

section
variable {g : Int → Int → Nat} (r y c : Nat)

/-- 8-bit components: the rank scan of the row's table (R245). -/
theorem medianFromTable_u8 (hg : ∀ row col, g row col ≤ CompWidth.u8.maxValue) :
    (medianFromTable .u8 g r y c (countTable (windowSamples g r y c))).1 = medianAt g r y c := by
  obtain ⟨hpos, hlen⟩ := medianRank_bounds g r y c
  obtain ⟨u, -, hscan, hlo, hhi⟩ := rankScan_countTable (base := 0) hpos (by rwa [Nat.zero_add])
    fun v hv => Nat.lt_succ_of_le (mem_windowSamples_le hg hv)
  rw [Nat.zero_add] at hlo hhi
  show (rankScan (medianRank r) (countTable (windowSamples g r y c)) 0 0).1 = elementOfRank _ _
  rw [hscan, elementOfRank_eq ⟨hlo, hhi⟩]

/-- 16-bit components: the coarse scan finds the high byte, the scan of that bucket's fine table the low one (R246). -/
theorem medianFromTable_u16 (hg : ∀ row col, g row col ≤ CompWidth.u16.maxValue) :
    (medianFromTable .u16 g r y c (countTable ((windowSamples g r y c).map (· / 256)))).1 = medianAt g r y c := by
  obtain ⟨hpos, hlen⟩ := medianRank_bounds g r y c
  have hhigh : ∀ x ∈ (windowSamples g r y c).map (· / 256), x < 256 := by
    intro x hx
    obtain ⟨v, hv, rfl⟩ := List.mem_map.mp hx
    have hv : v ≤ 65535 := mem_windowSamples_le hg hv
    show v / 256 < 256
    omega
  obtain ⟨b, -, hcoarse, hlo, hhi⟩ := rankScan_countTable (base := 0) hpos (by rwa [List.length_map, Nat.zero_add]) hhigh
  rw [Nat.zero_add] at hcoarse hlo hhi
  rw [countBelow_high_succ] at hhi
  obtain ⟨u, hu, hfine, hlo, hhi⟩ := rankScan_countTable hlo hhi fun _ => lowBytes_lt
  have hresult : (medianFromTable .u16 g r y c (countTable ((windowSamples g r y c).map (· / 256)))).1 = 256 * b + u := by
    delta medianFromTable
    dsimp only
    rw [hcoarse]
    dsimp only
    rw [fineTable_eq, hfine]
  refine hresult.trans (elementOfRank_eq ⟨?_, ?_⟩).symm
  · rwa [countBelow_split _ b hu.le]
  · rwa [Nat.add_assoc, countBelow_split _ b (Nat.succ_le_of_lt hu)]

end

/-- The output of the mechanism at one column is the median of its window (R245, R246). -/
theorem medianFromTable_fst {cw : CompWidth} {g : Int → Int → Nat} (hg : ∀ row col, g row col ≤ cw.maxValue) (r y c : Nat) :
    (medianFromTable cw g r y c (countTable ((windowSamples g r y c).map (bucketOf cw)))).1 = medianAt g r y c := by
  cases cw with
  | u8 =>
    have hbucket : (windowSamples g r y c).map (bucketOf .u8) = windowSamples g r y c := List.map_id _
    rw [hbucket, medianFromTable_u8 r y c hg]
  | u16 => exact medianFromTable_u16 r y c hg

/-- The histogram mechanism finds the median at every column of an output row (R243 to R246). -/
theorem medianRow_out (cw : CompWidth) (g : Int → Int → Nat) (hg : ∀ row col, g row col ≤ cw.maxValue) (r y n : Nat) :
    (medianRow cw g r y n).out = (List.range n).map fun c => medianAt g r y c := by
  have htables : tablesFrom cw g r y 0 (tableAtStart cw g r y) n =
      (List.range n).map fun c => countTable ((windowSamples g r y c).map (bucketOf cw)) := by
    have hstart : tableAtStart cw g r y = countTable ((windowSamples g r y 0).map (bucketOf cw)) := fillTable_eq _
    rw [hstart, tablesFrom_eq]
    simp only [Nat.zero_add]
  show ((tablesFrom cw g r y 0 (tableAtStart cw g r y) n).mapIdx fun c table =>
    medianFromTable cw g r y c table).map (·.1) = _
  rw [htables]
  refine List.ext_getElem (by simp) fun c _ _ => ?_
  simp [medianFromTable_fst hg]

/-- The median is one of the samples' values, so it does not exceed their bound (R247). -/
theorem medianAt_le {g : Int → Int → Nat} {M : Nat} (hg : ∀ row col, g row col ≤ M) (r y c : Nat) : medianAt g r y c ≤ M := by
  delta medianAt elementOfRank
  rw [List.getD_eq_getElem?_getD]
  cases h : ((windowSamples g r y c).insertionSort (· ≤ ·))[medianRank r - 1]? with
  | none => exact Nat.zero_le M
  | some v => exact mem_windowSamples_le hg ((List.perm_insertionSort _ _).mem_iff.mp (List.mem_of_getElem? h))

/-- The window of radius 0 is its centre. -/
theorem medianAt_zero (g : Int → Int → Nat) (y c : Nat) : medianAt g 0 y c = g y c := by
  have hwindow : windowSamples g 0 y c = [g y c] := by
    delta windowSamples
    simp [offsets_eq]
  delta medianAt
  rw [hwindow]
  rfl

end Sys2Proof.Machine
end

