-- ==== Sys2Proof/Proofs/Images.lean ====
section
/-! SUPPORT. Passes as functions on images (spec 40_pipeline.md R148 to R150, R155): a pass takes the image in the buffer it
reads to an image in closed form in the buffer it writes, whichever mechanism its lines run by, and changes no other byte. -/

namespace Sys2Proof.Machine

/-! ### A component after a pass -/

/-- A component value fits the bytes of its width (R7). -/
theorem lt_of_le_maxValue {cw : CompWidth} {v : Nat} (h : v ≤ cw.maxValue) : v < 256 ^ cw.bytes := by
  cases cw with
  | u8 => exact Nat.lt_succ_of_le h
  | u16 => exact Nat.lt_succ_of_le h

/-- The entry of an interleaved line. -/
theorem getD_interleave {n k : Nat} (f : Nat → List Nat) {j ch : Nat} (hj : j < n) (hch : ch < k) :
    ((interleave n ((List.range k).map f)).getD j []).getD ch 0 = (f ch).getD j 0 := by
  delta interleave
  rw [getD_map_range _ hj, List.map_map, getD_map_range _ hch]
  rfl

/-- One channel of a loaded line (R147). -/
theorem channelOf_lineComponents (p : Pass) (m : Memory) (line : Nat) {ch : Nat} (hch : ch < p.reads.channels.count) :
    channelOf (lineComponents p m line) ch =
      (List.range p.lineLength).map fun j => loadComponent p.reads m (p.rowOf line j) (p.colOf line j) ch := by
  delta channelOf lineComponents
  rw [List.map_map]
  exact List.map_congr_left fun j _ => getD_map_range _ hch 0

/-- The image a pass makes of the image it reads, in closed form (R148, R149, spec 44_median.md R242). -/
def passImage (p : Pass) (coef : List Nat) (img : Image) : Image :=
  match p with
  | .row f a _ => onRows (f.closedForm coef a.cw.maxValue) a.width img
  | .col f b => onColumns (f.closedForm coef b.cw.maxValue) b.height img
  | .window r src _ => median2D r src.width src.height img

/-- What a line computes is that image, by whichever mechanism. -/
theorem lineOutput_eq_passImage (p : Pass) (coef : List Nat) (m : Memory) (line : Nat) {j ch : Nat} (hj : j < p.lineLength)
    (hch : ch < p.reads.channels.count) :
    ((lineOutput p coef m line).getD j []).getD ch 0 =
      passImage p coef (imageOf p.reads m) (p.rowOf line j) (p.colOf line j) ch := by
  cases p with
  | row f a b =>
    refine (getD_interleave _ hj hch).trans ?_
    rw [channelOf_lineComponents _ m line hch, runOn_out]
    rfl
  | col f b =>
    refine (getD_interleave _ hj hch).trans ?_
    rw [channelOf_lineComponents _ m line hch, runOn_out]
    rfl
  | window r src dst =>
    refine (getD_interleave _ hj hch).trans ?_
    have hbound (row col : Int) : sampleComponent src m row col ch ≤ src.cw.maxValue := loadComponent_le src m _ _ ch
    rw [medianRow_out src.cw _ hbound]
    exact getD_map_range _ hj 0

/-- Components are in range after a pass too (R145). -/
theorem passImage_le (p : Pass) (coef : List Nat) {img : Image} (himg : ∀ row col ch, img row col ch ≤ p.reads.cw.maxValue)
    (row col ch : Nat) : passImage p coef img row col ch ≤ p.reads.cw.maxValue := by
  have hline {M : Nat} (f : LineFn) (n i : Nat) {g : Nat → Nat} (hg : ∀ j, g j ≤ M) :
      (f.closedForm coef M ((List.range n).map g)).getD i 0 ≤ M := by
    rw [List.getD_eq_getElem?_getD]
    cases h : (f.closedForm coef M ((List.range n).map g))[i]? with
    | none => exact Nat.zero_le M
    | some v =>
      refine closedForm_boundedBy f coef (fun u hu => ?_) v (List.mem_of_getElem? h)
      obtain ⟨j, -, rfl⟩ := List.mem_map.mp hu
      exact hg j
  cases p with
  | row f a b => exact hline f a.width col fun j => himg row j ch
  | col f b => exact hline f b.height row fun j => himg j col ch
  | window r src dst => exact medianAt_le (fun _ _ => himg _ _ _) r row col

section
variable {memBytes : Nat} {p : Pass} (hp : LegalPass memBytes p)
include hp

/-- A legal pass reads and writes buffers of one size. -/
theorem LegalPass.sameSize : SameSize p.reads p.writes := by
  cases p with
  | row f a b =>
    obtain ⟨-, -, hsize, -⟩ := hp
    exact hsize
  | col f b => exact ⟨rfl, rfl, rfl, rfl⟩
  | window r src dst =>
    obtain ⟨-, -, hsize, -⟩ := hp
    exact hsize

/-- The lines of a legal pass cover the buffer it writes (R147). -/
theorem LegalPass.exists_line {row col ch : Nat} (h : InBounds p.writes row col ch) :
    ∃ line j, line < p.lines ∧ j < p.lineLength ∧ row = p.rowOf line j ∧ col = p.colOf line j := by
  obtain ⟨hwidth, hheight, -, -⟩ := hp.sameSize
  obtain ⟨hrow, hcol, -⟩ := h
  cases p with
  | row f a b => exact ⟨row, col, hrow.trans_eq hheight.symm, hcol.trans_eq hwidth.symm, rfl, rfl⟩
  | col f b => exact ⟨col, row, hcol, hrow, rfl, rfl⟩
  | window r src dst => exact ⟨row, col, hrow.trans_eq hheight.symm, hcol.trans_eq hwidth.symm, rfl, rfl⟩

/-- A pass reads the in-bounds components of its image only. -/
theorem passImage_congr (coef : List Nat) {img img' : Image}
    (himg : ∀ row col ch, InBounds p.reads row col ch → img row col ch = img' row col ch) {row col ch : Nat}
    (h : InBounds p.reads row col ch) : passImage p coef img row col ch = passImage p coef img' row col ch := by
  obtain ⟨hrow, hcol, hch⟩ := h
  cases p with
  | row f a b =>
    exact congrArg (fun x => List.getD (f.closedForm coef _ x) col 0)
      (List.map_congr_left fun j hj => himg row j ch ⟨hrow, List.mem_range.mp hj, hch⟩)
  | col f b =>
    exact congrArg (fun x => List.getD (f.closedForm coef _ x) row 0)
      (List.map_congr_left fun j hj => himg j col ch ⟨List.mem_range.mp hj, hcol, hch⟩)
  | window r src dst =>
    obtain ⟨hwidth, hheight, -⟩ := hp.reads_fits
    exact congrArg (fun g => medianAt g r row col)
      (funext₂ fun y x => himg _ _ ch ⟨clamp_lt y hheight, clamp_lt x hwidth, hch⟩)

/-- What a line of a pass leaves in one of its components. -/
theorem loadComponent_passMemory (coef : List Nat) {m : Memory} (hm : m.wf) {line j ch : Nat} (hl : line < p.lines)
    (hj : j < p.lineLength) (hch : ch < p.writes.channels.count) :
    loadComponent p.writes (passMemory p coef m) (p.rowOf line j) (p.colOf line j) ch =
      ((lineOutput p coef m line).getD j []).getD ch 0 % 256 ^ p.writes.cw.bytes := by
  have hconsistent := hp.consistent_lineCells coef (order := List.range p.lines) (fun l hl => List.mem_range.mp hl) m
  have hbytes : (passMemory p coef m).bytesAt (bufAddr p.writes (p.rowOf line j) (p.colOf line j) ch) p.writes.cw.bytes =
      bytesOfNat p.writes.cw.bytes (((lineOutput p coef m line).getD j []).getD ch 0) := by
    rw [bytesOfNat_eq_map_range, passMemory_eq_writeAll hp coef hm]
    refine List.map_congr_left fun k hk => ?_
    have hcell : (bufAddr p.writes (p.rowOf line j) (p.colOf line j) ch + k,
        BitVec.ofNat 8 (((lineOutput p coef m line).getD j []).getD ch 0 / 256 ^ k)) ∈ lineCells p coef m line :=
      Iff.mpr mem_lineWrites ⟨j, ch, k, hj, hch, List.mem_range.mp hk, rfl⟩
    exact read_writeAll_of_consistent hm hconsistent (List.mem_flatMap.mpr ⟨line, List.mem_range.mpr hl, hcell⟩)
  show natOfBytes (Memory.bytesAt _ _ _) = _
  rw [hbytes, natOfBytes_bytesOfNat]

/-- A pass takes the image in the buffer it reads to its own image in the buffer it writes (R148, R149, R242). -/
theorem passMemory_holds (coef : List Nat) {m : Memory} (hm : m.wf) {img : Image} (h : Holds p.reads m img) :
    Holds p.writes (passMemory p coef m) (passImage p coef img) := by
  intro row col ch hb
  obtain ⟨hwidth, hheight, hchannels, hcw⟩ := hp.sameSize
  have hb' : InBounds p.reads row col ch := by rwa [InBounds, hwidth, hheight, hchannels]
  obtain ⟨-, -, hchw⟩ := id hb
  obtain ⟨-, -, hchr⟩ := id hb'
  obtain ⟨line, j, hl, hj, rfl, rfl⟩ := hp.exists_line hb
  have hbound := passImage_le p coef (img := imageOf p.reads m) (loadComponent_le p.reads m) (p.rowOf line j) (p.colOf line j) ch
  rw [loadComponent_passMemory hp coef hm hl hj hchw, lineOutput_eq_passImage p coef m line hj hchr,
    Nat.mod_eq_of_lt (lt_of_le_maxValue (hcw ▸ hbound))]
  exact passImage_congr hp coef (fun row col ch hb => h row col ch hb) hb'

end

/-! ### Pass lists -/

theorem passesMemory_append (ps qs : List Pass) (coef : List Nat) (m : Memory) :
    passesMemory (ps ++ qs) coef m = passesMemory qs coef (passesMemory ps coef m) := List.foldl_append

/-- Passes that all write one buffer leave every byte but its pixels (R159). -/
theorem passesMemory_sameOutside {memBytes : Nat} {dst : Buffer} {passes : List Pass} (coef : List Nat)
    (hp : ∀ p ∈ passes, LegalPass memBytes p ∧ p.writes = dst) {m : Memory} (hm : m.wf) :
    SameOutside (pixelArea dst) m (passesMemory passes coef m) := by
  induction passes generalizing m with
  | nil => exact fun _ _ => rfl
  | cons p passes ih =>
    obtain ⟨hlegal, hwrites⟩ := hp p List.mem_cons_self
    intro a ha
    have hpass : (passMemory p coef m).read a = m.read a := passMemory_sameOutside hlegal coef hm a (hwrites ▸ ha)
    exact (ih (fun q hq => hp q (List.mem_cons_of_mem p hq)) (linesMemory_wf hm _ p coef) a ha).trans hpass

/-- A row pass and a column pass in place of what it wrote: the separable filter of the line function (R150). -/
theorem separable_holds {memBytes : Nat} {f : LineFn} {src dst : Buffer} (hp : LegalPass memBytes (.row f src dst))
    (coef : List Nat) {m : Memory} (hm : m.wf) {img : Image} (h : Holds src m img) :
    Holds dst (passesMemory [.row f src dst, .col f dst] coef m)
      (separable (f.closedForm coef dst.cw.maxValue) dst.width dst.height img) := by
  obtain ⟨-, hdst, ⟨hwidth, -, -, hcw⟩, -⟩ := id hp
  have hrows : Holds dst (passMemory (.row f src dst) coef m)
      (onRows (f.closedForm coef dst.cw.maxValue) dst.width img) := by
    rw [← hwidth, ← hcw]
    exact passMemory_holds hp coef hm h
  have hcol : LegalPass memBytes (.col f dst) := hdst
  exact passMemory_holds hcol coef (linesMemory_wf hm _ _ coef) hrows

end Sys2Proof.Machine
end

