-- ==== Sys2Proof/Proofs/Commands.lean ====
section
/-! SUPPORT. The commands of spec 40_pipeline.md: what a step makes of them (R140, R157, R158), and for each filter that it
leaves its image in closed form in the destination and changes nothing else but what COMPLETE changes (R155, R156, R159). -/

namespace Sys2Proof.Machine

/-! ### What a step and HALT do -/

/-- Settles O6: it is the step's case for a decoded command (`step_of_command`). -/
theorem stepRunsCommandAtCp : Obligations.StepRunsCommandAtCp := fun _ _ hr hf hd => step_of_command hr hf hd

/-- Settles O9: HALT is `enterHalted`, and `irqStatNext` sets the one bit and masks the reserved ones. -/
theorem haltCompletes : Obligations.HaltCompletes := by
  intro s
  have hbit (k : Nat) (hk : k < 2) : (enterHalted s).irqStat.getLsbD k = (s.irqStat.getLsbD k || haltBit.getLsbD k) := by
    rw [enterHalted_irqStat, getLsbD_irqStatNext _ _ _ hk]
    simp
  refine ⟨enterHalted s, rfl, rfl, ?pending, ?other, ?reserved, rfl, rfl, rfl, rfl, rfl, rfl, rfl, rfl, rfl, rfl, rfl, rfl,
    rfl⟩
  case pending => exact (hbit 0 (by decide)).trans (Bool.or_true _)
  case other => exact (hbit 1 (by decide)).trans (Bool.or_false _)
  case reserved => exact Iff.mpr (bits_31_2_eq_zero_iff _) (toNat_and_irqMask_lt _)

/-- Settles O24: the cases are those of `step_cases`. -/
theorem controlTransfers : Obligations.ControlTransfers := by
  intro s t ⟨hw, _, _⟩ h
  obtain ⟨hr, rfl⟩ | ⟨hr, ⟨tr, d, -, -, rfl⟩ | ⟨d, -, rfl⟩ | ⟨i, d, -, rfl⟩⟩ := step_cases hw h
  · exact ⟨fun hrun => absurd hrun hr, fun _ => rfl, id⟩
  · exact ⟨fun _ => .inr (.inr ⟨rfl, rfl⟩), fun _ => rfl, id⟩
  · exact ⟨fun _ => .inr (.inl ⟨rfl, rfl⟩), fun _ => rfl, id⟩
  · exact ⟨fun _ => .inl ⟨hr, rfl⟩, fun hn => absurd hr hn, add_forty_mod_four⟩

/-! ### Filter commands -/

theorem checkTwoBuffers_of_legalPair {src dst : Buffer} {memBytes : Nat} (h : LegalPair src dst memBytes) :
    checkTwoBuffers src dst memBytes = none := by
  obtain ⟨hsrc, hdst, hsize, hapart⟩ := h
  delta checkTwoBuffers
  rw [Iff.mpr checkSource_eq_none hsrc, Iff.mpr checkDest_eq_none hdst, Iff.mpr checkSizes_eq_none hsize,
    Iff.mpr checkOverlap_eq_none hapart]
  rfl

theorem checkGauss_of_legal {src dst : Buffer} {k sigma memBytes : Nat} (h : LegalPair src dst memBytes)
    (hk : LegalKernel k sigma) : checkGauss src dst k sigma memBytes = none := by
  obtain ⟨hsrc, hdst, hsize, hapart⟩ := h
  delta checkGauss
  rw [Iff.mpr checkSource_eq_none hsrc, Iff.mpr checkDest_eq_none hdst, Iff.mpr checkKernel_eq_none hk,
    Iff.mpr checkSizes_eq_none hsize, Iff.mpr checkOverlap_eq_none hapart]
  rfl

/-- Every pass of a command writes its destination (R150). -/
theorem destOf_of_mem_passesOf {i : Instr} {p : Pass} (h : p ∈ passesOf i) : destOf i = [p.writes] := by
  have htwo {f g : LineFn} {a b : Buffer} (h : p ∈ [Pass.row f a b, Pass.col g b]) : p.writes = b := by
    simp only [List.mem_cons, List.not_mem_nil, or_false] at h
    obtain rfl | rfl := h <;> rfl
  cases i with
  | halt => exact absurd h List.not_mem_nil
  | box src dst r => rw [htwo h]; rfl
  | tent src dst r =>
    rcases List.mem_append.mp h with h | h
    · rw [htwo h]; rfl
    · rw [htwo h]; rfl
  | gbox src dst r =>
    rcases List.mem_append.mp h with h | h
    · rcases List.mem_append.mp h with h | h
      · rw [htwo h]; rfl
      · rw [htwo h]; rfl
    · rw [htwo h]; rfl
  | fgauss buf r => rw [htwo h]; rfl
  | fgaussn buf r => rw [htwo h]; rfl
  | gauss src dst k sigma => rw [htwo h]; rfl
  | median src dst r => rw [List.mem_singleton.mp h]; rfl

/-- The passes of a validated command change pixels of its destination only (R159). -/
theorem command_sameOutside {i : Instr} {memBytes : Nat} (hc : checkOf i memBytes = none) {m : Memory} (hm : m.wf) {dst : Buffer}
    (hd : destOf i = [dst]) : SameOutside (pixelArea dst) m (passesMemory (passesOf i) (coefOf i) m) :=
  passesMemory_sameOutside (memBytes := memBytes) _ (fun p hp =>
    ⟨passesOf_legal hc p hp, List.head_eq_of_cons_eq ((destOf_of_mem_passesOf hp).symm.trans hd)⟩) hm

/-- COMPLETE with the memory the passes left, where the destination holds the image and only its pixels have changed (R156). -/
theorem completed_of_memory {dst : Buffer} {img : Image} {s : State} {m : Memory} (hold : Holds dst m img)
    (hframe : SameOutside (pixelArea dst) s.mem m) : Completed dst img s { completeCommand s with mem := m } :=
  ⟨rfl, rfl, hold, hframe, ⟨rfl, rfl, rfl, rfl, rfl, rfl, rfl, rfl, rfl⟩, rfl, rfl, rfl⟩

/-- A filter command on legal operands completes with the image its passes leave (R155, R156, R159). -/
theorem exec_completed {i : Instr} {dst : Buffer} {img : Image} {s : State} (hs : Ready s) (hi : i ≠ .halt)
    (hc : checkOf i s.memBytes = none) (hd : destOf i = [dst])
    (hold : Holds dst (passesMemory (passesOf i) (coefOf i) s.mem) img) :
    ∃ t, exec i s = .next t ∧ Completed dst img s t := by
  obtain ⟨hw, hm, hpending⟩ := hs
  exact ⟨_, exec_completes hi s hw hpending hc, completed_of_memory hold (command_sameOutside hc hm hd)⟩

/-- Everything a filter command can do: fault entry, or COMPLETE with the memory its passes leave (R142, R155). -/
theorem exec_cases {i : Instr} {s t : State} (hs : Ready s) (hi : i ≠ .halt) (h : exec i s = .next t) :
    (∃ tr, checkOf i s.memBytes = some tr ∧ t = raiseTrap tr s) ∨
      checkOf i s.memBytes = none ∧ t = { completeCommand s with mem := passesMemory (passesOf i) (coefOf i) s.mem } := by
  obtain ⟨hw, -, hpending⟩ := hs
  cases hc : checkOf i s.memBytes with
  | some tr =>
    rw [exec_traps hi s hc] at h
    cases h
    exact .inl ⟨tr, rfl, rfl⟩
  | none =>
    rw [exec_completes hi s hw hpending hc] at h
    cases h
    exact .inr ⟨rfl, rfl⟩

/-! ### The filters -/

/-- The row pass of a legal pair, and the one in place on its destination. -/
theorem rowPass_legal {src dst : Buffer} {memBytes : Nat} (h : LegalPair src dst memBytes) (f : LineFn) :
    LegalPass memBytes (.row f src dst) ∧ LegalPass memBytes (.row f dst dst) := by
  obtain ⟨-, hdst, -⟩ := id h
  exact ⟨fromSource_legal h f _ List.mem_cons_self, inPlace_legal hdst f _ List.mem_cons_self⟩

/-- Settles O10: the row and column passes of `BoxLine_r` are `Box2D_r` (`separable_holds`). -/
theorem boxCompletes : Obligations.BoxCompletes := by
  intro src dst r s hs h
  obtain ⟨-, hm, -⟩ := id hs
  obtain ⟨hfirst, -⟩ := rowPass_legal h (.box r)
  exact exec_completed hs nofun (checkTwoBuffers_of_legalPair h) rfl (separable_holds hfirst [] hm fun _ _ _ _ => rfl)

/-- Settles O11: two box iterations, the second in place. -/
theorem tentCompletes : Obligations.TentCompletes := by
  intro src dst r s hs h
  obtain ⟨-, hm, -⟩ := id hs
  obtain ⟨hfirst, hagain⟩ := rowPass_legal h (.box r)
  refine exec_completed hs nofun (checkTwoBuffers_of_legalPair h) rfl ?_
  show Holds dst (passesMemory (boxFromSource src dst r ++ boxAgain dst r) [] s.mem) _
  rw [passesMemory_append]
  exact separable_holds hagain [] (passesMemory_wf hm _ _) (separable_holds hfirst [] hm fun _ _ _ _ => rfl)

/-- Settles O12: three box iterations, the later ones in place. -/
theorem gboxCompletes : Obligations.GboxCompletes := by
  intro src dst r s hs h
  obtain ⟨-, hm, -⟩ := id hs
  obtain ⟨hfirst, hagain⟩ := rowPass_legal h (.box r)
  refine exec_completed hs nofun (checkTwoBuffers_of_legalPair h) rfl ?_
  show Holds dst (passesMemory (boxFromSource src dst r ++ boxAgain dst r ++ boxAgain dst r) [] s.mem) _
  rw [passesMemory_append, passesMemory_append]
  have hm1 := passesMemory_wf hm (boxFromSource src dst r) []
  exact separable_holds hagain [] (passesMemory_wf hm1 _ _)
    (separable_holds hagain [] hm1 (separable_holds hfirst [] hm fun _ _ _ _ => rfl))

/-- An in-place command of one line function on a legal buffer (R201, R204). -/
theorem exec_inPlace_completed {i : Instr} {f : LineFn} {buf : Buffer} {s : State} (hs : Ready s)
    (hbuf : Fits buf s.memBytes) (hi : i ≠ .halt) (hc : checkOf i s.memBytes = checkInPlace buf s.memBytes)
    (hd : destOf i = [buf]) (hpasses : passesOf i = [.row f buf buf, .col f buf]) :
    ∃ t, exec i s = .next t ∧
      Completed buf (separable (f.closedForm (coefOf i) buf.cw.maxValue) buf.width buf.height (imageOf buf s.mem)) s t := by
  have hrow : LegalPass s.memBytes (.row f buf buf) := inPlace_legal hbuf f _ List.mem_cons_self
  refine exec_completed hs hi (hc.trans (Iff.mpr checkDest_eq_none hbuf)) hd ?_
  obtain ⟨-, hm, -⟩ := hs
  rw [hpasses]
  exact separable_holds hrow _ hm fun _ _ _ _ => rfl

/-- Settles O13: the passes of `BoxLine_r` in place. -/
theorem fgaussCompletes : Obligations.FgaussCompletes := fun buf r _ hs hbuf =>
  exec_inPlace_completed (i := .fgauss buf r) (f := .box r) hs hbuf nofun rfl rfl rfl

/-- Settles O14: the passes of `Tent2Line_r` in place. -/
theorem fgaussnCompletes : Obligations.FgaussnCompletes := fun buf r _ hs hbuf =>
  exec_inPlace_completed (i := .fgaussn buf r) (f := .tent2 r) hs hbuf nofun rfl rfl rfl

/-- Settles O15: the passes of `FirLine_q`, with the kernel in COEF. -/
theorem gaussCompletes : Obligations.GaussCompletes := by
  intro src dst k sigma s hs h hk
  obtain ⟨-, hm, -⟩ := id hs
  obtain ⟨hfirst, -⟩ := rowPass_legal h .fir
  exact exec_completed hs nofun (checkGauss_of_legal h hk) rfl (separable_holds hfirst _ hm fun _ _ _ _ => rfl)

/-- Settles O16: the one window pass, whose mechanism finds the median (`medianRow_out`). -/
theorem medianCompletes : Obligations.MedianCompletes := by
  intro src dst r s hs h
  obtain ⟨-, hm, -⟩ := id hs
  obtain ⟨-, -, ⟨hwidth, hheight, -, -⟩, -⟩ := id h
  have hwindow : LegalPass s.memBytes (.window r src dst) := h
  refine exec_completed hs nofun (checkTwoBuffers_of_legalPair h) rfl ?_
  rw [← hwidth, ← hheight]
  exact passMemory_holds hwindow [] hm fun _ _ _ _ => rfl

/-! ### Untouched bytes -/

/-- A two-buffer command that VALIDATE passes has a legal pair of buffers, the second its destination (R264 to R267). -/
theorem TwoBuffer.legalPair {src dst : Buffer} {i : Instr} {memBytes : Nat} (hi : TwoBuffer src dst i)
    (hc : checkOf i memBytes = none) : LegalPair src dst memBytes ∧ destOf i = [dst] := by
  obtain ⟨r, rfl⟩ | ⟨r, rfl⟩ | ⟨r, rfl⟩ | ⟨k, sigma, rfl⟩ | ⟨r, rfl⟩ := hi
  · exact ⟨legalPair_of_checkTwoBuffers hc, rfl⟩
  · exact ⟨legalPair_of_checkTwoBuffers hc, rfl⟩
  · exact ⟨legalPair_of_checkTwoBuffers hc, rfl⟩
  · exact ⟨legalPair_of_checkGauss hc, rfl⟩
  · exact ⟨legalPair_of_checkTwoBuffers hc, rfl⟩

/-- A filter command has one destination. -/
theorem exists_destOf {i : Instr} (hi : i ≠ .halt) : ∃ dst, destOf i = [dst] := by
  cases i with
  | halt => exact absurd rfl hi
  | box src dst r => exact ⟨dst, rfl⟩
  | tent src dst r => exact ⟨dst, rfl⟩
  | gbox src dst r => exact ⟨dst, rfl⟩
  | fgauss buf r => exact ⟨buf, rfl⟩
  | fgaussn buf r => exact ⟨buf, rfl⟩
  | gauss src dst k sigma => exact ⟨dst, rfl⟩
  | median src dst r => exact ⟨dst, rfl⟩

/-- Settles O55: a fault changes no byte, the passes change pixels of the destination only, and these are apart from the
source's footprint. -/
theorem onlyDestinationPixelsWritten : Obligations.OnlyDestinationPixelsWritten := by
  intro i s t hs hi h
  obtain ⟨-, hm, -⟩ := id hs
  obtain ⟨dst, hd⟩ := exists_destOf hi
  obtain ⟨tr, -, rfl⟩ | ⟨hc, rfl⟩ := exec_cases hs hi h
  · exact ⟨fun _ _ => rfl, fun _ _ _ _ _ => rfl⟩
  · have hframe := command_sameOutside hc hm hd
    refine ⟨by simpa only [hd, List.flatMap_cons, List.flatMap_nil, List.append_nil] using hframe, fun src dst' hi a ha => ?_⟩
    obtain ⟨⟨-, hfits, -, hapart⟩, hd'⟩ := hi.legalPair hc
    obtain rfl : dst = dst' := List.head_eq_of_cons_eq (hd.symm.trans hd')
    obtain ⟨hlo, hhi⟩ := Iff.mp (Bool.and_eq_true_iff) ha
    exact hframe a (not_mem_pixelArea_of_apart hfits hapart (of_decide_eq_true hlo) (of_decide_eq_true hhi))

/-! ### Radius zero -/

/-- A line function that leaves every line alone leaves the image alone. -/
theorem separable_id {f : List Nat → List Nat} (hf : ∀ x, f x = x) {w h row col : Nat} (hrow : row < h) (hcol : col < w)
    (img : Image) (ch : Nat) : separable f w h img row col ch = img row col ch := by
  have hrows : onRows f w img row col ch = img row col ch := by
    delta onRows
    rw [hf, getD_map_range _ hcol]
  show (f ((List.range h).map fun j => onRows f w img j col ch)).getD row 0 = _
  rw [hf, getD_map_range _ hrow, hrows]

theorem box2D_zero {w h row col : Nat} (hrow : row < h) (hcol : col < w) (img : Image) (ch : Nat) :
    box2D 0 w h img row col ch = img row col ch := separable_id boxLine_zero hrow hcol img ch

theorem median2D_zero {w h row col : Nat} (hrow : row < h) (hcol : col < w) (img : Image) (ch : Nat) :
    median2D 0 w h img row col ch = img row col ch := by
  show medianAt _ 0 row col = _
  rw [medianAt_zero, clamp_natCast hrow, clamp_natCast hcol]

/-- Only the in-bounds components of the image matter. -/
theorem completed_congr {dst : Buffer} {img img' : Image} {s t : State}
    (h : ∀ row col ch, InBounds dst row col ch → img row col ch = img' row col ch) (hc : Completed dst img s t) :
    Completed dst img' s t := by
  obtain ⟨hcp, hdone, hold, hrest⟩ := hc
  exact ⟨hcp, hdone, fun row col ch hb => (hold row col ch hb).trans (h row col ch hb), hrest⟩

theorem natOfBytes_cons (b : Byte) (bs : List Byte) : natOfBytes (b :: bs) = b.toNat + 256 * natOfBytes bs := rfl

theorem natOfBytes_inj {bs bs' : List Byte} (hlen : bs.length = bs'.length) (h : natOfBytes bs = natOfBytes bs') : bs = bs' := by
  induction bs generalizing bs' with
  | nil => exact (List.length_eq_zero_iff.mp hlen.symm).symm
  | cons b bs ih =>
    cases bs' with
    | nil => exact absurd hlen (Nat.succ_ne_zero _)
    | cons b' bs' =>
      have hb := b.isLt
      have hb' := b'.isLt
      rw [natOfBytes_cons, natOfBytes_cons] at h
      have hbyte : b = b' := BitVec.eq_of_toNat_eq (by omega)
      rw [hbyte, ih (Nat.succ.inj hlen) (by omega)]

/-- Memory in which a buffer still holds its own image, and nothing else has changed, has not changed. -/
theorem memory_eq_of_holds_own {b : Buffer} {m m' : Memory} (hm : m.wf) (hm' : m'.wf) (hold : Holds b m' (imageOf b m))
    (hframe : SameOutside (pixelArea b) m m') : m' = m := by
  refine memory_ext hm' hm fun a => ?_
  by_cases ha : a ∈ pixelArea b
  · obtain ⟨row, col, ch, k, hb, hk, rfl⟩ := Iff.mp mem_pixelArea ha
    have hbytes : m'.bytesAt (bufAddr b row col ch) b.cw.bytes = m.bytesAt (bufAddr b row col ch) b.cw.bytes :=
      natOfBytes_inj (by simp) (hold row col ch hb)
    exact List.map_inj_left.mp hbytes k (List.mem_range.mpr hk)
  · exact hframe a ha

/-- A filter command keeps the canonical form of memory. -/
theorem exec_memory_wf {i : Instr} {s t : State} (hs : Ready s) (hi : i ≠ .halt) (h : exec i s = .next t) : t.mem.wf := by
  obtain ⟨-, hm, -⟩ := id hs
  obtain ⟨tr, -, rfl⟩ | ⟨-, rfl⟩ := exec_cases hs hi h
  · exact hm
  · exact passesMemory_wf hm _ _

/-- Settles O56: the images of the completion statements at radius 0 are the source image, and an in-place buffer that holds
its own image is memory unchanged. -/
theorem radiusZeroIsIdentity : Obligations.RadiusZeroIsIdentity := by
  refine ⟨fun src dst s hs h i hi => ?_, fun buf s hs hbuf i hi => ?_⟩
  · simp only [List.mem_cons, List.not_mem_nil, or_false] at hi
    obtain rfl | rfl | rfl | rfl := hi
    · obtain ⟨t, ht, hc⟩ := boxCompletes src dst 0 s hs h
      exact ⟨t, ht, completed_congr (fun row col ch ⟨hrow, hcol, _⟩ => box2D_zero hrow hcol _ ch) hc⟩
    · obtain ⟨t, ht, hc⟩ := tentCompletes src dst 0 s hs h
      exact ⟨t, ht, completed_congr (fun row col ch ⟨hrow, hcol, _⟩ =>
        (box2D_zero hrow hcol _ ch).trans (box2D_zero hrow hcol _ ch)) hc⟩
    · obtain ⟨t, ht, hc⟩ := gboxCompletes src dst 0 s hs h
      exact ⟨t, ht, completed_congr (fun row col ch ⟨hrow, hcol, _⟩ =>
        (box2D_zero hrow hcol _ ch).trans ((box2D_zero hrow hcol _ ch).trans (box2D_zero hrow hcol _ ch))) hc⟩
    · obtain ⟨t, ht, hc⟩ := medianCompletes src dst 0 s hs h
      exact ⟨t, ht, completed_congr (fun row col ch ⟨hrow, hcol, _⟩ => median2D_zero hrow hcol _ ch) hc⟩
  · have hunchanged {t : State} (hf : i ≠ .halt) (ht : exec i s = .next t) (hc : Completed buf (imageOf buf s.mem) s t) :
        ∃ t, exec i s = .next t ∧ Completed buf (imageOf buf s.mem) s t ∧ t.mem = s.mem := by
      obtain ⟨-, hm, -⟩ := id hs
      obtain ⟨-, -, hold, hframe, -⟩ := id hc
      exact ⟨t, ht, hc, memory_eq_of_holds_own hm (exec_memory_wf hs hf ht) hold hframe⟩
    simp only [List.mem_cons, List.not_mem_nil, or_false] at hi
    obtain rfl | rfl := hi
    · obtain ⟨t, ht, hc⟩ := fgaussCompletes buf 0 s hs hbuf
      exact hunchanged nofun ht (completed_congr (fun row col ch ⟨hrow, hcol, _⟩ => box2D_zero hrow hcol _ ch) hc)
    · obtain ⟨t, ht, hc⟩ := fgaussnCompletes buf 0 s hs hbuf
      exact hunchanged nofun ht
        (completed_congr (fun row col ch ⟨hrow, hcol, _⟩ => separable_id tent2Line_zero hrow hcol _ ch) hc)

end Sys2Proof.Machine
end

