-- ==== Sys2Proof/Proofs/PassAgents.lean ====
section
/-! SUPPORT. One pass at the grain of its agents (spec 40_pipeline.md R151 to R154): what every interleaving of the workers'
actions and of writes reaching memory keeps true, and how many moves it can still make. -/

namespace Sys2Proof.Machine

/-! ### The workers of a state -/

/-- The line a worker holds (R152). -/
def Worker.line (w : Worker) : Option Nat :=
  match w.stage with
  | .free => none
  | .loaded line => some line
  | .computed line => some line

theorem line_of_free {w : Worker} (h : w.stage = .free) : w.line = none := by
  delta Worker.line
  rw [h]

theorem line_of_loaded {w : Worker} {line : Nat} (h : w.stage = .loaded line) : w.line = some line := by
  delta Worker.line
  rw [h]

theorem line_of_computed {w : Worker} {line : Nat} (h : w.stage = .computed line) : w.line = some line := by
  delta Worker.line
  rw [h]

theorem worker_eq_getElem {s : State} {lane : Nat} (h : lane < s.workers.length) : s.worker lane = s.workers[lane] :=
  List.getD_eq_getElem _ _ h

theorem worker_mem {s : State} {lane : Nat} (h : lane < s.workers.length) : s.worker lane ∈ s.workers :=
  worker_eq_getElem h ▸ List.getElem_mem h

/-- The other workers: replacing one leaves them alone. -/
theorem workers_perm {s : State} {lane : Nat} (h : lane < s.workers.length) :
    s.workers.Perm (s.worker lane :: s.workers.eraseIdx lane) :=
  worker_eq_getElem h ▸ (List.getElem_cons_eraseIdx_perm h).symm

/-- The lines in the workers' hands when a worker that holds none takes one. -/
theorem heldLines_take {s : State} {lane line : Nat} {w : Worker} (h : lane < s.workers.length)
    (hold : (s.worker lane).line = none) (hw : w.line = some line) :
    ((s.workers.set lane w).filterMap Worker.line).Perm (line :: s.workers.filterMap Worker.line) := by
  have hset := (List.set_perm_cons_eraseIdx h w).filterMap Worker.line
  have hold' := (workers_perm h).filterMap Worker.line
  rw [List.filterMap_cons_some hw] at hset
  rw [List.filterMap_cons_none hold] at hold'
  exact hset.trans (hold'.symm.cons line)

/-- When a worker goes on with the line it holds. -/
theorem heldLines_keep {s : State} {lane line : Nat} {w : Worker} (h : lane < s.workers.length)
    (hold : (s.worker lane).line = some line) (hw : w.line = some line) :
    ((s.workers.set lane w).filterMap Worker.line).Perm (s.workers.filterMap Worker.line) := by
  have hset := (List.set_perm_cons_eraseIdx h w).filterMap Worker.line
  have hold' := (workers_perm h).filterMap Worker.line
  rw [List.filterMap_cons_some hw] at hset
  rw [List.filterMap_cons_some hold] at hold'
  exact hset.trans hold'.symm

/-- When a worker lets go of the line it holds. -/
theorem heldLines_release {s : State} {lane line : Nat} {w : Worker} (h : lane < s.workers.length)
    (hold : (s.worker lane).line = some line) (hw : w.line = none) :
    (s.workers.filterMap Worker.line).Perm (line :: (s.workers.set lane w).filterMap Worker.line) := by
  have hset := (List.set_perm_cons_eraseIdx h w).filterMap Worker.line
  have hold' := (workers_perm h).filterMap Worker.line
  rw [List.filterMap_cons_none hw] at hset
  rw [List.filterMap_cons_some hold] at hold'
  exact hold'.trans (hset.symm.cons line)

/-- A sum over the workers when one of them is replaced. -/
theorem sum_workers_set {s : State} {lane : Nat} (f : Worker → Nat) (w : Worker) (h : lane < s.workers.length) :
    ((s.workers.set lane w).map f).sum + f (s.worker lane) = (s.workers.map f).sum + f w := by
  have hset := ((List.set_perm_cons_eraseIdx h w).map f).sum_eq
  have hold := ((workers_perm h).map f).sum_eq
  rw [List.map_cons, List.sum_cons] at hset hold
  omega

/-! ### The actions on their worker -/

/-- The worker after its load (R152 a). -/
def loadedWorker (p : Pass) (m : Memory) (line : Nat) (w : Worker) : Worker :=
  { w with stage := .loaded line, lb := loadedBuffer p m line }

theorem loadLine_workers (p : Pass) (line lane : Nat) (s : State) :
    (loadLine p line lane s).workers = s.workers.set lane (loadedWorker p s.mem line (s.worker lane)) := by
  cases p with
  | row f a b => rfl
  | col f b => rfl
  | window r src dst => rfl

/-- The worker after its line function has run (R152 b). -/
def computedWorker (p : Pass) (coef : List Nat) (m : Memory) (line : Nat) (w : Worker) : Worker :=
  match p with
  | .row f a _ => runFilter f coef a.cw.maxValue a.width a.channels.count line w
  | .col f b => runFilter f coef b.cw.maxValue b.height b.channels.count line w
  | .window r src _ => runMedian r src m line w

theorem computeLine_workers (p : Pass) (line lane : Nat) (s : State) :
    (computeLine p line lane s).workers = s.workers.set lane (computedWorker p s.coef s.mem line (s.worker lane)) := rfl

theorem computedWorker_stage (p : Pass) (coef : List Nat) (m : Memory) (line : Nat) (w : Worker) :
    (computedWorker p coef m line w).stage = .computed line := by
  cases p with
  | row f a b => rfl
  | col f b => rfl
  | window r src dst => rfl

/-- On a loaded line the line function's outputs are the line's. -/
theorem computedWorker_lb {p : Pass} {m : Memory} {line : Nat} {w : Worker} (coef : List Nat)
    (h : w.lb = loadedBuffer p m line) : (computedWorker p coef m line w).lb = lineOutput p coef m line := by
  cases p with
  | row f a b =>
    show interleave a.width (((List.range a.channels.count).map fun ch =>
      f.runOn coef a.cw.maxValue (channelOf w.lb ch)).map (·.out)) = _
    rw [h, List.map_map]
    rfl
  | col f b =>
    show interleave b.height (((List.range b.channels.count).map fun ch =>
      f.runOn coef b.cw.maxValue (channelOf w.lb ch)).map (·.out)) = _
    rw [h, List.map_map]
    rfl
  | window r src dst => exact congrArg (interleave src.width) List.map_map

/-! ### What holds within a pass -/

/-- What the worker's line buffer holds, for a pass that began with memory `m`. -/
def WorkerAt (p : Pass) (coef : List Nat) (m : Memory) (w : Worker) : Prop :=
  (∀ line, w.stage = .loaded line → w.lb = loadedBuffer p m line) ∧
    ∀ line, w.stage = .computed line → w.lb = lineOutput p coef m line

/-- Every line of the pass is in one place: not started, with one worker, or finished (R39). -/
def LinesAt (p : Pass) (s : State) : Prop :=
  (s.seq.notStarted ++ s.seq.inProgress ++ s.seq.finished).Perm (List.range p.lines) ∧
    (s.workers.filterMap Worker.line).Perm s.seq.inProgress

/-- Of the writes of the finished lines, whole components have reached memory, and the others are still to do so (R39, spec
20_memory.md R74). -/
def WritesAt (p : Pass) (m : Memory) (s : State) : Prop :=
  ∃ landed, s.mem = m.writeAll landed ∧
    (∀ c, c ∈ landed ++ s.seq.pending ↔ c ∈ s.seq.finished.flatMap (lineCells p s.coef m)) ∧
    p.writes.cw.bytes ∣ s.seq.pending.length

/-- The state is within a pass that began with memory `m`. -/
def PassAt (p : Pass) (m : Memory) (s : State) : Prop :=
  LinesAt p s ∧ (∀ w ∈ s.workers, WorkerAt p s.coef m w) ∧ WritesAt p m s

theorem workerAt_of_free {p : Pass} {coef : List Nat} {m : Memory} {w : Worker} (h : w.stage = .free) :
    WorkerAt p coef m w :=
  ⟨fun _ h' => (nomatch h.symm.trans h'), fun _ h' => (nomatch h.symm.trans h')⟩

theorem workerAt_loaded {p : Pass} {coef : List Nat} {m : Memory} {line : Nat} {w : Worker} (h : w.stage = .loaded line)
    (hlb : w.lb = loadedBuffer p m line) : WorkerAt p coef m w := by
  refine ⟨fun l hl => ?_, fun _ h' => (nomatch h.symm.trans h')⟩
  cases h.symm.trans hl
  exact hlb

theorem workerAt_computed {p : Pass} {coef : List Nat} {m : Memory} {line : Nat} {w : Worker} (h : w.stage = .computed line)
    (hlb : w.lb = lineOutput p coef m line) : WorkerAt p coef m w := by
  refine ⟨fun _ h' => (nomatch h.symm.trans h'), fun l hl => ?_⟩
  cases h.symm.trans hl
  exact hlb

/-- A pass that opens, with every worker free and no write pending (R151). -/
theorem passAt_open {p : Pass} {s : State} (hfree : ∀ w ∈ s.workers, w.stage = .free) (hpending : s.seq.pending = [])
    (index : Nat) : PassAt p s.mem { s with seq := ⟨.execute, index, List.range p.lines, [], [], s.seq.pending⟩ } := by
  refine ⟨⟨?_, ?_⟩, fun w hw => workerAt_of_free (hfree w hw), [], rfl, ?_, ?_⟩
  · rw [List.append_nil, List.append_nil]
  · exact List.Perm.of_eq (List.filterMap_eq_nil_iff.mpr fun w hw => line_of_free (hfree w hw))
  · intro c
    rw [hpending]
    exact Iff.rfl
  · rw [hpending]
    exact dvd_zero _

/-- The barrier is reached when no line and no write is left (R151). -/
theorem passClosed_iff {s : State} :
    s.passClosed = true ↔ s.seq.notStarted = [] ∧ s.seq.inProgress = [] ∧ s.seq.pending = [] := by
  delta State.passClosed
  simp only [Bool.and_eq_true, List.isEmpty_iff, and_assoc]

theorem lineWrites_length (p : Pass) (line : Nat) (lb : List (List Nat)) :
    (lineWrites p line lb).length = p.lineLength * (p.writes.channels.count * p.writes.cw.bytes) := by
  delta lineWrites storeCells
  simp [List.length_flatMap, List.map_const']

section
variable {memBytes : Nat} {p : Pass} (hp : LegalPass memBytes p) {m : Memory} (hm : m.wf) {s : State} (h : PassAt p m s)
include h

theorem PassAt.line_lt {line : Nat} (hl : line ∈ s.seq.notStarted ∨ line ∈ s.seq.inProgress ∨ line ∈ s.seq.finished) :
    line < p.lines := by
  obtain ⟨⟨hlines, -⟩, -⟩ := h
  refine List.mem_range.mp (hlines.mem_iff.mp ?_)
  simp only [List.mem_append]
  tauto

theorem PassAt.not_finished {line : Nat} (hl : line ∈ s.seq.notStarted ∨ line ∈ s.seq.inProgress) :
    line ∉ s.seq.finished := by
  obtain ⟨⟨hlines, -⟩, -⟩ := h
  have hnodup := hlines.nodup_iff.mpr List.nodup_range
  exact fun hf => List.disjoint_of_nodup_append hnodup (List.mem_append.mpr hl) hf

/-- The line of a worker is in progress. -/
theorem PassAt.inProgress_of_line {lane line : Nat} (hlane : lane < s.workers.length)
    (hline : (s.worker lane).line = some line) : line ∈ s.seq.inProgress := by
  obtain ⟨⟨-, hheld⟩, -⟩ := h
  exact hheld.mem_iff.mp (List.mem_filterMap.mpr ⟨s.worker lane, worker_mem hlane, hline⟩)

include hm

/-- What has reached memory is no concern of a line that has not finished (R153). -/
theorem PassAt.sameForLine {line : Nat} (hl : line ∈ s.seq.notStarted ∨ line ∈ s.seq.inProgress) :
    SameForLine p line m s.mem := by
  obtain ⟨-, -, landed, hmem, hcells, -⟩ := id h
  rw [hmem]
  refine sameForLine_writeAll hm fun c hc => ?_
  obtain ⟨l, hl', hc⟩ := List.mem_flatMap.mp ((hcells c).mp (List.mem_append_left _ hc))
  exact ⟨l, h.line_lt (.inr (.inr hl')), fun heq => h.not_finished hl (heq ▸ hl'), lineByte_of_mem_lineWrites hc⟩

include hp

/-- Loading a line keeps it all (R152 a). -/
theorem PassAt.loadLine {line lane : Nat} (hlane : lane < s.workers.length) (hl : line ∈ s.seq.notStarted)
    (hfree : (s.worker lane).stage = .free) : PassAt p m (loadLine p line lane s) := by
  have hsame := h.sameForLine hm (.inl hl)
  have hlt := h.line_lt (.inl hl)
  obtain ⟨⟨hlines, hheld⟩, hworkers, hwrites⟩ := h
  refine ⟨⟨?lines, ?held⟩, fun w hw => ?worker, hwrites⟩
  case lines =>
    have hmove : (s.seq.notStarted.erase line ++ (s.seq.inProgress ++ [line])).Perm (s.seq.notStarted ++ s.seq.inProgress) := by
      rw [← List.append_assoc]
      refine List.perm_append_comm.trans ?_
      exact ((List.perm_cons_erase hl).symm.append_right s.seq.inProgress)
    exact (hmove.append_right _).trans hlines
  case held =>
    rw [loadLine_workers]
    have htake := heldLines_take (w := loadedWorker p s.mem line (s.worker lane)) hlane (line_of_free hfree) rfl
    exact htake.trans ((hheld.cons line).trans (List.perm_append_singleton line _).symm)
  case worker =>
    rw [loadLine_workers] at hw
    rcases List.mem_or_eq_of_mem_set hw with hw | rfl
    · exact hworkers w hw
    · exact workerAt_loaded rfl (loadedBuffer_congr hp hlt hsame)

/-- Running the line function keeps it all (R152 b). -/
theorem PassAt.computeLine {line lane : Nat} (hlane : lane < s.workers.length)
    (hstage : (s.worker lane).stage = .loaded line) : PassAt p m (computeLine p line lane s) := by
  have hl := h.inProgress_of_line hlane (line_of_loaded hstage)
  have hsame := h.sameForLine hm (.inr hl)
  have hlt := h.line_lt (.inr (.inl hl))
  obtain ⟨⟨hlines, hheld⟩, hworkers, hwrites⟩ := h
  obtain ⟨hlb, -⟩ := hworkers _ (worker_mem hlane)
  refine ⟨⟨hlines, ?held⟩, fun w hw => ?worker, hwrites⟩
  case held =>
    rw [computeLine_workers]
    exact (heldLines_keep hlane (line_of_loaded hstage) (line_of_computed (computedWorker_stage p _ _ line _))).trans hheld
  case worker =>
    rw [computeLine_workers] at hw
    rcases List.mem_or_eq_of_mem_set hw with hw | rfl
    · exact hworkers w hw
    · refine workerAt_computed (computedWorker_stage p _ _ line _) ?_
      have hload := (hlb line hstage).trans (loadedBuffer_congr hp hlt hsame).symm
      exact (computedWorker_lb s.coef hload).trans (lineOutput_congr hp hlt hsame s.coef)

omit hm hp in
/-- Issuing a line's stores keeps it all (R152 c). -/
theorem PassAt.storeLine {line lane : Nat} (hlane : lane < s.workers.length)
    (hstage : (s.worker lane).stage = .computed line) : PassAt p m (storeLine p line lane s) := by
  have hl := h.inProgress_of_line hlane (line_of_computed hstage)
  obtain ⟨⟨hlines, hheld⟩, hworkers, landed, hmem, hcells, hwhole⟩ := h
  obtain ⟨-, hlb⟩ := hworkers _ (worker_mem hlane)
  refine ⟨⟨?lines, ?held⟩, fun w hw => ?worker, landed, hmem, fun c => ?cells, ?whole⟩
  case lines =>
    have hmove : (s.seq.inProgress.erase line ++ (s.seq.finished ++ [line])).Perm (s.seq.inProgress ++ s.seq.finished) := by
      rw [← List.append_assoc]
      refine List.perm_append_comm.trans ?_
      exact ((List.perm_cons_erase hl).symm.append_right s.seq.finished)
    show (s.seq.notStarted ++ s.seq.inProgress.erase line ++ (s.seq.finished ++ [line])).Perm _
    rw [List.append_assoc]
    rw [List.append_assoc] at hlines
    exact (hmove.append_left _).trans hlines
  case held =>
    have hrelease := (heldLines_release (w := Worker.idle) hlane (line_of_computed hstage) rfl).symm.trans hheld
    exact (List.Perm.cons_inv (hrelease.trans (List.perm_cons_erase hl)))
  case worker =>
    rcases List.mem_or_eq_of_mem_set hw with hw | rfl
    · exact hworkers w hw
    · exact workerAt_of_free rfl
  case cells =>
    show c ∈ landed ++ (s.seq.pending ++ lineWrites p line (s.worker lane).lb) ↔
      c ∈ (s.seq.finished ++ [line]).flatMap (lineCells p s.coef m)
    rw [hlb line hstage, ← List.append_assoc, List.mem_append, hcells, List.flatMap_append, List.mem_append]
    rw [List.flatMap_singleton]
    exact Iff.rfl
  case whole =>
    show _ ∣ (s.seq.pending ++ lineWrites p line (s.worker lane).lb).length
    rw [List.length_append, lineWrites_length]
    exact Nat.dvd_add hwhole ((Nat.dvd_mul_left _ _).mul_left _)

omit hm hp in
/-- A component that reaches memory keeps it all, whichever one it is (spec 20_memory.md R74, R78, R79). -/
theorem PassAt.landComponent {k : Nat} (hk : (k + 1) * p.writes.cw.bytes ≤ s.seq.pending.length) :
    PassAt p m (landComponent p.writes.cw.bytes k s) := by
  obtain ⟨hlines, hworkers, landed, hmem, hcells, hwhole⟩ := h
  have hsplit : s.seq.pending = s.seq.pending.take (k * p.writes.cw.bytes) ++
      ((s.seq.pending.drop (k * p.writes.cw.bytes)).take p.writes.cw.bytes ++
        s.seq.pending.drop ((k + 1) * p.writes.cw.bytes)) := by
    rw [Nat.succ_mul, ← List.drop_drop, List.take_append_drop, List.take_append_drop]
  refine ⟨hlines, hworkers, landed ++ (s.seq.pending.drop (k * p.writes.cw.bytes)).take p.writes.cw.bytes, ?memory,
    fun c => Iff.trans ?cells (hcells c), ?whole⟩
  case memory =>
    rw [landComponent_mem, hmem, writeAll_append]
  case cells =>
    rw [landComponent_seq]
    conv_rhs => rw [hsplit]
    simp only [List.mem_append]
    tauto
  case whole =>
    rw [landComponent_seq]
    simp only [List.length_append, List.length_take, List.length_drop, Nat.succ_mul] at hk ⊢
    have hrest : min (k * p.writes.cw.bytes) s.seq.pending.length +
        (s.seq.pending.length - (k * p.writes.cw.bytes + p.writes.cw.bytes)) = s.seq.pending.length - p.writes.cw.bytes := by
      omega
    rw [hrest]
    exact Nat.dvd_sub hwhole (dvd_refl _)

/-- A closed pass has left its memory, and no worker holds a line (R151). -/
theorem PassAt.closed (hclosed : s.passClosed = true) :
    s.mem = passMemory p s.coef m ∧ s.seq.pending = [] ∧ ∀ w ∈ s.workers, w.stage = .free := by
  obtain ⟨hnot, hin, hpending⟩ := Iff.mp passClosed_iff hclosed
  obtain ⟨⟨hlines, hheld⟩, -, landed, hmem, hcells, -⟩ := h
  rw [hnot, hin, List.nil_append, List.nil_append] at hlines
  rw [hpending, List.append_nil] at hcells
  refine ⟨?_, hpending, fun w hw => ?_⟩
  · rw [hmem, passMemory_eq_writeAll hp s.coef hm]
    have hall (c : Host.Cell) := (hcells c).trans (hlines.flatMap_right (lineCells p s.coef m)).mem_iff
    exact (writeAll_congr hm (hp.consistent_lineCells s.coef (fun l hl => List.mem_range.mp hl) m) fun c => (hall c).symm).symm
  · rw [hin] at hheld
    have hnone := List.filterMap_eq_nil_iff.mp hheld.eq_nil w hw
    cases hstage : w.stage with
    | free => rfl
    | loaded line => exact nomatch (line_of_loaded hstage).symm.trans hnone
    | computed line => exact nomatch (line_of_computed hstage).symm.trans hnone

end

/-! ### How many moves a pass can still make -/

/-- The bytes a line writes. -/
def lineBytes (p : Pass) : Nat := p.lineLength * (p.writes.channels.count * p.writes.cw.bytes)

/-- The moves the line of a worker is still good for, each of its bytes reaching memory counted as one. -/
def workerMovesLeft (p : Pass) (w : Worker) : Nat :=
  match w.stage with
  | .free => 0
  | .loaded _ => lineBytes p + 2
  | .computed _ => lineBytes p + 1

/-- The moves a pass is still good for, its closing among them. -/
def passMovesLeft (p : Pass) (s : State) : Nat :=
  s.seq.notStarted.length * (lineBytes p + 3) + (s.workers.map (workerMovesLeft p)).sum + s.seq.pending.length + 1

/-- The moves of a whole pass. -/
def passMoves (p : Pass) : Nat := p.lines * (lineBytes p + 3) + 1

theorem workerMovesLeft_free {p : Pass} {w : Worker} (h : w.stage = .free) : workerMovesLeft p w = 0 := by
  delta workerMovesLeft
  rw [h]

theorem workerMovesLeft_loaded {p : Pass} {line : Nat} {w : Worker} (h : w.stage = .loaded line) :
    workerMovesLeft p w = lineBytes p + 2 := by
  delta workerMovesLeft
  rw [h]

theorem workerMovesLeft_computed {p : Pass} {line : Nat} {w : Worker} (h : w.stage = .computed line) :
    workerMovesLeft p w = lineBytes p + 1 := by
  delta workerMovesLeft
  rw [h]

theorem passMovesLeft_open {p : Pass} {s : State} (hfree : ∀ w ∈ s.workers, w.stage = .free) (hpending : s.seq.pending = [])
    (index : Nat) :
    passMovesLeft p { s with seq := ⟨.execute, index, List.range p.lines, [], [], s.seq.pending⟩ } = passMoves p := by
  have hsum : (s.workers.map (workerMovesLeft p)).sum = 0 := by
    rw [List.map_congr_left fun w hw => workerMovesLeft_free (hfree w hw)]
    simp
  show (List.range p.lines).length * _ + (s.workers.map (workerMovesLeft p)).sum + s.seq.pending.length + 1 = _
  rw [hsum, hpending, List.length_range]
  rfl

section
variable (p : Pass) {s : State} {line lane : Nat} (hlane : lane < s.workers.length)
include hlane

theorem passMovesLeft_loadLine (hl : line ∈ s.seq.notStarted) (hfree : (s.worker lane).stage = .free) :
    passMovesLeft p (loadLine p line lane s) + 1 = passMovesLeft p s := by
  have hsum := sum_workers_set (workerMovesLeft p) (loadedWorker p s.mem line (s.worker lane)) hlane
  rw [workerMovesLeft_free hfree, workerMovesLeft_loaded (line := line) rfl] at hsum
  obtain ⟨n, hn⟩ := Nat.exists_eq_succ_of_ne_zero (List.length_pos_of_mem hl).ne'
  delta passMovesLeft
  rw [loadLine_workers, loadLine_seq]
  dsimp only
  rw [List.length_erase_of_mem hl, hn, Nat.succ_sub_one, Nat.succ_mul]
  omega

theorem passMovesLeft_computeLine (hstage : (s.worker lane).stage = .loaded line) :
    passMovesLeft p (computeLine p line lane s) + 1 = passMovesLeft p s := by
  have hsum := sum_workers_set (workerMovesLeft p) (computedWorker p s.coef s.mem line (s.worker lane)) hlane
  rw [workerMovesLeft_loaded hstage, workerMovesLeft_computed (computedWorker_stage p _ _ line _)] at hsum
  delta passMovesLeft
  rw [computeLine_workers, computeLine_seq]
  omega

theorem passMovesLeft_storeLine (hstage : (s.worker lane).stage = .computed line) :
    passMovesLeft p (storeLine p line lane s) + 1 = passMovesLeft p s := by
  have hsum := sum_workers_set (workerMovesLeft p) Worker.idle hlane
  rw [workerMovesLeft_computed hstage, workerMovesLeft_free (w := Worker.idle) rfl] at hsum
  have hpending : (storeLine p line lane s).seq.pending.length = s.seq.pending.length + lineBytes p := by
    rw [storeLine_pending, List.length_append, lineWrites_length]
    rfl
  delta passMovesLeft
  rw [hpending, storeLine_workers]
  show s.seq.notStarted.length * _ + _ + _ + 1 + 1 = _
  omega

end

theorem passMovesLeft_landComponent (p : Pass) {s : State} {k : Nat}
    (hk : (k + 1) * p.writes.cw.bytes ≤ s.seq.pending.length) :
    passMovesLeft p (landComponent p.writes.cw.bytes k s) + 1 ≤ passMovesLeft p s := by
  have hpos := bytes_pos p.writes.cw
  delta passMovesLeft
  rw [landComponent_seq, landComponent_workers]
  simp only [List.length_append, List.length_take, List.length_drop, Nat.succ_mul] at hk ⊢
  omega

end Sys2Proof.Machine
end

