-- ==== Sys2Proof/Proofs/Interleaving.lean ====
section
/-! SUPPORT. A command at the grain of its agents and the one step it amounts to (spec 40_pipeline.md R140, R154, R155, R163):
every move from within a command stays within it, one move nearer its end, or ends it in the state `step` gives; and within a
command some move is always enabled. -/

namespace Sys2Proof.Machine

/-! ### The moves, one rule per phase -/

/-- Every agent but the sequencer waits out of EXECUTE. -/
theorem move_eq_sequencerMove {mv : Move} {u v : State} (hphase : u.seq.phase ≠ .execute) (h : move mv u = some v) :
    sequencerMove u = some v := by
  have hworker (lane : Nat) (stage : Stage) (action : Pass → State → State) : workerMove u lane stage action = none :=
    if_neg fun hc => hphase hc.2.1
  cases mv with
  | sequencer => exact h
  | load line lane =>
    have h : (if line ∈ u.seq.notStarted then workerMove u lane .free (fun p => loadLine p line lane) else none) = some v := h
    rw [hworker, ite_self] at h
    exact nomatch h
  | compute line lane => exact nomatch (hworker _ _ _).symm.trans h
  | store line lane => exact nomatch (hworker _ _ _).symm.trans h
  | land k =>
    have hland : landMove k u = none := if_neg fun hc => hphase hc.2
    exact nomatch hland.symm.trans h

section
variable {u : State} (hr : u.runState = .run)
include hr

theorem sequencerMove_fetch_fault (hphase : u.seq.phase = .fetch) (hf : u.memBytes < u.cp.toNat + 40) :
    sequencerMove u = some (raiseTrap ⟨.descriptorFault, 1⟩ u) := by
  delta sequencerMove
  rw [hr, hphase]
  dsimp only
  rw [fetch_fault hf]

theorem sequencerMove_fetch (hphase : u.seq.phase = .fetch) (hf : u.cp.toNat + 40 ≤ u.memBytes) :
    sequencerMove u = some (fetched u) := by
  delta sequencerMove
  rw [hr, hphase]
  dsimp only
  rw [fetch_ok hf]
  rfl

theorem sequencerMove_validate (hphase : u.seq.phase = .validate) : sequencerMove u = validateMove u := by
  delta sequencerMove
  rw [hr, hphase]

theorem sequencerMove_execute (hphase : u.seq.phase = .execute) {i : Instr} (hi : u.command = some i) :
    sequencerMove u = if u.passClosed then openOrComplete (u.seq.pass + 1) (passesOf i) u else none := by
  delta sequencerMove
  rw [hr, hphase]
  dsimp only
  rw [hi]
  rfl

theorem sequencerMove_complete (hphase : u.seq.phase = .complete) : sequencerMove u = some (completeCommand u) := by
  delta sequencerMove
  rw [hr, hphase]

/-- A worker's move in EXECUTE (R152). -/
theorem workerMove_eq_some (hphase : u.seq.phase = .execute) {p : Pass} (hp : u.currentPass = some p) {lane : Nat}
    {stage : Stage} {action : Pass → State → State} {v : State} :
    workerMove u lane stage action = some v ↔
      lane < u.workers.length ∧ (u.worker lane).stage = stage ∧ v = action p u := by
  delta workerMove
  rw [hr, hphase, hp]
  split_ifs with h
  · simp [h, eq_comm]
  · simp only [false_iff]
    exact fun ⟨hlane, hstage, _⟩ => h ⟨rfl, rfl, hlane, hstage⟩

/-- A component reaching memory in EXECUTE (spec 20_memory.md R74). -/
theorem landMove_eq_some (hphase : u.seq.phase = .execute) {p : Pass} (hp : u.currentPass = some p) {k : Nat} {v : State} :
    landMove k u = some v ↔
      (k + 1) * p.writes.cw.bytes ≤ u.seq.pending.length ∧ v = landComponent p.writes.cw.bytes k u := by
  delta landMove
  rw [if_pos ⟨hr, hphase⟩, hp]
  show (if _ then _ else _) = _ ↔ _
  split_ifs with h
  · simp [h, eq_comm]
  · simp [h]

/-- Everything that can happen in EXECUTE (R151, R152, spec 20_memory.md R74). -/
theorem move_execute_cases (hphase : u.seq.phase = .execute) {p : Pass} (hp : u.currentPass = some p) {mv : Move} {v : State}
    (h : move mv u = some v) :
    sequencerMove u = some v ∨
      (∃ line lane, lane < u.workers.length ∧ line ∈ u.seq.notStarted ∧ (u.worker lane).stage = .free ∧
        v = loadLine p line lane u) ∨
      (∃ line lane, lane < u.workers.length ∧ (u.worker lane).stage = .loaded line ∧ v = computeLine p line lane u) ∨
      (∃ line lane, lane < u.workers.length ∧ (u.worker lane).stage = .computed line ∧ v = storeLine p line lane u) ∨
      ∃ k, (k + 1) * p.writes.cw.bytes ≤ u.seq.pending.length ∧ v = landComponent p.writes.cw.bytes k u := by
  cases mv with
  | sequencer => exact .inl h
  | load line lane =>
    have h : (if line ∈ u.seq.notStarted then workerMove u lane .free (fun p => loadLine p line lane) else none) = some v := h
    by_cases hl : line ∈ u.seq.notStarted
    · rw [if_pos hl, workerMove_eq_some hr hphase hp] at h
      obtain ⟨hlane, hstage, rfl⟩ := h
      exact .inr (.inl ⟨line, lane, hlane, hl, hstage, rfl⟩)
    · rw [if_neg hl] at h
      exact nomatch h
  | compute line lane =>
    obtain ⟨hlane, hstage, rfl⟩ := Iff.mp (workerMove_eq_some hr hphase hp) h
    exact .inr (.inr (.inl ⟨line, lane, hlane, hstage, rfl⟩))
  | store line lane =>
    obtain ⟨hlane, hstage, rfl⟩ := Iff.mp (workerMove_eq_some hr hphase hp) h
    exact .inr (.inr (.inr (.inl ⟨line, lane, hlane, hstage, rfl⟩)))
  | land k =>
    obtain ⟨hk, rfl⟩ := Iff.mp (landMove_eq_some hr hphase hp) h
    exact .inr (.inr (.inr (.inr ⟨k, hk, rfl⟩)))

end

/-! ### VALIDATE and the pass list -/

theorem validateMove_illegal {u : State} {e : Illegal} (hd : decode u.d = .error e) :
    validateMove u = some (raiseTrap (illegalTrap e) u) := by
  delta validateMove
  rw [hd]

theorem validateMove_halt {u : State} (hd : decode u.d = .ok .halt) : validateMove u = some (enterHalted u) := by
  delta validateMove
  rw [hd]

theorem validateMove_trap {u : State} {i : Instr} {tr : Trap} (hd : decode u.d = .ok i) (hi : i ≠ .halt)
    (hc : checkOf i u.memBytes = some tr) : validateMove u = some (raiseTrap tr u) := by
  delta validateMove
  rw [hd]
  cases i with
  | halt => exact absurd rfl hi
  | _ => dsimp only; rw [hc]

theorem validateMove_passes {u : State} {i : Instr} (hd : decode u.d = .ok i) (hi : i ≠ .halt)
    (hc : checkOf i u.memBytes = none) :
    validateMove u = openOrComplete 0 (passesOf i) { u with coef := coefOf i } := by
  delta validateMove
  rw [hd]
  cases i with
  | halt => exact absurd rfl hi
  | _ => dsimp only; rw [hc]

theorem openOrComplete_complete {index : Nat} {passes : List Pass} (h : passes[index]? = none) (u : State) :
    openOrComplete index passes u = some { u with seq := { u.seq with phase := .complete } } := by
  delta openOrComplete
  rw [h]

theorem openOrComplete_open {index : Nat} {passes : List Pass} {p : Pass} (h : passes[index]? = some p) {u : State}
    (hp : LegalPass u.memBytes p) :
    openOrComplete index passes u = some { u with seq := ⟨.execute, index, List.range p.lines, [], [], u.seq.pending⟩ } := by
  delta openOrComplete
  rw [h]
  dsimp only
  rw [Iff.mpr openPass_eq_next ⟨fits_admitted hp.reads_fits, fits_admitted hp.writes_fits, rfl⟩]

/-! ### Within a command -/

/-- The moves of the passes of a list. -/
def passListMoves (passes : List Pass) : Nat := (passes.map passMoves).sum

/-- The passes of the command at CP, if there is one. -/
def passesAt (s : State) : List Pass :=
  match decode (s.mem.readDesc s.cp.toNat) with
  | .ok i => passesOf i
  | .error _ => []

/-- The command `i` is at CP, and VALIDATE passes it. -/
def CommandAt (s : State) (i : Instr) : Prop :=
  s.cp.toNat + 40 ≤ s.memBytes ∧ decode (s.mem.readDesc s.cp.toNat) = .ok i ∧ i ≠ .halt ∧ checkOf i s.memBytes = none

/-- What EXECUTE of `i` leaves alone, from the state `s` in which its FETCH began. -/
def InExecute (s : State) (i : Instr) (u : State) : Prop := LinesOnly { fetched s with coef := coefOf i } u

/-- Memory before pass `index` of the command. -/
def memoryBefore (s : State) (i : Instr) (index : Nat) : Memory :=
  passesMemory ((passesOf i).take index) (coefOf i) s.mem

/-- In pass `index` of the command, with at most `n` moves to go. -/
def InPass (s : State) (i : Instr) (index : Nat) (u : State) (n : Nat) : Prop :=
  ∃ p, (passesOf i)[index]? = some p ∧ InExecute s i u ∧ u.seq.phase = .execute ∧ u.seq.pass = index ∧
    PassAt p (memoryBefore s i index) u ∧ passMovesLeft p u + passListMoves ((passesOf i).drop (index + 1)) + 1 ≤ n

/-- Behind the last pass of the command. -/
def InComplete (s : State) (i : Instr) (u : State) : Prop :=
  InExecute s i u ∧ u.seq.phase = .complete ∧ u.mem = passesMemory (passesOf i) (coefOf i) s.mem

/-- `u` is within the command that begins in `s`, with at most `n` moves to go. -/
def Within (s u : State) (n : Nat) : Prop :=
  (u = s ∧ passListMoves (passesAt s) + 3 ≤ n) ∨
    (s.cp.toNat + 40 ≤ s.memBytes ∧ u = fetched s ∧ passListMoves (passesAt s) + 2 ≤ n) ∨
    ∃ i, CommandAt s i ∧ ((∃ index, InPass s i index u n) ∨ InComplete s i u ∧ 1 ≤ n)

/-- A move ends the command in the state of one step, or stays within it, nearer its end. -/
def MoveGoesOn (s v : State) (n : Nat) : Prop :=
  (v.betweenCommands = true ∧ step s = .next v) ∨ v.betweenCommands = false ∧ ∃ n', n' < n ∧ Within s v n'

theorem betweenCommands_of_phase {u : State} {phase : Phase} (h : u.seq.phase = phase) :
    u.betweenCommands = (phase == .fetch || phase == .idle) := by
  delta State.betweenCommands
  rw [h]

/-- COMPLETE after the passes of a command (R156). -/
theorem completeCommand_of_linesOnly {s u : State} {coef : List Nat} (h : LinesOnly { s with coef := coef } u) :
    completeCommand u = { completeCommand s with mem := u.mem } := by
  obtain ⟨hd, hcp, hrun, herr, hen, hst, hrst, -, hworkers, hbytes, hstart, hdone, hdraws⟩ := h
  have hidle := map_idle_eq hworkers
  obtain ⟨⟩ := u
  dsimp only at *
  subst hd hcp hrun herr hen hst hrst hbytes hstart hdone hdraws
  delta completeCommand
  dsimp only
  rw [hidle]

theorem passesMemory_take_succ {passes : List Pass} {index : Nat} {p : Pass} (h : passes[index]? = some p) (coef : List Nat)
    (m : Memory) :
    passesMemory (passes.take (index + 1)) coef m = passMemory p coef (passesMemory (passes.take index) coef m) := by
  rw [List.take_add_one, h, passesMemory_append]
  rfl

theorem passListMoves_drop {passes : List Pass} {index : Nat} {p : Pass} (h : passes[index]? = some p) :
    passListMoves (passes.drop index) = passMoves p + passListMoves (passes.drop (index + 1)) := by
  obtain ⟨hi, rfl⟩ := List.getElem?_eq_some_iff.mp h
  rw [List.drop_eq_getElem_cons hi]
  rfl

section
variable {s : State} {i : Instr} (hi : CommandAt s i) {u : State} {n : Nat}
include hi

/-- The step is the command, in full (R155). -/
theorem CommandAt.step_eq (hinv : Inv s) (hr : s.runState = .run) :
    step s = .next { completeCommand (fetched s) with mem := passesMemory (passesOf i) (coefOf i) s.mem } := by
  obtain ⟨hf, hd, hhalt, hc⟩ := hi
  rw [step_of_command hr hf hd]
  exact exec_completes hhalt (fetched s) hinv.workers_pos rfl hc

theorem CommandAt.pass_legal {index : Nat} {p : Pass} (hp : (passesOf i)[index]? = some p) : LegalPass s.memBytes p := by
  obtain ⟨-, -, -, hc⟩ := hi
  exact passesOf_legal hc p (List.mem_of_getElem? hp)

/-- Opening a pass, or going to COMPLETE behind the last, with every worker free and no write pending (R151). -/
theorem CommandAt.openOrComplete_within (hu : InExecute s i u) (hfree : ∀ w ∈ u.workers, w.stage = .free)
    (hpending : u.seq.pending = []) {index : Nat} (hmem : u.mem = memoryBefore s i index)
    (hn : passListMoves ((passesOf i).drop index) + 1 ≤ n) :
    ∃ v, openOrComplete index (passesOf i) u = some v ∧ v.betweenCommands = false ∧ Within s v n := by
  cases hp : (passesOf i)[index]? with
  | some p =>
    have hlegal : LegalPass u.memBytes p := by
      rw [hu.memBytes]
      exact hi.pass_legal hp
    refine ⟨_, openOrComplete_open hp hlegal, rfl, .inr (.inr ⟨i, hi, .inl ⟨index, p, hp, ?_, rfl, rfl, ?_, ?_⟩⟩)⟩
    · exact ⟨hu.d, hu.cp, hu.runState, hu.err, hu.irqEn, hu.irqStat, hu.rst, hu.coef, hu.workers, hu.memBytes, hu.runStart,
        hu.runDone, hu.draws⟩
    · exact hmem ▸ passAt_open hfree hpending index
    · rw [passMovesLeft_open hfree hpending, ← passListMoves_drop hp]
      exact hn
  | none =>
    have hall : (passesOf i).take index = passesOf i := List.take_of_length_le (List.getElem?_eq_none_iff.mp hp)
    refine ⟨_, openOrComplete_complete hp u, rfl, .inr (.inr ⟨i, hi, .inr ⟨⟨?_, rfl, ?_⟩, by omega⟩⟩)⟩
    · exact ⟨hu.d, hu.cp, hu.runState, hu.err, hu.irqEn, hu.irqStat, hu.rst, hu.coef, hu.workers, hu.memBytes, hu.runStart,
        hu.runDone, hu.draws⟩
    · exact hmem.trans (congrArg (fun passes => passesMemory passes (coefOf i) s.mem) hall)

/-- The command in the latches during EXECUTE (spec 10_state.md R22). -/
theorem CommandAt.command_eq (hu : InExecute s i u) : u.command = some i := by
  obtain ⟨-, hd, -, -⟩ := hi
  show (decode u.d).toOption = some i
  rw [hu.d]
  show (decode (s.mem.readDesc s.cp.toNat)).toOption = some i
  rw [hd]
  rfl

theorem CommandAt.currentPass_eq (hu : InExecute s i u) {index : Nat} (hindex : u.seq.pass = index) :
    u.currentPass = (passesOf i)[index]? := by
  show (u.command.bind fun i => (passesOf i)[u.seq.pass]?) = _
  rw [hi.command_eq hu, hindex]
  rfl

end

theorem passesAt_of_command {s : State} {i : Instr} (hi : CommandAt s i) : passesAt s = passesOf i := by
  obtain ⟨-, hd, -, -⟩ := hi
  delta passesAt
  rw [hd]

/-! ### A worker's action leaves the rest of the engine alone -/

theorem loadLine_linesOnly (p : Pass) (line lane : Nat) (u : State) : LinesOnly u (loadLine p line lane u) :=
  ⟨rfl, rfl, rfl, rfl, rfl, rfl, rfl, rfl, loadLine_length p line lane u, rfl, rfl, rfl, rfl⟩

theorem computeLine_linesOnly (p : Pass) (line lane : Nat) (u : State) : LinesOnly u (computeLine p line lane u) :=
  ⟨rfl, rfl, rfl, rfl, rfl, rfl, rfl, rfl, computeLine_length p line lane u, rfl, rfl, rfl, rfl⟩

theorem storeLine_linesOnly (p : Pass) (line lane : Nat) (u : State) : LinesOnly u (storeLine p line lane u) :=
  ⟨rfl, rfl, rfl, rfl, rfl, rfl, rfl, rfl, by simp, rfl, rfl, rfl, rfl⟩

theorem landComponent_linesOnly (width k : Nat) (u : State) : LinesOnly u (landComponent width k u) :=
  ⟨rfl, rfl, rfl, rfl, rfl, rfl, rfl, rfl, rfl, rfl, rfl, rfl, rfl⟩

/-! ### Sequences of moves -/

/-- The first of a sequence of moves. -/
theorem commandRun_cons (mv : Move) (rest : List Move) (u : State) :
    commandRun (mv :: rest) u = (move mv u).bind fun v =>
      if v.betweenCommands then (if rest.isEmpty then some v else none) else commandRun rest v := by
  change (match move mv u with | none => none | some v => _) = _
  cases move mv u <;> rfl

theorem unfinishedRun_cons (mv : Move) (rest : List Move) (u : State) :
    unfinishedRun (mv :: rest) u = (move mv u).bind fun v => if v.betweenCommands then none else unfinishedRun rest v := by
  change (match move mv u with | none => none | some v => _) = _
  cases move mv u <;> rfl

theorem within_start (s : State) : Within s s (passListMoves (passesAt s) + 3) := .inl ⟨rfl, le_rfl⟩

/-! ### Every move goes on, and some move is enabled -/

section
variable {s : State} (hinv : Inv s) (hr : s.runState = .run)
include hinv hr

theorem Inv.fetchPhase : s.seq.phase = .fetch := by
  obtain ⟨-, -, -, -, -, -, -, -, -, -, hseq, -, -⟩ := hinv
  rw [hseq, hr]
  rfl

omit hr in
theorem Inv.memory_wf : s.mem.wf := by
  obtain ⟨-, hwf, -⟩ := hinv
  exact hwf

omit hr in
theorem Inv.workers_free : ∀ w ∈ s.workers, w.stage = .free := by
  obtain ⟨-, -, -, -, -, -, -, -, -, -, -, hidle, -⟩ := hinv
  intro w hw
  rw [hidle w hw]
  rfl

/-- FETCH (R141): a fault where the descriptor is not in memory, else VALIDATE is next. -/
theorem fetch_goesOn {n : Nat} (hn : passListMoves (passesAt s) + 3 ≤ n) :
    ∃ v, sequencerMove s = some v ∧ MoveGoesOn s v n := by
  have hphase := hinv.fetchPhase hr
  rcases Nat.lt_or_ge s.memBytes (s.cp.toNat + 40) with hf | hf
  · exact ⟨_, sequencerMove_fetch_fault hr hphase hf, .inl ⟨rfl, step_of_fetch_fault hr hf⟩⟩
  · exact ⟨_, sequencerMove_fetch hr hphase hf, .inr ⟨rfl, _, hn, .inr (.inl ⟨hf, rfl, le_rfl⟩)⟩⟩

/-- VALIDATE (R142): a fault, HALT, or the first pass. -/
theorem validate_goesOn {n : Nat} (hf : s.cp.toNat + 40 ≤ s.memBytes) (hn : passListMoves (passesAt s) + 2 ≤ n) :
    ∃ v, sequencerMove (fetched s) = some v ∧ MoveGoesOn s v n := by
  rw [sequencerMove_validate (u := fetched s) hr rfl]
  cases hd : decode (s.mem.readDesc s.cp.toNat) with
  | error e => exact ⟨_, validateMove_illegal (u := fetched s) hd, .inl ⟨rfl, step_of_illegal hr hf hd⟩⟩
  | ok i =>
    have hstep := step_of_command hr hf hd
    by_cases hi : i = .halt
    · subst hi
      exact ⟨_, validateMove_halt (u := fetched s) hd, .inl ⟨rfl, hstep⟩⟩
    · cases hc : checkOf i s.memBytes with
      | some tr =>
        exact ⟨_, validateMove_trap (u := fetched s) hd hi hc, .inl ⟨rfl, hstep.trans (exec_traps hi (fetched s) hc)⟩⟩
      | none =>
        have hcommand : CommandAt s i := ⟨hf, hd, hi, hc⟩
        obtain ⟨v, hv, hbetween, hwithin⟩ := hcommand.openOrComplete_within (index := 0)
          (u := { fetched s with coef := coefOf i }) (LinesOnly.refl _) hinv.workers_free rfl rfl le_rfl
        rw [passesAt_of_command hcommand] at hn
        exact ⟨v, (validateMove_passes (u := fetched s) hd hi hc).trans hv, .inr ⟨hbetween, _, hn, hwithin⟩⟩

section
variable {i : Instr} (hi : CommandAt s i) {index : Nat} {u : State} {n : Nat}
include hi

/-- The barrier at the end of a pass (R151): the next pass, or COMPLETE. -/
theorem barrier_goesOn (hu : InPass s i index u n) (hclosed : u.passClosed = true) :
    ∃ v, sequencerMove u = some v ∧ MoveGoesOn s v n := by
  obtain ⟨p, hp, hexecute, hphase, hindex, hat, hn⟩ := hu
  obtain ⟨hmem, hpending, hfree⟩ := hat.closed (hi.pass_legal hp) (passesMemory_wf hinv.memory_wf _ _) hclosed
  have hnext : u.mem = memoryBefore s i (index + 1) := by
    rw [hmem, hexecute.coef]
    exact (passesMemory_take_succ hp (coefOf i) s.mem).symm
  obtain ⟨v, hv, hbetween, hwithin⟩ := hi.openOrComplete_within hexecute hfree hpending hnext le_rfl
  have hmove : 1 ≤ passMovesLeft p u := Nat.le_add_left 1 _
  refine ⟨v, ?_, .inr ⟨hbetween, _, by omega, hwithin⟩⟩
  rw [sequencerMove_execute (hexecute.runState.trans hr) hphase (hi.command_eq hexecute), if_pos hclosed, hindex, hv]

/-- COMPLETE (R156). -/
theorem complete_goesOn (hu : InComplete s i u) : ∃ v, sequencerMove u = some v ∧ MoveGoesOn s v n := by
  obtain ⟨hexecute, hphase, hmem⟩ := hu
  refine ⟨_, sequencerMove_complete (hexecute.runState.trans hr) hphase, .inl ⟨rfl, (hi.step_eq hinv hr).trans ?_⟩⟩
  rw [completeCommand_of_linesOnly hexecute, hmem]

/-- An agent's move in a pass: the barrier, an action of a worker, or a component reaching memory. -/
theorem pass_goesOn (hu : InPass s i index u n) {mv : Move} {v : State} (h : move mv u = some v) : MoveGoesOn s v n := by
  obtain ⟨p, hp, hexecute, hphase, hindex, hat, hn⟩ := id hu
  have hlegal := hi.pass_legal hp
  have hwf : (memoryBefore s i index).wf := passesMemory_wf hinv.memory_wf _ _
  have hrun : u.runState = .run := hexecute.runState.trans hr
  have hcurrent := (hi.currentPass_eq hexecute hindex).trans hp
  have hstay {v : State} (hlines : LinesOnly u v) (hphase : v.seq.phase = .execute) (hindex : v.seq.pass = index)
      (hat : PassAt p (memoryBefore s i index) v) (hless : passMovesLeft p v + 1 ≤ passMovesLeft p u) : MoveGoesOn s v n :=
    .inr ⟨(betweenCommands_of_phase hphase).trans rfl, passMovesLeft p v + passListMoves ((passesOf i).drop (index + 1)) + 1,
      by omega, .inr (.inr ⟨i, hi, .inl ⟨index, p, hp, hexecute.trans hlines, hphase, hindex, hat, le_rfl⟩⟩)⟩
  rcases move_execute_cases hrun hphase hcurrent h with h | ⟨line, lane, hlane, hl, hstage, rfl⟩ |
    ⟨line, lane, hlane, hstage, rfl⟩ | ⟨line, lane, hlane, hstage, rfl⟩ | ⟨k, hk, rfl⟩
  · by_cases hclosed : u.passClosed = true
    · obtain ⟨v', hv', hgoes⟩ := barrier_goesOn hinv hr hi hu hclosed
      exact Option.some.inj (hv'.symm.trans h) ▸ hgoes
    · rw [sequencerMove_execute hrun hphase (hi.command_eq hexecute), if_neg hclosed] at h
      exact nomatch h
  · exact hstay (loadLine_linesOnly p line lane u) hphase hindex (hat.loadLine hlegal hwf hlane hl hstage)
      (passMovesLeft_loadLine p hlane hl hstage).le
  · exact hstay (computeLine_linesOnly p line lane u) hphase hindex (hat.computeLine hlegal hwf hlane hstage)
      (passMovesLeft_computeLine p hlane hstage).le
  · exact hstay (storeLine_linesOnly p line lane u) hphase hindex (hat.storeLine hlane hstage)
      (passMovesLeft_storeLine p hlane hstage).le
  · exact hstay (landComponent_linesOnly _ k u) hphase hindex (hat.landComponent hk) (passMovesLeft_landComponent p hk)

/-- In a pass some agent can go on: a component can land, a worker that holds a line can act on it, one that holds none can
take one, or the pass is closed (R163). -/
theorem exists_move_pass (hu : InPass s i index u n) : ∃ mv v, move mv u = some v := by
  obtain ⟨p, hp, hexecute, hphase, hindex, hat, -⟩ := id hu
  have hrun : u.runState = .run := hexecute.runState.trans hr
  have hcurrent := (hi.currentPass_eq hexecute hindex).trans hp
  have hworkers : 0 < u.workers.length := hexecute.workers.symm ▸ hinv.workers_pos
  by_cases hpending : u.seq.pending = []
  · by_cases hfree : ∀ w ∈ u.workers, w.stage = .free
    · cases hnot : u.seq.notStarted with
      | nil =>
        obtain ⟨⟨-, hheld⟩, -⟩ := hat
        rw [List.filterMap_eq_nil_iff.mpr fun w hw => line_of_free (hfree w hw)] at hheld
        have hclosed : u.passClosed = true := Iff.mpr passClosed_iff ⟨hnot, hheld.symm.eq_nil, hpending⟩
        obtain ⟨v, hv, -⟩ := barrier_goesOn hinv hr hi hu hclosed
        exact ⟨.sequencer, v, hv⟩
      | cons line rest =>
        refine ⟨.load line 0, loadLine p line 0 u, (if_pos (hnot ▸ List.mem_cons_self)).trans ?_⟩
        exact Iff.mpr (workerMove_eq_some hrun hphase hcurrent) ⟨hworkers, hfree _ (worker_mem hworkers), rfl⟩
    · obtain ⟨w, hw, hstage⟩ : ∃ w ∈ u.workers, w.stage ≠ .free := by simpa using hfree
      obtain ⟨lane, hlane, rfl⟩ := List.getElem_of_mem hw
      rw [← worker_eq_getElem hlane] at hstage
      cases hcase : (u.worker lane).stage with
      | free => exact absurd hcase hstage
      | loaded line =>
        exact ⟨.compute line lane, _, Iff.mpr (workerMove_eq_some hrun hphase hcurrent) ⟨hlane, hcase, rfl⟩⟩
      | computed line =>
        exact ⟨.store line lane, _, Iff.mpr (workerMove_eq_some hrun hphase hcurrent) ⟨hlane, hcase, rfl⟩⟩
  · obtain ⟨-, -, landed, -, -, hwhole⟩ := hat
    have hone := Nat.le_of_dvd (List.length_pos_of_ne_nil hpending) hwhole
    exact ⟨.land 0, _, Iff.mpr (landMove_eq_some hrun hphase hcurrent) ⟨by omega, rfl⟩⟩

end

/-- From within a command every move goes on (R154, R155). -/
theorem Within.move_goesOn {u : State} {n : Nat} (hu : Within s u n) {mv : Move} {v : State} (h : move mv u = some v) :
    MoveGoesOn s v n := by
  have honly {phase : Phase} (hphase : u.seq.phase = phase) (hne : phase ≠ .execute)
      (hgoes : ∃ v, sequencerMove u = some v ∧ MoveGoesOn s v n) : MoveGoesOn s v n := by
    obtain ⟨v', hv', hgoes⟩ := hgoes
    have hmove := move_eq_sequencerMove (hphase ▸ hne) h
    exact Option.some.inj (hv'.symm.trans hmove) ▸ hgoes
  obtain ⟨rfl, hn⟩ | ⟨hf, rfl, hn⟩ | ⟨i, hi, ⟨index, hpass⟩ | ⟨hcomplete, -⟩⟩ := hu
  · exact honly (hinv.fetchPhase hr) (by decide) (fetch_goesOn hinv hr hn)
  · exact honly (phase := .validate) rfl (by decide) (validate_goesOn hinv hr hf hn)
  · exact pass_goesOn hinv hr hi hpass h
  · obtain ⟨-, hphase, -⟩ := id hcomplete
    exact honly hphase (by decide) (complete_goesOn hinv hr hi hcomplete)

/-- Within a command some move is enabled (R163). -/
theorem Within.exists_move {u : State} {n : Nat} (hu : Within s u n) : ∃ mv v, move mv u = some v := by
  have hsequencer (hgoes : ∃ v, sequencerMove u = some v ∧ MoveGoesOn s v n) : ∃ mv v, move mv u = some v := by
    obtain ⟨v, hv, -⟩ := hgoes
    exact ⟨.sequencer, v, hv⟩
  obtain ⟨rfl, hn⟩ | ⟨hf, rfl, hn⟩ | ⟨i, hi, ⟨index, hpass⟩ | ⟨hcomplete, -⟩⟩ := hu
  · exact hsequencer (fetch_goesOn hinv hr hn)
  · exact hsequencer (validate_goesOn hinv hr hf hn)
  · exact exists_move_pass hinv hr hi hpass
  · exact hsequencer (complete_goesOn hinv hr hi hcomplete)

/-- Moves that end the command end it in the state of one step. -/
theorem Within.commandRun_eq_step {moves : List Move} {u t : State} {n : Nat} (hu : Within s u n)
    (h : commandRun moves u = some t) : step s = .next t := by
  induction moves generalizing u n with
  | nil => exact nomatch h
  | cons mv rest ih =>
    obtain ⟨v, hmv, h⟩ := Option.bind_eq_some_iff.mp ((commandRun_cons mv rest u).symm.trans h)
    obtain ⟨hbetween, hstep⟩ | ⟨hbetween, n', -, hv⟩ := hu.move_goesOn hinv hr hmv
    · rw [if_pos hbetween] at h
      cases rest with
      | nil => exact Option.some.inj h ▸ hstep
      | cons mv' rest => exact nomatch h
    · rw [hbetween] at h
      exact ih hv h

/-- Moves that leave the command unfinished stay within it and use up the moves it has. -/
theorem Within.unfinishedRun_within {moves : List Move} {u v : State} {n : Nat} (hu : Within s u n)
    (h : unfinishedRun moves u = some v) : ∃ n', n' + moves.length ≤ n ∧ Within s v n' := by
  induction moves generalizing u n with
  | nil => exact ⟨n, le_rfl, Option.some.inj h ▸ hu⟩
  | cons mv rest ih =>
    obtain ⟨w, hmv, h⟩ := Option.bind_eq_some_iff.mp ((unfinishedRun_cons mv rest u).symm.trans h)
    obtain ⟨hbetween, -⟩ | ⟨hbetween, n', hless, hw⟩ := hu.move_goesOn hinv hr hmv
    · rw [if_pos hbetween] at h
      exact nomatch h
    · rw [hbetween] at h
      obtain ⟨n'', hlen, hv⟩ := ih hw h
      exact ⟨n'', by rw [List.length_cons]; omega, hv⟩

/-- From within a command some moves end it (R163): each enabled move brings its end nearer. -/
theorem Within.exists_commandRun {u : State} {n : Nat} (hu : Within s u n) : ∃ moves t, commandRun moves u = some t := by
  induction n using Nat.strong_induction_on generalizing u with
  | _ n ih =>
    obtain ⟨mv, v, hmv⟩ := hu.exists_move hinv hr
    obtain ⟨hbetween, -⟩ | ⟨hbetween, n', hless, hv⟩ := hu.move_goesOn hinv hr hmv
    · exact ⟨[mv], v, by rw [commandRun_cons, hmv, Option.bind_some, if_pos hbetween]; rfl⟩
    · obtain ⟨rest, t, hrest⟩ := ih n' hless hv
      exact ⟨mv :: rest, t, by rw [commandRun_cons, hmv, Option.bind_some, hbetween]; exact hrest⟩

end

/-- Settles O53: every move goes on (`Within.move_goesOn`), and the one that ends the command ends it in the state of one
step. -/
theorem anyInterleavingIsOneStep : Obligations.AnyInterleavingIsOneStep := fun s _ _ hinv hr h =>
  (within_start s).commandRun_eq_step hinv hr h

/-- Settles O54: some moves end the command from its beginning. -/
theorem everyCommandCanFinish : Obligations.EveryCommandCanFinish := fun s hinv hr =>
  (within_start s).exists_commandRun hinv hr

/-- Settles O60: unfinished moves stay within the command and use up its moves, and from within it some moves end it. -/
theorem everyScheduleFinishes : Obligations.EveryScheduleFinishes := by
  intro s hinv hr
  refine ⟨passListMoves (passesAt s) + 3, fun moves u h => ?_⟩
  obtain ⟨n, hlen, hu⟩ := (within_start s).unfinishedRun_within hinv hr h
  obtain ⟨rest, t, hrest⟩ := hu.exists_commandRun hinv hr
  exact ⟨by omega, rest, t, hrest, hu.commandRun_eq_step hinv hr hrest⟩

end Sys2Proof.Machine
end

