-- ==== Sys2Proof/Proofs/Box.lean ====
section
/-! SUPPORT. The rules of spec 41_box.md: the running sum (R181), the laws of `BoxLine_r` (R187), its impulse response on lines
and images (R188), the bounds of the accumulators (R183, R206, R222), and the box commands as chains of BOX (R189). -/

namespace Sys2Proof.Machine

/-! ### The running sum: O38 -/

/-- Settles O38: the leaving value is part of the window sum that the entering one joins (`windowSum_succ`). -/
theorem runningSumIsWindowSum : Obligations.RunningSumIsWindowSum :=
  ⟨slidingSums_eq, fun f r j => Nat.le.intro (windowSum_succ f r j), boxRun_out⟩

/-! ### Clamped windows -/

/-- The clamp-extended line holds values of the line only (R11). -/
theorem clampedAt_mem {x : List Nat} (hx : 0 < x.length) (i : Int) : clampedAt x i ∈ x := by
  have hlt : clamp i x.length < x.length := clamp_lt i hx
  delta clampedAt
  rw [List.getD_eq_getElem x 0 hlt]
  exact List.getElem_mem hlt

theorem clampedAt_mono {x x' : List Nat} (h : List.Forall₂ (· ≤ ·) x x') (i : Int) : clampedAt x i ≤ clampedAt x' i := by
  obtain ⟨hlen, hget⟩ := List.forall₂_iff_get.mp h
  delta clampedAt
  rw [← hlen]
  by_cases hi : clamp i x.length < x.length
  · rw [List.getD_eq_getElem x 0 hi, List.getD_eq_getElem x' 0 (hlen ▸ hi)]
    exact hget _ hi (hlen ▸ hi)
  · rw [List.getD_eq_default x 0 (Nat.le_of_not_lt hi)]
    exact Nat.zero_le _

theorem windowSum_mono {f g : Int → Nat} (h : ∀ i, f i ≤ g i) (r : Nat) (j : Int) : windowSum f r j ≤ windowSum g r j := by
  rw [windowSum_eq_sum, windowSum_eq_sum]
  exact Finset.sum_le_sum fun k _ => h _

theorem le_windowSum {f : Int → Nat} {m : Nat} (hf : ∀ i, m ≤ f i) (r : Nat) (j : Int) : (2 * r + 1) * m ≤ windowSum f r j := by
  rw [windowSum_eq_sum]
  simpa using Finset.card_nsmul_le_sum (Finset.range (2 * r + 1)) (fun k => f (j - r + k)) m fun k _ => hf _

/-- Rounding to nearest keeps an average above the bound of what it averages (R182). -/
theorem le_boxRound {r m sum : Nat} (h : (2 * r + 1) * m ≤ sum) : m ≤ boxRound r sum := by
  refine Iff.mpr (Nat.le_div_iff_mul_le (Nat.succ_pos _)) ?_
  rw [Nat.mul_comm]
  exact h.trans (Nat.le_add_right _ _)

theorem boxRound_mono (r : Nat) {a b : Nat} (h : a ≤ b) : boxRound r a ≤ boxRound r b :=
  Nat.div_le_div_right (Nat.add_le_add_right h r)

@[simp] theorem boxRound_zero (r : Nat) : boxRound r 0 = 0 := Nat.div_eq_of_lt (by omega)

/-- How many of the first `m` positions lie in an interval of them. -/
theorem countP_range_of_interval {p : Nat → Bool} {m a b : Nat} (hb : b ≤ m) (hp : ∀ k < m, p k = true ↔ a ≤ k ∧ k < b) :
    (List.range m).countP p = b - a := by
  have hinterval : {k ∈ Finset.range m | a ≤ k ∧ k < b} = Finset.Ico a b := by
    ext k
    simp only [Finset.mem_filter, Finset.mem_range, Finset.mem_Ico]
    omega
  have hcount : (List.range m).countP p = Nat.count (fun k => a ≤ k ∧ k < b) m :=
    List.countP_congr fun k hk => (hp k (List.mem_range.mp hk)).trans decide_eq_true_iff.symm
  rw [hcount, Nat.count_eq_card_filter_range, hinterval, Nat.card_Ico]

/-! ### The laws of `BoxLine_r`: O39 -/

@[simp] theorem boxLine_length (r : Nat) (x : List Nat) : (boxLine r x).length = x.length := by simp [boxLine]

/-- Every output lies between the bounds of the inputs (R187 a). -/
theorem boxLine_between {r lo hi : Nat} {x : List Nat} (hx : ∀ v ∈ x, lo ≤ v ∧ v ≤ hi) :
    ∀ v ∈ boxLine r x, lo ≤ v ∧ v ≤ hi := by
  intro v hv
  obtain ⟨i, hi, rfl⟩ := List.mem_map.mp hv
  have hpos : 0 < x.length := Nat.zero_lt_of_lt (List.mem_range.mp hi)
  have hbetween (j : Int) := hx _ (clampedAt_mem hpos j)
  exact ⟨le_boxRound (le_windowSum (fun j => (hbetween j).1) r i),
    add_div_le (windowSum_le (fun j => (hbetween j).2) r i) (by omega)⟩

/-- A uniform line is reproduced (R187 c): its least and its greatest value are one. -/
theorem boxLine_replicate (r n v : Nat) : boxLine r (List.replicate n v) = List.replicate n v := by
  refine List.eq_replicate_iff.mpr ⟨by simp, fun u hu => ?_⟩
  have hx : ∀ w ∈ List.replicate n v, v ≤ w ∧ w ≤ v := fun w hw =>
    ⟨(List.eq_of_mem_replicate hw).ge, (List.eq_of_mem_replicate hw).le⟩
  obtain ⟨hlo, hhi⟩ := boxLine_between hx u hu
  exact Nat.le_antisymm hhi hlo

/-- Raising inputs lowers no output (R187 e). -/
theorem boxLine_mono (r : Nat) {x x' : List Nat} (h : List.Forall₂ (· ≤ ·) x x') :
    List.Forall₂ (· ≤ ·) (boxLine r x) (boxLine r x') := by
  delta boxLine
  rw [← h.length_eq, List.forall₂_map_left_iff, List.forall₂_map_right_iff, List.forall₂_same]
  exact fun i _ => boxRound_mono r (windowSum_mono (clampedAt_mono h) r i)

theorem clamp_eq_zero_iff {i : Int} {n : Nat} (hn : 2 ≤ n) : clamp i n = 0 ↔ i ≤ 0 := by
  delta clamp
  split_ifs <;> omega

theorem clamp_eq_last_iff {i : Int} {n : Nat} (hn : 2 ≤ n) : clamp i n = n - 1 ↔ (n : Int) - 1 ≤ i := by
  delta clamp
  split_ifs <;> omega

theorem clamp_eq_inner_iff {i : Int} {j n : Nat} (hpos : 0 < j) (hlast : j + 1 < n) : clamp i n = j ↔ i = j := by
  delta clamp
  split_ifs <;> omega

/-- A window that covers the line fills with the line's ends what lies past them (R187 f). -/
theorem countP_clamp_window {r n i j : Nat} (hn : 2 ≤ n) (hr : n - 1 ≤ r) (hi : i < n) (hj : j < n) :
    ((List.range (2 * r + 1)).countP fun (k : Nat) => clamp ((i : Int) - r + k) n == j) =
      if j = 0 then r - i + 1 else if j = n - 1 then r - (n - 1 - i) + 1 else 1 := by
  split_ifs with hfirst hlast
  · subst hfirst
    refine countP_range_of_interval (a := 0) (b := r - i + 1) (by omega) fun k hk => ?_
    rw [beq_iff_eq, clamp_eq_zero_iff hn]
    omega
  · subst hlast
    have hcount : 2 * r + 1 - (r - i + (n - 1)) = r - (n - 1 - i) + 1 := by omega
    refine (countP_range_of_interval le_rfl fun k hk => ?_).trans hcount
    rw [beq_iff_eq, clamp_eq_last_iff hn]
    omega
  · have hcount : r - i + j + 1 - (r - i + j) = 1 := by omega
    refine (countP_range_of_interval (by omega) fun k hk => ?_).trans hcount
    rw [beq_iff_eq, clamp_eq_inner_iff (by omega) (by omega)]
    omega

/-- Settles O39: one law after the other. -/
theorem boxLineLaws : Obligations.BoxLineLaws :=
  ⟨fun _ _ _ _ hx => boxLine_between hx, boxLine_zero, boxLine_replicate, fun r v => boxLine_replicate r 1 v,
    fun r _ _ h => boxLine_mono r h, fun _ _ _ _ hn hr hi hj => countP_clamp_window hn hr hi hj⟩

/-! ### Impulses: O40 -/

/-- The line of `n` samples that is 0 except `v` at `p` (R188). -/
def impulse (n p v : Nat) : List Nat := (List.range n).map fun j => if j = p then v else 0

@[simp] theorem impulse_length (n p v : Nat) : (impulse n p v).length = n := by simp [impulse]

/-- A window at least as far from the ends as it reaches sees the impulse where it is, and not again at a clamped position. -/
theorem clampedAt_impulse {r n p v i : Nat} {q : Int} (hlo : r ≤ p) (hhi : p + r + 1 ≤ n) (hi : i < n) (hq : i - r ≤ q)
    (hq' : q ≤ i + r) : clampedAt (impulse n p v) q = if q = p then v else 0 := by
  have hpos : clamp q n = p ↔ q = p := by
    delta clamp
    split_ifs <;> omega
  delta clampedAt
  rw [impulse_length]
  refine (getD_map_range _ (clamp_lt q (Nat.zero_lt_of_lt hi)) 0).trans ?_
  simp only [hpos]

/-- A window sees a single value if it covers its position. -/
theorem windowSum_single (r p v i : Nat) :
    windowSum (fun q => if q = p then v else 0) r i = if i ≤ p + r ∧ p ≤ i + r then v else 0 := by
  rw [windowSum_eq_sum]
  split_ifs with h
  · rw [Finset.sum_eq_single_of_mem (p + r - i) (Finset.mem_range.mpr (by omega))]
    · exact if_pos (by omega)
    · exact fun k _ hk => if_neg (by omega)
  · refine Finset.sum_eq_zero fun k hk => if_neg ?_
    have := Finset.mem_range.mp hk
    omega

/-- The impulse response of `BoxLine_r` (R188). -/
theorem boxLine_impulse {r n p : Nat} (v : Nat) (hlo : r ≤ p) (hhi : p + r + 1 ≤ n) :
    boxLine r (impulse n p v) = (List.range n).map fun i => if i ≤ p + r ∧ p ≤ i + r then boxRound r v else 0 := by
  delta boxLine
  rw [impulse_length]
  refine List.map_congr_left fun i hi => ?_
  rw [windowSum_congr fun q hq hq' => clampedAt_impulse hlo hhi (List.mem_range.mp hi) hq hq', windowSum_single,
    apply_ite (boxRound r), boxRound_zero]

theorem boxLine_impulse_getD {r n p i : Nat} (v : Nat) (hlo : r ≤ p) (hhi : p + r + 1 ≤ n) (hi : i < n) :
    (boxLine r (impulse n p v)).getD i 0 = if i ≤ p + r ∧ p ≤ i + r then boxRound r v else 0 := by
  rw [boxLine_impulse v hlo hhi, getD_map_range _ hi]

theorem sum_map_range (f : Nat → Nat) (n : Nat) : ((List.range n).map f).sum = ∑ k ∈ Finset.range n, f k := rfl

/-- The outputs sum to `L` times the one value they have in the window (R188). -/
theorem boxLine_impulse_sum {r n p : Nat} (v : Nat) (hlo : r ≤ p) (hhi : p + r + 1 ≤ n) :
    (boxLine r (impulse n p v)).sum = (2 * r + 1) * boxRound r v := by
  have hwindow : {i ∈ Finset.range n | i ≤ p + r ∧ p ≤ i + r} = Finset.Ico (p - r) (p + r + 1) := by
    ext i
    simp only [Finset.mem_filter, Finset.mem_range, Finset.mem_Ico]
    omega
  have hcard : p + r + 1 - (p - r) = 2 * r + 1 := by omega
  rw [boxLine_impulse v hlo hhi, sum_map_range, ← Finset.sum_filter, hwindow, Finset.sum_const, Nat.card_Ico,
    hcard, smul_eq_mul]

/-- `L` times the rounded `L`-th part of `V` is within `r` of `V` (R182, R188). -/
theorem mul_boxRound_near (r v : Nat) : (2 * r + 1) * boxRound r v ≤ v + r ∧ v ≤ (2 * r + 1) * boxRound r v + r := by
  have hdiv : (2 * r + 1) * boxRound r v + (v + r) % (2 * r + 1) = v + r := Nat.div_add_mod _ _
  have hmod : (v + r) % (2 * r + 1) < 2 * r + 1 := Nat.mod_lt _ (Nat.succ_pos _)
  constructor <;> omega

/-- The impulse response of `Box2D_r`: each row through the impulse pixel's row is a line's response, and so is then each
column through the window (R188). -/
theorem box2D_impulse {r w h py px row col : Nat} (v ch : Nat) (hylo : r ≤ py) (hyhi : py + r + 1 ≤ h) (hxlo : r ≤ px)
    (hxhi : px + r + 1 ≤ w) (hrow : row < h) (hcol : col < w) :
    box2D r w h (fun y x _ => if y = py ∧ x = px then v else 0) row col ch =
      if (row ≤ py + r ∧ py ≤ row + r) ∧ (col ≤ px + r ∧ px ≤ col + r) then boxRound r (boxRound r v) else 0 := by
  have hrows (y : Nat) : onRows (boxLine r) w (fun y x _ => if y = py ∧ x = px then v else 0) y col ch =
      if y = py then (if col ≤ px + r ∧ px ≤ col + r then boxRound r v else 0) else 0 := by
    have hline : ((List.range w).map fun x => if y = py ∧ x = px then v else 0) = impulse w px (if y = py then v else 0) :=
      List.map_congr_left fun x _ => by by_cases hy : y = py <;> simp [hy]
    delta onRows
    rw [hline, boxLine_impulse_getD _ hxlo hxhi hcol]
    by_cases hy : y = py <;> simp [hy]
  show (boxLine r ((List.range h).map fun y => onRows (boxLine r) w _ y col ch)).getD row 0 = _
  rw [List.map_congr_left fun y _ => hrows y]
  refine (boxLine_impulse_getD _ hylo hyhi hrow).trans ?_
  rw [apply_ite (boxRound r), boxRound_zero, ← ite_and]

/-- Settles O40: the response of a line and its sum, and the response of an image. -/
theorem boxImpulse : Obligations.BoxImpulse := by
  refine ⟨fun r n p v hlo hhi => ⟨fun i hi => boxLine_impulse_getD v hlo hhi hi, boxLine_impulse_sum v hlo hhi, ?_⟩,
    fun r w h py px v row col ch hylo hyhi hxlo hxhi hrow hcol => box2D_impulse v ch hylo hyhi hxlo hxhi hrow hcol⟩
  show (boxLine r (impulse n p v)).sum ≤ v + r ∧ v ≤ (boxLine r (impulse n p v)).sum + r
  rw [boxLine_impulse_sum v hlo hhi]
  exact mul_boxRound_near r v

/-! ### The accumulators' bounds: O49 -/

theorem firSum_eq_sum (q x : List Nat) (i : Nat) :
    firSum q x i = ∑ k ∈ Finset.range q.length, q.getD k 0 * clampedAt x ((i : Int) + k - centreTap q.length) :=
  foldl_add_range _ _

/-- A list's own entries sum to its sum. -/
theorem sum_getD (q : List Nat) : ∑ k ∈ Finset.range q.length, q.getD k 0 = q.sum := by
  rw [← sum_map_range, map_range_getD]

theorem firSum_le {M : Nat} {x : List Nat} (hx : BoundedBy M x) (q : List Nat) (i : Nat) : firSum q x i ≤ q.sum * M := by
  rw [firSum_eq_sum, ← sum_getD, Finset.sum_mul]
  exact Finset.sum_le_sum fun k _ => Nat.mul_le_mul_left _ (clampedAt_le hx _)

/-- No coefficient exceeds the kernel's sum. -/
theorem getD_le_sum (q : List Nat) (k : Nat) : q.getD k 0 ≤ q.sum := by
  by_cases hk : k < q.length
  · rw [List.getD_eq_getElem q 0 hk]
    exact List.le_sum_of_mem (List.getElem_mem hk)
  · rw [List.getD_eq_default q 0 (Nat.le_of_not_lt hk)]
    exact Nat.zero_le _

/-- Settles O49: each sum is at most the sum of its weights times `M`, and the numbers of R183, R206 and R222 follow. -/
theorem accumulatorBounds : Obligations.AccumulatorBounds := by
  intro M r i x hM hr hx
  have hL : 2 * r + 1 ≤ 131071 := by omega
  have hLM : (2 * r + 1) * M ≤ 131071 * 65535 := Nat.mul_le_mul hL hM
  have hD : (2 * r + 1) * (2 * r + 1) ≤ 131071 * 131071 := Nat.mul_le_mul hL hL
  have hDM : (2 * r + 1) * (2 * r + 1) * M ≤ 131071 * 131071 * 65535 := Nat.mul_le_mul hD hM
  have htent : tentSum x r i ≤ (2 * r + 1) * (2 * r + 1) * M := tentSum_le hx r i
  refine ⟨fun j => ?_, htent, by omega, by omega, fun q hq => ?_⟩
  · have hwindow : windowSum (clampedAt x) r j ≤ (2 * r + 1) * M := windowSum_le (clampedAt_le hx) r j
    exact ⟨hwindow, by omega⟩
  · have hfir : firSum q x i ≤ 65536 * 65535 :=
      (firSum_le hx q i).trans (Nat.mul_le_mul hq.le hM)
    exact ⟨hfir, by omega, fun k j => Nat.mul_le_mul ((getD_le_sum q k).trans hq.le) ((clampedAt_le hx j).trans hM)⟩

/-! ### Chains of BOX: O57 -/

/-- A command that completed leaves a state another command can start from. -/
theorem ready_of_completed {i : Instr} {dst : Buffer} {img : Image} {s t : State} (hs : Ready s) (hi : i ≠ .halt)
    (h : exec i s = .next t) (hc : Completed dst img s t) : Ready t := by
  obtain ⟨-, -, -, -, -, -, hworkers, hseq⟩ := hc
  obtain ⟨hw, -, -⟩ := id hs
  refine ⟨?_, exec_memory_wf hs hi h, ?_⟩
  · rwa [hworkers, List.length_map]
  · rw [hseq]
    rfl

/-- BOX from a buffer that holds an image leaves `Box2D_r` of it in the destination, and the engine ready for the next command
(R184). -/
theorem exec_box_holds {src dst : Buffer} (r : Nat) {s : State} {img : Image} (hs : Ready s) (h : LegalPair src dst s.memBytes)
    (himg : Holds src s.mem img) :
    ∃ t, exec (.box src dst r) s = .next t ∧ Ready t ∧ t.memBytes = s.memBytes ∧
      Holds dst t.mem (box2D r dst.width dst.height img) := by
  obtain ⟨-, hm, -⟩ := id hs
  obtain ⟨hfirst, -⟩ := rowPass_legal h (.box r)
  have hi : Instr.box src dst r ≠ .halt := nofun
  obtain ⟨t, ht, hc⟩ := exec_completed hs hi (checkTwoBuffers_of_legalPair h) rfl (separable_holds hfirst [] hm himg)
  obtain ⟨-, -, hold, -, ⟨-, -, -, -, -, -, hbytes, -⟩, -⟩ := id hc
  exact ⟨t, ht, ready_of_completed hs hi ht hc, hbytes, hold⟩

/-- Two buffers in which the same image was left hold the same components. -/
theorem holds_imageOf {c : Buffer} {m m' : Memory} {img : Image} (h : Holds c m img) (h' : Holds c m' img) :
    Holds c m' (imageOf c m) :=
  fun row col ch hb => (h' row col ch hb).trans (h row col ch hb).symm

/-- TENT is BOX twice, through a scratch buffer (R189). -/
theorem tent_eq_box_box {a b c : Buffer} (r : Nat) {s : State} (hs : Ready s) (hab : LegalPair a b s.memBytes)
    (hbc : LegalPair b c s.memBytes) (hac : LegalPair a c s.memBytes) :
    ∃ t t1 t2, exec (.tent a c r) s = .next t ∧ exec (.box a b r) s = .next t1 ∧ exec (.box b c r) t1 = .next t2 ∧
      Holds c t2.mem (imageOf c t.mem) := by
  obtain ⟨t, ht, -, -, hold, -⟩ := tentCompletes a c r s hs hac
  obtain ⟨-, -, ⟨hwidth, hheight, -⟩, -⟩ := id hbc
  obtain ⟨t1, ht1, hs1, hbytes1, hold1⟩ := exec_box_holds r hs hab (img := imageOf a s.mem) fun _ _ _ _ => rfl
  obtain ⟨t2, ht2, -, -, hold2⟩ := exec_box_holds r hs1 (hbytes1 ▸ hbc) hold1
  rw [hwidth, hheight] at hold2
  exact ⟨t, t1, t2, ht, ht1, ht2, holds_imageOf hold hold2⟩

/-- GBOX is BOX three times, through scratch buffers (R189). -/
theorem gbox_eq_box_box_box {a b b' c : Buffer} (r : Nat) {s : State} (hs : Ready s) (hab : LegalPair a b s.memBytes)
    (hbb : LegalPair b b' s.memBytes) (hbc : LegalPair b' c s.memBytes) (hac : LegalPair a c s.memBytes) :
    ∃ t t1 t2 t3, exec (.gbox a c r) s = .next t ∧ exec (.box a b r) s = .next t1 ∧ exec (.box b b' r) t1 = .next t2 ∧
      exec (.box b' c r) t2 = .next t3 ∧ Holds c t3.mem (imageOf c t.mem) := by
  obtain ⟨t, ht, -, -, hold, -⟩ := gboxCompletes a c r s hs hac
  obtain ⟨-, -, ⟨hwidth, hheight, -⟩, -⟩ := id hbb
  obtain ⟨-, -, ⟨hwidth', hheight', -⟩, -⟩ := id hbc
  obtain ⟨t1, ht1, hs1, hbytes1, hold1⟩ := exec_box_holds r hs hab (img := imageOf a s.mem) fun _ _ _ _ => rfl
  obtain ⟨t2, ht2, hs2, hbytes2, hold2⟩ := exec_box_holds r hs1 (hbytes1 ▸ hbb) hold1
  obtain ⟨t3, ht3, -, -, hold3⟩ := exec_box_holds r hs2 ((hbytes2.trans hbytes1) ▸ hbc) hold2
  rw [hwidth, hheight, hwidth', hheight'] at hold3
  exact ⟨t, t1, t2, t3, ht, ht1, ht2, ht3, holds_imageOf hold hold3⟩

/-- FGAUSS leaves what BOX writes from a copy (R189, R201). -/
theorem fgauss_eq_box_of_copy {a b c : Buffer} (r : Nat) {s : State} (hs : Ready s) (ha : Fits a s.memBytes)
    (hbc : LegalPair b c s.memBytes) (hab : SameSize a b) (hcopy : Holds b s.mem (imageOf a s.mem)) :
    ∃ t u, exec (.fgauss a r) s = .next t ∧ exec (.box b c r) s = .next u ∧ Holds c u.mem (imageOf a t.mem) := by
  obtain ⟨t, ht, -, -, hold, -⟩ := fgaussCompletes a r s hs ha
  obtain ⟨u, hu, -, -, hold'⟩ := exec_box_holds r hs hbc hcopy
  obtain ⟨hwidth, hheight, hchannels, -⟩ := hab
  obtain ⟨-, -, ⟨hwidth', hheight', hchannels', -⟩, -⟩ := hbc
  rw [hwidth, hwidth', hheight, hheight'] at hold
  refine ⟨t, u, ht, hu, fun row col ch hb => (hold' row col ch hb).trans (hold row col ch ?_).symm⟩
  rwa [InBounds, hwidth, hwidth', hheight, hheight', hchannels, hchannels']

/-- Settles O57: TENT and GBOX as chains, and FGAUSS from a copy. -/
theorem boxCommandsChain : Obligations.BoxCommandsChain :=
  ⟨fun _ _ _ r _ hs hab hbc hac => tent_eq_box_box r hs hab hbc hac,
    fun _ _ _ _ r _ hs hab hbb hbc hac => gbox_eq_box_box_box r hs hab hbb hbc hac,
    fun _ _ _ r _ hs ha hbc hab hcopy => fgauss_eq_box_of_copy r hs ha hbc hab hcopy⟩

end Sys2Proof.Machine
end

