-- ==== Sys2Proof/Proofs/FastGauss.lean ====
section
/-! SUPPORT. The rules of spec 42_fastgauss.md: the cascaded running sums (R203), and the laws of `Tent2Line_r` with its impulse
response (R205). -/

namespace Sys2Proof.Machine

/-! ### The cascaded sums: O41 -/

/-- Settles O41: the first stage, the second stage over it, and the outputs. -/
theorem cascadedSumsAreWeightedSum : Obligations.CascadedSumsAreWeightedSum :=
  fun r x => ⟨firstStage_eq r x, secondStage_eq r x, tent2Run_out r x⟩

/-! ### Range and uniform lines -/

@[simp] theorem tent2Line_length (r : Nat) (x : List Nat) : (tent2Line r x).length = x.length := by simp [tent2Line]

/-- The weights of `T` add up to `D = L * L`: it is the window sum of window sums (R202). -/
theorem le_tentSum {m : Nat} {x : List Nat} (hx : ∀ j, m ≤ clampedAt x j) (r i : Nat) :
    (2 * r + 1) * (2 * r + 1) * m ≤ tentSum x r i := by
  rw [← windowSum_windowSum, Nat.mul_assoc]
  exact le_windowSum (le_windowSum hx r) r i

/-- Rounding to nearest keeps an average above the bound of what it averages (R202). -/
theorem le_tentRound {r m sum : Nat} (h : (2 * r + 1) * (2 * r + 1) * m ≤ sum) : m ≤ tentRound r sum := by
  have hD : 0 < (2 * r + 1) * (2 * r + 1) := by positivity
  refine (Nat.le_div_iff_mul_le hD).mpr ?_
  rw [Nat.mul_comm]
  exact h.trans (Nat.le_add_right _ _)

@[simp] theorem tentRound_zero (r : Nat) : tentRound r 0 = 0 := by
  have hD : 0 < (2 * r + 1) * (2 * r + 1) := by positivity
  exact Nat.div_eq_of_lt (by omega)

/-- Every output lies between the bounds of the inputs (R205 a). -/
theorem tent2Line_between {r lo hi : Nat} {x : List Nat} (hx : ∀ v ∈ x, lo ≤ v ∧ v ≤ hi) :
    ∀ v ∈ tent2Line r x, lo ≤ v ∧ v ≤ hi := by
  intro v hv
  refine ⟨?_, closedForm_boundedBy (.tent2 r) [] (fun w hw => (hx w hw).2) v hv⟩
  obtain ⟨i, hi, rfl⟩ := List.mem_map.mp hv
  have hpos : 0 < x.length := Nat.zero_lt_of_lt (List.mem_range.mp hi)
  exact le_tentRound (le_tentSum (fun j => (hx _ (clampedAt_mem hpos j)).1) r i)

/-- A uniform line is reproduced (R205 c): its least and its greatest value are one. -/
theorem tent2Line_replicate (r n v : Nat) : tent2Line r (List.replicate n v) = List.replicate n v := by
  have hx : ∀ w ∈ List.replicate n v, v ≤ w ∧ w ≤ v := fun w hw => (List.eq_of_mem_replicate hw) ▸ ⟨le_rfl, le_rfl⟩
  refine List.eq_replicate_iff.mpr ⟨by simp, fun u hu => ?_⟩
  obtain ⟨hlo, hhi⟩ := tent2Line_between hx u hu
  exact Nat.le_antisymm hhi hlo

/-! ### Impulses -/

theorem tentSum_eq_sum (x : List Nat) (r i : Nat) : tentSum x r i = ∑ k ∈ Finset.range (4 * r + 1),
    (2 * r + 1 - ((k : Int) - 2 * r).natAbs) * clampedAt x ((i : Int) + k - 2 * r) := foldl_add_range _ _

/-- `T` sees an impulse once, with the weight of its distance, if it reaches it at all (R205 e). -/
theorem tentSum_impulse {r n p i : Nat} (v : Nat) (hlo : 2 * r ≤ p) (hhi : p + 2 * r + 1 ≤ n) (hi : i < n) :
    tentSum (impulse n p v) r i =
      if i ≤ p + 2 * r ∧ p ≤ i + 2 * r then (2 * r + 1 - ((i - p) + (p - i))) * v else 0 := by
  have hterm : ∀ k ∈ Finset.range (4 * r + 1),
      (2 * r + 1 - ((k : Int) - 2 * r).natAbs) * clampedAt (impulse n p v) ((i : Int) + k - 2 * r) =
        if (k : Int) = p + 2 * r - i then (2 * r + 1 - ((i - p) + (p - i))) * v else 0 := by
    intro k hk
    have hk := Finset.mem_range.mp hk
    rw [clampedAt_impulse hlo hhi hi (by push_cast; omega) (by push_cast; omega)]
    by_cases hat : (k : Int) = p + 2 * r - i
    · have hdist : ((k : Int) - 2 * r).natAbs = (i - p) + (p - i) := by omega
      rw [if_pos (by omega), if_pos hat, hdist]
    · rw [if_neg (by omega), if_neg hat, Nat.mul_zero]
  rw [tentSum_eq_sum, Finset.sum_congr rfl hterm]
  split_ifs with hreach
  · rw [Finset.sum_eq_single_of_mem (p + 2 * r - i) (Finset.mem_range.mpr (by omega))]
    · exact if_pos (by omega)
    · exact fun k _ hk => if_neg (by omega)
  · refine Finset.sum_eq_zero fun k hk => if_neg ?_
    have := Finset.mem_range.mp hk
    omega

/-- The impulse response of `Tent2Line_r` (R205 e). -/
theorem tent2Line_impulse_getD {r n p i : Nat} (v : Nat) (hlo : 2 * r ≤ p) (hhi : p + 2 * r + 1 ≤ n) (hi : i < n) :
    (tent2Line r (impulse n p v)).getD i 0 =
      if i ≤ p + 2 * r ∧ p ≤ i + 2 * r then tentRound r ((2 * r + 1 - ((i - p) + (p - i))) * v) else 0 := by
  delta tent2Line
  rw [impulse_length, getD_map_range _ hi, tentSum_impulse v hlo hhi hi, apply_ite (tentRound r), tentRound_zero]

/-! ### The laws of `Tent2Line_r`: O42 -/

/-- Settles O42: one law after the other, and the lines of R205 (f) by evaluation. -/
theorem tent2LineLaws : Obligations.Tent2LineLaws :=
  ⟨fun _ _ _ _ hx => tent2Line_between hx, tent2Line_zero, tent2Line_replicate, fun r v => tent2Line_replicate r 1 v,
    fun _ _ _ v _ hlo hhi hi => tent2Line_impulse_getD v hlo hhi hi, by decide⟩

end Sys2Proof.Machine
end

