-- ==== Sys2Proof/Proofs/Enclosures.lean ====
section
/-! SUPPORT. The `gaussian_kernel_engine`'s enclosures (spec 43_gauss.md R216, log 9): each operation on enclosures encloses the
real number it stands for, so `tapWeight` encloses the Gaussian weight; no upper end exceeds 1, and the lower ends fall with the
distance from the centre tap. -/

namespace Sys2Proof.Machine

/-! ### Rounded division -/

/-- The model's rounded-up division is Mathlib's. -/
theorem ceilDiv_eq_ceilDiv (a b : Nat) : ceilDiv a b = a ⌈/⌉ b := (Nat.ceilDiv_eq_add_pred_div a b).symm

theorem ceilDiv_le_iff {a b c : Nat} (hb : 0 < b) : ceilDiv a b ≤ c ↔ a ≤ b * c := by
  rw [ceilDiv_eq_ceilDiv, ceilDiv_le_iff_le_mul hb]

theorem le_mul_ceilDiv (a : Nat) {b : Nat} (hb : 0 < b) : a ≤ b * ceilDiv a b := (ceilDiv_le_iff hb).mp le_rfl

theorem ceilDiv_mono {a a' : Nat} (b : Nat) (h : a ≤ a') : ceilDiv a b ≤ ceilDiv a' b :=
  Nat.div_le_div_right (by omega)

theorem div_le_cast_ceilDiv (a : Nat) {b : Nat} (hb : 0 < b) : (a : ℝ) / b ≤ ceilDiv a b := by
  rw [div_le_iff₀' (Nat.cast_pos.mpr hb)]
  exact_mod_cast le_mul_ceilDiv a hb

theorem scale_pos : 0 < scale := Nat.two_pow_pos 256

theorem cast_scale_pos : (0 : ℝ) < scale := Nat.cast_pos.mpr scale_pos

/-! ### The exponential series -/

/-- The term `t^n / n!` of the exponential series. -/
noncomputable def expTerm (t : ℝ) (n : Nat) : ℝ := t ^ n / n.factorial

@[simp] theorem expTerm_zero (t : ℝ) : expTerm t 0 = 1 := by simp [expTerm]

theorem expTerm_succ (t : ℝ) (n : Nat) : expTerm t (n + 1) = expTerm t n * t / (n + 1) := by
  rw [expTerm, expTerm, pow_succ, Nat.factorial_succ]
  push_cast
  field_simp

theorem expTerm_nonneg {t : ℝ} (ht : 0 ≤ t) (n : Nat) : 0 ≤ expTerm t n := by
  rw [expTerm]
  positivity

/-- The tail of the series past a partial sum is at most twice the last term summed. -/
theorem exp_le_sum_expTerm {t : ℝ} (ht : 0 ≤ t) (ht1 : t ≤ 1) (n : Nat) :
    Real.exp t ≤ ∑ m ∈ Finset.range (n + 1), expTerm t m + 2 * expTerm t n := by
  refine (Real.exp_bound' ht ht1 n.succ_pos).trans (add_le_add_right ?_ _)
  have hfactor : t * (n + 2) / (n + 1) ^ 2 ≤ 2 := by
    rw [div_le_iff₀ (by positivity)]
    nlinarith [n.cast_nonneg (α := ℝ)]
  calc t ^ (n + 1) * ((n + 1 : Nat) + 1) / ((n + 1).factorial * (n + 1 : Nat))
      = expTerm t n * (t * (n + 2) / (n + 1) ^ 2) := by
        rw [expTerm, pow_succ, Nat.factorial_succ]
        push_cast
        field_simp
        ring
    _ ≤ expTerm t n * 2 := mul_le_mul_of_nonneg_left hfactor (expTerm_nonneg ht n)
    _ = 2 * expTerm t n := mul_comm _ _

/-- The next term's numerator and denominator, as they are rounded, are those of the series. -/
theorem mul_expTerm_succ (S : ℝ) (a b n : Nat) :
    S * expTerm (a / b) (n + 1) = S * expTerm (a / b) n * a / (b * (n + 1)) := by
  rw [expTerm_succ]
  field_simp

theorem termsLo_step {S : ℝ} {a b n term : Nat} (h : (term : ℝ) ≤ S * expTerm (a / b) n) :
    ((term * a / (b * (n + 1)) : Nat) : ℝ) ≤ S * expTerm (a / b) (n + 1) := by
  rw [mul_expTerm_succ]
  refine Nat.cast_div_le.trans ?_
  push_cast
  gcongr

theorem termsHi_step {S : ℝ} {a b n term : Nat} (hb : 0 < b) (h : S * expTerm (a / b) n ≤ term) :
    S * expTerm (a / b) (n + 1) ≤ (ceilDiv (term * a) (b * (n + 1)) : Nat) := by
  rw [mul_expTerm_succ]
  refine le_trans ?_ (div_le_cast_ceilDiv (term * a) (Nat.mul_pos hb n.succ_pos))
  push_cast
  gcongr

/-- The terms rounded down sum to at most the series' terms. -/
theorem termsLo_sum_le {S : ℝ} {a b : Nat} (count : Nat) {n term : Nat} (h : (term : ℝ) ≤ S * expTerm (a / b) n) :
    ((termsLo a b n term count).sum : ℝ) ≤ S * ∑ m ∈ Finset.range count, expTerm (a / b) (n + m) := by
  induction count generalizing n term with
  | zero => simp [termsLo]
  | succ count ih =>
    have hnext := ih (termsLo_step h)
    rw [Finset.sum_range_succ', mul_add, add_comm (S * _), termsLo, List.sum_cons, Nat.cast_add]
    refine add_le_add h (hnext.trans_eq ?_)
    simp only [Nat.add_assoc, Nat.add_comm 1]

/-- The terms rounded up sum to at least the series' terms. -/
theorem le_termsHi_sum {S : ℝ} {a b : Nat} (hb : 0 < b) (count : Nat) {n term : Nat}
    (h : S * expTerm (a / b) n ≤ term) :
    S * ∑ m ∈ Finset.range count, expTerm (a / b) (n + m) ≤ ((termsHi a b n term count).sum : ℝ) := by
  induction count generalizing n term with
  | zero => simp [termsHi]
  | succ count ih =>
    have hnext := ih (termsHi_step hb h)
    rw [Finset.sum_range_succ', mul_add, add_comm (S * _), termsHi, List.sum_cons, Nat.cast_add]
    refine add_le_add h (le_of_eq_of_le ?_ hnext)
    simp only [Nat.add_assoc, Nat.add_comm 1]

/-- The last term rounded up is at least the series' last term. -/
theorem le_termsHi_getLastD {S : ℝ} {a b : Nat} (hb : 0 < b) (count d : Nat) {n term : Nat}
    (h : S * expTerm (a / b) n ≤ term) :
    S * expTerm (a / b) (n + count) ≤ ((termsHi a b n term (count + 1)).getLastD d : ℝ) := by
  induction count generalizing n term d with
  | zero => simpa [termsHi] using h
  | succ count ih =>
    have hnext := ih term (termsHi_step hb h)
    rwa [termsHi, List.getLastD_cons, ← Nat.add_assoc, Nat.add_right_comm]

/-- A term list begins with its first term. -/
theorem le_termsLo_sum (a b n term count : Nat) : term ≤ (termsLo a b n term (count + 1)).sum := Nat.le_add_right _ _

/-- A larger numerator raises every term. -/
theorem termsHi_mono {a a' : Nat} (b : Nat) (ha : a ≤ a') (count n : Nat) {term term' : Nat} (ht : term ≤ term') :
    List.Forall₂ (· ≤ ·) (termsHi a b n term count) (termsHi a' b n term' count) := by
  induction count generalizing n term term' with
  | zero => exact .nil
  | succ count ih => exact .cons ht (ih _ (ceilDiv_mono _ (Nat.mul_le_mul ht ha)))

theorem getLastD_mono {l l' : List Nat} (h : List.Forall₂ (· ≤ ·) l l') {d d' : Nat} (hd : d ≤ d') :
    l.getLastD d ≤ l'.getLastD d' := by
  induction h generalizing d d' with
  | nil => exact hd
  | cons hx _ ih =>
    rw [List.getLastD_cons, List.getLastD_cons]
    exact ih hx

/-- With the argument 0 the terms after the first are 0. -/
theorem termsHi_zero (b n term count : Nat) : termsHi 0 b n term (count + 1) = term :: List.replicate count 0 := by
  induction count generalizing n term with
  | zero => rfl
  | succ count ih =>
    have hzero : ceilDiv (term * 0) (b * (n + 1)) = 0 := by simp [ceilDiv_eq_ceilDiv]
    rw [termsHi, hzero, ih, List.replicate_succ]

/-! ### The operations enclose -/

/-- The real number `x` lies between `lo / 2^256` and `hi / 2^256`. -/
structure Enclosure.Encloses (e : Enclosure) (x : ℝ) : Prop where
  lo_le : (e.lo : ℝ) ≤ x * scale
  le_hi : x * scale ≤ e.hi

theorem Enclosure.Encloses.lo_le_hi {e : Enclosure} {x : ℝ} (h : e.Encloses x) : e.lo ≤ e.hi :=
  Nat.cast_le.mp (h.lo_le.trans h.le_hi)

theorem expSmall_encloses {a b : Nat} (hb : 0 < b) (hab : a ≤ b) : (expSmall a b).Encloses (Real.exp (a / b)) := by
  have ht : (0 : ℝ) ≤ a / b := by positivity
  have ht1 : (a : ℝ) / b ≤ 1 := div_le_one_of_le₀ (Nat.cast_le.mpr hab) b.cast_nonneg
  have hfirst : (scale : ℝ) * expTerm (a / b) 0 = scale := by rw [expTerm_zero, mul_one]
  constructor
  · have hsum := termsLo_sum_le expTerms hfirst.ge
    simp only [Nat.zero_add] at hsum
    rw [mul_comm]
    exact hsum.trans (mul_le_mul_of_nonneg_left (Real.sum_le_exp_of_nonneg ht _) cast_scale_pos.le)
  · have hsum := le_termsHi_sum hb 60 hfirst.le
    have hlast := le_termsHi_getLastD hb 59 0 hfirst.le
    simp only [Nat.zero_add] at hsum hlast
    have hexp := mul_le_mul_of_nonneg_left (exp_le_sum_expTerm ht ht1 59) cast_scale_pos.le
    show _ ≤ (((termsHi a b 0 scale 60).sum + 2 * (termsHi a b 0 scale 60).getLastD 0 : Nat) : ℝ)
    rw [Nat.cast_add, Nat.cast_mul, Nat.cast_ofNat]
    linarith

theorem Enclosure.Encloses.inv {e : Enclosure} {x : ℝ} (h : e.Encloses x) (hlo : 0 < e.lo) : e.inv.Encloses x⁻¹ := by
  have hlo' : (0 : ℝ) < e.lo := Nat.cast_pos.mpr hlo
  have hxs : 0 < x * scale := hlo'.trans_le h.lo_le
  have hshare : x⁻¹ * scale = (scale * scale : Nat) / (x * scale) := by
    have hscale := cast_scale_pos.ne'
    have hx : x ≠ 0 := left_ne_zero_of_mul hxs.ne'
    push_cast
    field_simp
  constructor <;> rw [hshare]
  · refine Nat.cast_div_le.trans ?_
    gcongr
    exact h.le_hi
  · refine le_trans ?_ (div_le_cast_ceilDiv _ hlo)
    gcongr
    exact h.lo_le

theorem Enclosure.Encloses.square {e : Enclosure} {x : ℝ} (h : e.Encloses x) (hx : 0 ≤ x) : e.square.Encloses (x ^ 2) := by
  have hshare : x ^ 2 * scale = (x * scale) * (x * scale) / scale := by
    have hscale := cast_scale_pos.ne'
    field_simp
  have hxs : 0 ≤ x * scale := mul_nonneg hx cast_scale_pos.le
  constructor <;> rw [hshare]
  · refine Nat.cast_div_le.trans ?_
    push_cast
    gcongr <;> exact h.lo_le
  · refine le_trans ?_ (div_le_cast_ceilDiv _ scale_pos)
    push_cast
    gcongr <;> exact h.le_hi

theorem Enclosure.Encloses.squareTimes (n : Nat) {e : Enclosure} {x : ℝ} (h : e.Encloses x) (hx : 0 ≤ x) :
    (Enclosure.squareTimes n e).Encloses (x ^ 2 ^ n) := by
  induction n generalizing e x with
  | zero => simpa [Enclosure.squareTimes] using h
  | succ n ih =>
    have hpow : x ^ 2 ^ (n + 1) = (x ^ 2) ^ 2 ^ n := by rw [← pow_mul, pow_succ']
    rw [hpow]
    exact ih (h.square hx) (sq_nonneg x)

/-- The first term of the series is 1. -/
theorem scale_le_expSmall_lo (a b : Nat) : scale ≤ (expSmall a b).lo := le_termsLo_sum a b 0 scale 59

/-- Below the cut the argument of the series is at most 1: it is halved often enough. -/
theorem le_mul_halvings {a b : Nat} (h : ¬ 256 * b ≤ a) : a ≤ b * 2 ^ halvings := by
  simp only [halvings]
  omega

/-- `e > 2`, so past the cut the weight is below `2^-256`. -/
theorem exp_neg_mul_scale_le_one {x : ℝ} (hx : 256 ≤ x) : Real.exp (-x) * scale ≤ 1 := by
  have hscale : (scale : ℝ) ≤ Real.exp 1 ^ 256 := by
    have htwo : (2 : ℝ) ≤ Real.exp 1 := by linarith [Real.add_one_le_exp (1 : ℝ)]
    simp only [scale, Nat.cast_pow, Nat.cast_ofNat]
    gcongr
  have hexp : Real.exp 1 ^ 256 ≤ Real.exp x := by
    rw [← Real.exp_nat_mul]
    exact Real.exp_le_exp.mpr (by simpa using hx)
  rw [Real.exp_neg, inv_mul_le_one₀ (Real.exp_pos x)]
  exact hscale.trans hexp

/-- The model's exponential encloses the real one. -/
theorem expNeg_encloses (a : Nat) {b : Nat} (hb : 0 < b) : (expNeg a b).Encloses (Real.exp (-(a / b))) := by
  have hb' : (0 : ℝ) < b := Nat.cast_pos.mpr hb
  rw [expNeg]
  split_ifs with hcut
  · have hx : (256 : ℝ) ≤ a / b := by
      rw [le_div_iff₀ hb']
      exact_mod_cast hcut
    exact ⟨by simpa using mul_nonneg (Real.exp_nonneg _) cast_scale_pos.le, by simpa using exp_neg_mul_scale_le_one hx⟩
  · have hsmall := expSmall_encloses (Nat.mul_pos hb (Nat.two_pow_pos halvings)) (le_mul_halvings hcut)
    have hpow := (hsmall.inv (scale_pos.trans_le (scale_le_expSmall_lo _ _))).squareTimes halvings
      (inv_nonneg.mpr (Real.exp_nonneg _))
    have hexp : Real.exp (-(a / b)) = (Real.exp (a / (b * 2 ^ halvings : Nat)))⁻¹ ^ 2 ^ halvings := by
      rw [← Real.exp_neg, ← Real.exp_nat_mul]
      congr 1
      push_cast
      field_simp
    rwa [hexp]

/-! ### Upper ends at most 1 -/

theorem Enclosure.inv_hi_le {e : Enclosure} (h : scale ≤ e.lo) : e.inv.hi ≤ scale :=
  (ceilDiv_le_iff (scale_pos.trans_le h)).mpr (Nat.mul_le_mul_right scale h)

theorem Enclosure.squareTimes_hi_le (n : Nat) {e : Enclosure} (h : e.hi ≤ scale) :
    (Enclosure.squareTimes n e).hi ≤ scale := by
  induction n generalizing e with
  | zero => exact h
  | succ n ih => exact ih ((ceilDiv_le_iff scale_pos).mpr (Nat.mul_le_mul h h))

theorem expNeg_hi_le (a b : Nat) : (expNeg a b).hi ≤ scale := by
  rw [expNeg]
  split_ifs
  · exact scale_pos
  · exact Enclosure.squareTimes_hi_le _ (Enclosure.inv_hi_le (scale_le_expSmall_lo _ _))

/-! ### Lower ends fall with the argument -/

theorem expSmall_hi_mono {a a' : Nat} (b : Nat) (h : a ≤ a') : (expSmall a b).hi ≤ (expSmall a' b).hi :=
  have hterms := termsHi_mono b h expTerms 0 le_rfl
  Nat.add_le_add hterms.sum_le_sum (Nat.mul_le_mul_left 2 (getLastD_mono hterms le_rfl))

theorem Enclosure.squareTimes_lo_mono (n : Nat) {e e' : Enclosure} (h : e.lo ≤ e'.lo) :
    (Enclosure.squareTimes n e).lo ≤ (Enclosure.squareTimes n e').lo := by
  induction n generalizing e e' with
  | zero => exact h
  | succ n ih => exact ih (Nat.div_le_div_right (Nat.mul_le_mul h h))

theorem expSmall_hi_pos {a b : Nat} (hb : 0 < b) (hab : a ≤ b) : 0 < (expSmall a b).hi :=
  scale_pos.trans_le ((scale_le_expSmall_lo a b).trans (expSmall_encloses hb hab).lo_le_hi)

theorem expNeg_lo_antitone {a a' b : Nat} (hb : 0 < b) (h : a ≤ a') : (expNeg a' b).lo ≤ (expNeg a b).lo := by
  rw [expNeg, expNeg]
  split_ifs with hcut' hcut
  · exact le_rfl
  · exact Nat.zero_le _
  · omega
  · have hhi := expSmall_hi_mono (b * 2 ^ halvings) h
    have hpos := expSmall_hi_pos (Nat.mul_pos hb (Nat.two_pow_pos halvings)) (le_mul_halvings ‹¬ 256 * b ≤ a›)
    exact Enclosure.squareTimes_lo_mono _ (Nat.div_le_div_left hhi hpos)

/-! ### The weight 1 of the centre tap is exact -/

theorem expSmall_zero_hi (b : Nat) : (expSmall 0 b).hi = scale := by
  have hterms : termsHi 0 b 0 scale expTerms = scale :: List.replicate 59 0 := termsHi_zero b 0 scale 59
  have hlast : (scale :: List.replicate 59 0).getLastD 0 = 0 := rfl
  show (termsHi 0 b 0 scale expTerms).sum + 2 * (termsHi 0 b 0 scale expTerms).getLastD 0 = scale
  rw [hterms, hlast, List.sum_cons, List.sum_replicate, smul_zero, Nat.mul_zero, Nat.add_zero, Nat.add_zero]

theorem Enclosure.squareTimes_lo_of_eq_scale (n : Nat) {e : Enclosure} (h : e.lo = scale) :
    (Enclosure.squareTimes n e).lo = scale := by
  induction n generalizing e with
  | zero => exact h
  | succ n ih =>
    refine ih ?_
    show e.lo * e.lo / scale = scale
    rw [h, Nat.mul_div_cancel _ scale_pos]

theorem expNeg_zero_lo {b : Nat} (hb : 0 < b) : (expNeg 0 b).lo = scale := by
  rw [expNeg, if_neg (by omega)]
  refine Enclosure.squareTimes_lo_of_eq_scale _ ?_
  show scale * scale / (expSmall 0 _).hi = scale
  rw [expSmall_zero_hi, Nat.mul_div_cancel _ scale_pos]

/-! ### The weights of the taps -/

/-- `g[k]` at distance `dist` is enclosed: its exponent is `dist^2 * 2^31 / W9^2` (R216). -/
theorem tapWeight_encloses {sigma : Nat} (hsigma : 0 < sigma) (dist : Nat) :
    (tapWeight sigma dist).Encloses (Real.exp (-(dist : ℝ) ^ 2 / (2 * ((sigma : ℝ) / 65536) ^ 2))) := by
  have hexp : -(dist : ℝ) ^ 2 / (2 * ((sigma : ℝ) / 65536) ^ 2) =
      -((dist * dist * 2 ^ 31 : Nat) / (sigma * sigma : Nat)) := by
    have hsigma' : (sigma : ℝ) ≠ 0 := Nat.cast_ne_zero.mpr hsigma.ne'
    push_cast
    field_simp
    ring
  rw [hexp]
  exact expNeg_encloses _ (Nat.mul_pos hsigma hsigma)

theorem tapWeight_hi_le (sigma dist : Nat) : (tapWeight sigma dist).hi ≤ scale := expNeg_hi_le _ _

theorem tapWeight_lo_le_hi {sigma : Nat} (hsigma : 0 < sigma) (dist : Nat) :
    (tapWeight sigma dist).lo ≤ (tapWeight sigma dist).hi := (tapWeight_encloses hsigma dist).lo_le_hi

/-- A tap farther from the centre has no larger weight. -/
theorem tapWeight_lo_antitone {sigma d d' : Nat} (hsigma : 0 < sigma) (h : d ≤ d') :
    (tapWeight sigma d').lo ≤ (tapWeight sigma d).lo :=
  expNeg_lo_antitone (Nat.mul_pos hsigma hsigma) (Nat.mul_le_mul_right _ (Nat.mul_le_mul h h))

/-- The centre tap's weight is 1. -/
theorem tapWeight_zero_lo {sigma : Nat} (hsigma : 0 < sigma) : (tapWeight sigma 0).lo = scale := by
  rw [tapWeight, Nat.zero_mul]
  exact expNeg_zero_lo (Nat.mul_pos hsigma hsigma)

end Sys2Proof.Machine
end

