-- ==== Sys2Proof/Proofs/GaussianKernel.lean ====
section
/-! SUPPORT. The kernel `GKE_COEF(K, W9)`: its contract (spec 43_gauss.md R218) from the weights' symmetry, their fall and the
bounds of the residual, and that it is the quantised Gaussian wherever the enclosures decide the rounding (R216, R217). -/

namespace Sys2Proof.Machine

/-! ### The taps -/

theorem two_mul_centreTap {k : Nat} (hk : k % 2 = 1) : 2 * centreTap k + 1 = k := by
  delta centreTap
  omega

/-- The weight of tap `j` (R216). -/
def weightAt (k sigma j : Nat) : Enclosure := tapWeight sigma (tapDistance k j)

/-- Every tap's distance has its weight in the table (R216). -/
theorem tapWeights_eq {k : Nat} (hk : k % 2 = 1) (sigma : Nat) :
    tapWeights k sigma = (List.range k).map (weightAt k sigma) := by
  refine List.map_congr_left fun j hj => getD_map_range _ ?_ _
  have hj := List.mem_range.mp hj
  have hc := two_mul_centreTap hk
  delta tapDistance
  omega

theorem map_tapWeights {k : Nat} (hk : k % 2 = 1) (sigma : Nat) (f : Enclosure → Nat) :
    (tapWeights k sigma).map f = (List.range k).map fun j => f (weightAt k sigma j) := by
  rw [tapWeights_eq hk, List.map_map]
  rfl

/-- `q0[j]`, the rounded coefficient of tap `j` (R217). -/
def roundedTap (k sigma j : Nat) : Nat := roundedShare (weightAt k sigma j).lo (weightSum (tapWeights k sigma)).hi

theorem roundedTaps_tapWeights {k : Nat} (hk : k % 2 = 1) (sigma : Nat) :
    roundedTaps (tapWeights k sigma) = (List.range k).map (roundedTap k sigma) := map_tapWeights hk sigma _

theorem weightSum_lo {k : Nat} (hk : k % 2 = 1) (sigma : Nat) :
    (weightSum (tapWeights k sigma)).lo = ∑ j ∈ Finset.range k, (weightAt k sigma j).lo :=
  congrArg List.sum (map_tapWeights hk sigma _)

theorem weightSum_hi {k : Nat} (hk : k % 2 = 1) (sigma : Nat) :
    (weightSum (tapWeights k sigma)).hi = ∑ j ∈ Finset.range k, (weightAt k sigma j).hi :=
  congrArg List.sum (map_tapWeights hk sigma _)

theorem weightAt_centre_lo (k : Nat) {sigma : Nat} (hsigma : 0 < sigma) : (weightAt k sigma (centreTap k)).lo = scale := by
  have hdist : tapDistance k (centreTap k) = 0 := by
    delta tapDistance
    omega
  rw [weightAt, hdist, tapWeight_zero_lo hsigma]

/-- The centre tap alone contributes 1 to `G`. -/
theorem scale_le_weightSum_lo {k sigma : Nat} (hk : k % 2 = 1) (hsigma : 0 < sigma) :
    scale ≤ (weightSum (tapWeights k sigma)).lo := by
  have hc := two_mul_centreTap hk
  rw [weightSum_lo hk, ← weightAt_centre_lo k hsigma]
  exact Finset.single_le_sum (f := fun j => (weightAt k sigma j).lo) (fun _ _ => Nat.zero_le _)
    (Finset.mem_range.mpr (by omega))

theorem weightSum_lo_le_hi {k sigma : Nat} (hk : k % 2 = 1) (hsigma : 0 < sigma) :
    (weightSum (tapWeights k sigma)).lo ≤ (weightSum (tapWeights k sigma)).hi := by
  rw [weightSum_lo hk, weightSum_hi hk]
  exact Finset.sum_le_sum fun j _ => tapWeight_lo_le_hi hsigma _

/-- No weight exceeds 1, so `G` is at most `K`. -/
theorem weightSum_hi_le {k : Nat} (hk : k % 2 = 1) (sigma : Nat) : (weightSum (tapWeights k sigma)).hi ≤ k * scale := by
  rw [weightSum_hi hk]
  simpa using Finset.sum_le_card_nsmul (Finset.range k) (fun j => (weightAt k sigma j).hi) scale fun j _ =>
    tapWeight_hi_le sigma (tapDistance k j)

theorem weightSum_hi_pos {k sigma : Nat} (hk : k % 2 = 1) (hsigma : 0 < sigma) :
    0 < (weightSum (tapWeights k sigma)).hi :=
  scale_pos.trans_le ((scale_le_weightSum_lo hk hsigma).trans (weightSum_lo_le_hi hk hsigma))

/-! ### The rounded coefficients -/

theorem roundedShare_mono {num num' : Nat} (den : Nat) (h : num ≤ num') : roundedShare num den ≤ roundedShare num' den :=
  Nat.div_le_div_right (Nat.add_le_add_right (Nat.mul_le_mul_left _ h) _)

theorem two_mul_roundedShare_le (num den : Nat) : 2 * den * roundedShare num den ≤ 2 * 65536 * num + den :=
  Nat.mul_div_le _ _

/-- A tap farther from the centre has no larger coefficient (R218 e). -/
theorem roundedTap_antitone {k sigma j j' : Nat} (hsigma : 0 < sigma) (h : tapDistance k j ≤ tapDistance k j') :
    roundedTap k sigma j' ≤ roundedTap k sigma j :=
  roundedShare_mono _ (tapWeight_lo_antitone hsigma h)

/-- Taps at the same distance from the centre have the same coefficient (R218 c). -/
theorem roundedTap_congr {k j j' : Nat} (sigma : Nat) (h : tapDistance k j = tapDistance k j') :
    roundedTap k sigma j = roundedTap k sigma j' := by
  rw [roundedTap, roundedTap, weightAt, weightAt, h]

/-- The rounding errors, each at most 1/2, add up to at most `c` (R218 d). -/
theorem sum_roundedTap_le {k sigma : Nat} (h : LegalKernel k sigma) :
    ∑ j ∈ Finset.range k, roundedTap k sigma j ≤ 65536 + centreTap k := by
  obtain ⟨hk, -, hsigma⟩ := h
  have hc := two_mul_centreTap hk
  have hG := weightSum_lo_le_hi hk hsigma
  have hpos := weightSum_hi_pos hk hsigma
  rw [weightSum_lo hk] at hG
  set G := (weightSum (tapWeights k sigma)).hi with hGdef
  have hsum : G * (2 * ∑ j ∈ Finset.range k, roundedTap k sigma j) ≤ G * (2 * 65536 + k) := calc
    G * (2 * ∑ j ∈ Finset.range k, roundedTap k sigma j)
      = ∑ j ∈ Finset.range k, 2 * G * roundedTap k sigma j := by rw [← Finset.mul_sum]; ring
    _ ≤ ∑ j ∈ Finset.range k, (2 * 65536 * (weightAt k sigma j).lo + G) :=
        Finset.sum_le_sum fun j _ => two_mul_roundedShare_le _ _
    _ = 2 * 65536 * (∑ j ∈ Finset.range k, (weightAt k sigma j).lo) + k * G := by
        rw [Finset.sum_add_distrib, ← Finset.mul_sum, Finset.sum_const, Finset.card_range, smul_eq_mul]
    _ ≤ 2 * 65536 * G + k * G := by gcongr
    _ = G * (2 * 65536 + k) := by ring
  have := Nat.le_of_mul_le_mul_left hsum hpos
  omega

/-- The centre tap has at least the mean share (R218 d). -/
theorem le_roundedTap_centre {k sigma : Nat} (h : LegalKernel k sigma) : 257 ≤ roundedTap k sigma (centreTap k) := by
  obtain ⟨hk, hk255, hsigma⟩ := h
  have hG : (weightSum (tapWeights k sigma)).hi ≤ 255 * scale :=
    (weightSum_hi_le hk sigma).trans (Nat.mul_le_mul_right _ hk255)
  have hpos := weightSum_hi_pos hk hsigma
  rw [roundedTap, roundedShare, weightAt_centre_lo k hsigma, Nat.le_div_iff_mul_le (by omega)]
  simp only [Config.one]
  omega

/-! ### The residual -/

/-- The rounded coefficients exceed 65536 by no more than the centre one, so the residual leaves it a natural number. -/
def ResidualFits (q0 : List Nat) : Prop :=
  centreTap q0.length < q0.length ∧ q0.sum ≤ q0.getD (centreTap q0.length) 0 + 65536

@[simp] theorem withResidual_length (q0 : List Nat) : (withResidual q0).length = q0.length := List.length_modify ..

theorem withResidual_getD_of_ne {q0 : List Nat} {j : Nat} (h : j ≠ centreTap q0.length) :
    (withResidual q0).getD j 0 = q0.getD j 0 := by
  rw [List.getD_eq_getElem?_getD, List.getD_eq_getElem?_getD, withResidual, List.getElem?_modify_ne _ _ h.symm]

theorem withResidual_getD_centre {q0 : List Nat} (h : ResidualFits q0) :
    ((withResidual q0).getD (centreTap q0.length) 0 : ℤ) = q0.getD (centreTap q0.length) 0 + (65536 - (q0.sum : ℤ)) := by
  obtain ⟨hlt, hsum⟩ := h
  have hlt' : centreTap q0.length < (withResidual q0).length := by rwa [withResidual_length]
  rw [List.getD_eq_getElem q0 0 hlt] at hsum ⊢
  rw [List.getD_eq_getElem _ 0 hlt']
  simp only [withResidual, List.getElem_modify_eq, Config.one]
  omega

/-- An entry and the others make up the sum. -/
theorem sum_eq_getD_add {l : List Nat} {c : Nat} (hc : c < l.length) :
    l.sum = l.getD c 0 + ∑ j ∈ (Finset.range l.length).erase c, l.getD j 0 := by
  rw [← sum_getD, Finset.add_sum_erase _ (fun j => l.getD j 0) (Finset.mem_range.mpr hc)]

/-- The residual completes the sum to 65536 (R217). -/
theorem withResidual_sum {q0 : List Nat} (h : ResidualFits q0) : (withResidual q0).sum = 65536 := by
  have hcentre := withResidual_getD_centre h
  obtain ⟨hlt, -⟩ := h
  have hothers : ∑ j ∈ (Finset.range q0.length).erase (centreTap q0.length), (withResidual q0).getD j 0 =
      ∑ j ∈ (Finset.range q0.length).erase (centreTap q0.length), q0.getD j 0 :=
    Finset.sum_congr rfl fun j hj => withResidual_getD_of_ne (Finset.ne_of_mem_erase hj)
  have hsum := sum_eq_getD_add hlt
  have hsum' := sum_eq_getD_add (l := withResidual q0) (c := centreTap q0.length) (by rwa [withResidual_length])
  rw [withResidual_length, hothers] at hsum'
  omega

/-! ### The entries of the kernel -/

theorem gkeCoef_eq {k : Nat} (hk : k % 2 = 1) (sigma : Nat) :
    gkeCoef k sigma = withResidual ((List.range k).map (roundedTap k sigma)) := by
  rw [gkeCoef, roundedTaps_tapWeights hk]

theorem gkeCoef_length {k : Nat} (hk : k % 2 = 1) (sigma : Nat) : (gkeCoef k sigma).length = k := by
  simp [gkeCoef_eq hk]

theorem gkeCoef_getD_of_ne {k j : Nat} (hk : k % 2 = 1) (sigma : Nat) (hj : j < k) (hne : j ≠ centreTap k) :
    (gkeCoef k sigma).getD j 0 = roundedTap k sigma j := by
  rw [gkeCoef_eq hk, withResidual_getD_of_ne (by simpa using hne), getD_map_range _ hj]

/-- The residual fits for every legal kernel (R218 d). -/
theorem residualFits_roundedTaps {k sigma : Nat} (h : LegalKernel k sigma) :
    ResidualFits ((List.range k).map (roundedTap k sigma)) := by
  have hsum := sum_roundedTap_le h
  have hcentre := le_roundedTap_centre h
  obtain ⟨hk, hk255, -⟩ := h
  have hc := two_mul_centreTap hk
  have hlt : centreTap k < k := by omega
  rw [ResidualFits, List.length_map, List.length_range, getD_map_range _ hlt, sum_map_range]
  omega

theorem gkeCoef_getD_centre {k sigma : Nat} (h : LegalKernel k sigma) :
    ((gkeCoef k sigma).getD (centreTap k) 0 : ℤ) =
      roundedTap k sigma (centreTap k) + (65536 - ∑ j ∈ Finset.range k, (roundedTap k sigma j : ℤ)) := by
  have hcentre := withResidual_getD_centre (residualFits_roundedTaps h)
  obtain ⟨hk, -, -⟩ := h
  have hc := two_mul_centreTap hk
  rwa [← gkeCoef_eq hk, List.length_map, List.length_range, getD_map_range _ (by omega), sum_map_range,
    Nat.cast_sum] at hcentre

/-! ### The contract: O44 -/

theorem gkeCoef_sum {k sigma : Nat} (h : LegalKernel k sigma) : (gkeCoef k sigma).sum = 65536 := by
  obtain ⟨hk, -, -⟩ := id h
  rw [gkeCoef_eq hk, withResidual_sum (residualFits_roundedTaps h)]

/-- Tap `K - 1 - j` is as far from the centre as tap `j`, and both are the centre or neither is (R218 c). -/
theorem gkeCoef_getD_mirror {k j : Nat} (hk : k % 2 = 1) (sigma : Nat) (hj : j < k) :
    (gkeCoef k sigma).getD (k - 1 - j) 0 = (gkeCoef k sigma).getD j 0 := by
  have hc := two_mul_centreTap hk
  by_cases hcentre : j = centreTap k
  · rw [show k - 1 - j = j by omega]
  · rw [gkeCoef_getD_of_ne hk sigma (by omega) (by omega), gkeCoef_getD_of_ne hk sigma hj hcentre]
    refine roundedTap_congr sigma ?_
    delta tapDistance
    omega

/-- The kernel is symmetric (R218 c). -/
theorem gkeCoef_reverse {k : Nat} (hk : k % 2 = 1) (sigma : Nat) : (gkeCoef k sigma).reverse = gkeCoef k sigma := by
  have hlength := gkeCoef_length hk sigma
  refine List.ext_getElem (List.length_reverse ..) fun j hj hj' => ?_
  have hmirror := gkeCoef_getD_mirror hk sigma (hlength ▸ hj')
  rw [List.getElem_reverse, ← List.getD_eq_getElem _ 0, ← List.getD_eq_getElem _ 0 hj']
  simpa only [hlength] using hmirror

/-- The mean share of the centre tap pays for the residual (R218 d). -/
theorem le_gkeCoef_centre {k sigma : Nat} (h : LegalKernel k sigma) : 130 ≤ (gkeCoef k sigma).getD (centreTap k) 0 := by
  have hcentre := gkeCoef_getD_centre h
  have hshare := le_roundedTap_centre h
  have hsum := sum_roundedTap_le h
  obtain ⟨hk, hk255, -⟩ := h
  have hc := two_mul_centreTap hk
  rw [← Nat.cast_sum] at hcentre
  omega

/-- Left of the centre the coefficients rise (R218 e). -/
theorem gkeCoef_rises {k sigma j : Nat} (hk : k % 2 = 1) (hsigma : 0 < sigma) (hj : j + 1 < centreTap k) :
    (gkeCoef k sigma).getD j 0 ≤ (gkeCoef k sigma).getD (j + 1) 0 := by
  have hc := two_mul_centreTap hk
  rw [gkeCoef_getD_of_ne hk sigma (by omega) (by omega), gkeCoef_getD_of_ne hk sigma (by omega) (by omega)]
  refine roundedTap_antitone hsigma ?_
  delta tapDistance
  omega

/-- Right of the centre the coefficients fall, and past the last tap there is none (R218 e). -/
theorem gkeCoef_falls {k sigma j : Nat} (hk : k % 2 = 1) (hsigma : 0 < sigma) (hj : centreTap k < j) :
    (gkeCoef k sigma).getD (j + 1) 0 ≤ (gkeCoef k sigma).getD j 0 := by
  by_cases hlast : j + 1 < k
  · rw [gkeCoef_getD_of_ne hk sigma hlast (by omega), gkeCoef_getD_of_ne hk sigma (by omega) (by omega)]
    refine roundedTap_antitone hsigma ?_
    delta tapDistance
    omega
  · rw [List.getD_eq_default _ 0 (by rw [gkeCoef_length hk]; omega)]
    exact Nat.zero_le _

/-- Settles O44: the clauses of R218 in order; the bound of an entry and the kernel of length 1 follow from the sum. -/
theorem kernelContract : Obligations.KernelContract := by
  intro k sigma h
  have hsum := gkeCoef_sum h
  obtain ⟨hk, -, hsigma⟩ := id h
  have hlength := gkeCoef_length hk sigma
  refine ⟨hlength, fun v hv => hsum ▸ List.le_sum_of_mem hv, hsum, gkeCoef_reverse hk sigma, le_gkeCoef_centre h,
    fun j hj => gkeCoef_rises hk hsigma hj, fun j hj => gkeCoef_falls hk hsigma hj, fun hone => ?_⟩
  obtain ⟨v, hv⟩ := List.length_eq_one_iff.mp (hlength.trans hone)
  rw [hv, List.sum_singleton] at hsum
  rw [hv, hsum]

/-! ### The quantised Gaussian: O45 -/

/-- `g[j]`, the Gaussian weight of tap `j` (R216). -/
noncomputable def gaussianWeight (k sigma j : Nat) : ℝ :=
  Real.exp (-((j : ℝ) - (centreTap k : ℝ)) ^ 2 / (2 * ((sigma : ℝ) / 65536) ^ 2))

/-- `G`, the sum of the Gaussian weights (R216). -/
noncomputable def gaussianSum (k sigma : Nat) : ℝ := ∑ j ∈ Finset.range k, gaussianWeight k sigma j

/-- `q0[j]`, the Gaussian weight's share in 65536ths, rounded (R217). -/
noncomputable def quantisedTap (k sigma j : Nat) : ℤ :=
  ⌊gaussianWeight k sigma j / gaussianSum k sigma * 65536 + 1 / 2⌋

theorem cast_tapDistance_sq (k j : Nat) : (tapDistance k j : ℝ) ^ 2 = ((j : ℝ) - (centreTap k : ℝ)) ^ 2 := by
  delta tapDistance
  rcases Nat.le_total j (centreTap k) with h | h <;> rw [Nat.sub_eq_zero_of_le h]
  · rw [Nat.zero_add, Nat.cast_sub h]
    ring
  · rw [Nat.add_zero, Nat.cast_sub h]

/-- The model's weight encloses the Gaussian weight of its tap. -/
theorem weightAt_encloses (k : Nat) {sigma : Nat} (hsigma : 0 < sigma) (j : Nat) :
    (weightAt k sigma j).Encloses (gaussianWeight k sigma j) := by
  have h := tapWeight_encloses hsigma (tapDistance k j)
  rwa [cast_tapDistance_sq] at h

theorem weightSum_encloses {k sigma : Nat} (hk : k % 2 = 1) (hsigma : 0 < sigma) :
    (weightSum (tapWeights k sigma)).Encloses (gaussianSum k sigma) := by
  constructor <;> rw [gaussianSum, Finset.sum_mul]
  · rw [weightSum_lo hk, Nat.cast_sum]
    exact Finset.sum_le_sum fun j _ => (weightAt_encloses k hsigma j).lo_le
  · rw [weightSum_hi hk, Nat.cast_sum]
    exact Finset.sum_le_sum fun j _ => (weightAt_encloses k hsigma j).le_hi

/-- The model's integer division is the rounding half up of R217. -/
theorem roundedShare_eq_floor (num : Nat) {den : Nat} (hden : 0 < den) :
    (roundedShare num den : ℤ) = ⌊(num : ℝ) / den * 65536 + 1 / 2⌋ := by
  have hden' : (den : ℝ) ≠ 0 := Nat.cast_ne_zero.mpr hden.ne'
  have hshare : (num : ℝ) / den * 65536 + 1 / 2 = ((2 * 65536 * num + den : Nat) : ℝ) / (2 * den : Nat) := by
    push_cast
    field_simp
    ring
  rw [hshare, ← Int.natCast_floor_eq_floor (by positivity), Nat.floor_div_eq_div]
  rfl

/-- A weight over a sum, both enclosed, lies between the quotients of the opposite ends. -/
theorem share_between {e total : Enclosure} {x y : ℝ} (he : e.Encloses x) (htotal : total.Encloses y) (hlo : 0 < total.lo) :
    (e.lo : ℝ) / total.hi ≤ x / y ∧ x / y ≤ (e.hi : ℝ) / total.lo := by
  have hlo' : (0 : ℝ) < total.lo := Nat.cast_pos.mpr hlo
  have hys : 0 < y * scale := hlo'.trans_le htotal.lo_le
  have hxs : 0 ≤ x * scale := e.lo.cast_nonneg.trans he.lo_le
  rw [← mul_div_mul_right x y cast_scale_pos.ne']
  exact ⟨div_le_div₀ hxs he.lo_le hys htotal.le_hi, div_le_div₀ e.hi.cast_nonneg he.le_hi hlo' htotal.lo_le⟩

theorem roundedTap_eq_of_kernelDecided {k sigma j : Nat} (hk : k % 2 = 1) (hdecided : kernelDecided k sigma = true)
    (hj : j < k) : roundedTap k sigma j = roundedShare (weightAt k sigma j).hi (weightSum (tapWeights k sigma)).lo := by
  have hmem : weightAt k sigma j ∈ tapWeights k sigma := by
    rw [tapWeights_eq hk]
    exact List.mem_map.mpr ⟨j, List.mem_range.mpr hj, rfl⟩
  exact eq_of_beq (List.all_eq_true.mp hdecided _ hmem)

/-- The exact share lies between the two roundings, which agree (log 9). -/
theorem roundedTap_eq_quantisedTap {k sigma j : Nat} (h : LegalKernel k sigma) (hdecided : kernelDecided k sigma = true)
    (hj : j < k) : (roundedTap k sigma j : ℤ) = quantisedTap k sigma j := by
  obtain ⟨hk, -, hsigma⟩ := h
  have hlo := scale_pos.trans_le (scale_le_weightSum_lo hk hsigma)
  obtain ⟨hbelow, habove⟩ := share_between (weightAt_encloses k hsigma j) (weightSum_encloses hk hsigma) hlo
  refine le_antisymm ?_ ?_
  · rw [roundedTap, roundedShare_eq_floor _ (weightSum_hi_pos hk hsigma)]
    exact Int.floor_le_floor (by linarith)
  · rw [roundedTap_eq_of_kernelDecided hk hdecided hj, roundedShare_eq_floor _ hlo]
    exact Int.floor_le_floor (by linarith)

/-- Settles O45: the entries of the kernel, with each rounded coefficient the exact one. -/
theorem kernelMatchesGaussian : Obligations.KernelMatchesGaussian := by
  intro k sigma h hdecided
  have hexact : ∀ j < k, (roundedTap k sigma j : ℤ) = quantisedTap k sigma j := fun j hj =>
    roundedTap_eq_quantisedTap h hdecided hj
  obtain ⟨hk, -, -⟩ := id h
  have hc := two_mul_centreTap hk
  refine ⟨gaussianWeight k sigma, quantisedTap k sigma, fun _ => rfl, fun _ => rfl, fun j hj hne => ?_, ?_⟩
  · rw [gkeCoef_getD_of_ne hk sigma hj hne, hexact j hj]
  · rw [gkeCoef_getD_centre h, hexact _ (by omega), Finset.sum_congr rfl fun j hj => hexact j (Finset.mem_range.mp hj)]

end Sys2Proof.Machine
end

