-- ==== Sys2Proof/Proofs/FirLine.lean ====
section
/-! SUPPORT. The laws of `FirLine_q` (spec 43_gauss.md R223) for a kernel of odd length, symmetric, that sums to 65536. -/

namespace Sys2Proof.Machine

/-! ### Range and uniform lines -/

@[simp] theorem firLine_length (q : List Nat) (maxValue : Nat) (x : List Nat) : (firLine q maxValue x).length = x.length := by
  simp [firLine]

theorem le_firSum {m : Nat} {x : List Nat} (hx : ∀ j, m ≤ clampedAt x j) (q : List Nat) (i : Nat) :
    q.sum * m ≤ firSum q x i := by
  rw [firSum_eq_sum, ← sum_getD, Finset.sum_mul]
  exact Finset.sum_le_sum fun k _ => Nat.mul_le_mul_left _ (hx _)

/-- The upper clamp is never active on an average of component values (R220). -/
theorem firRound_eq {maxValue sum : Nat} (h : sum ≤ 65536 * maxValue) : firRound maxValue sum = (sum + 32768) / 65536 :=
  Nat.min_eq_right (add_div_le h (by decide))

/-- A whole number of 65536ths is rounded to itself (R223 b). -/
theorem firRound_mul {maxValue v : Nat} (hv : v ≤ maxValue) : firRound maxValue (65536 * v) = v := by
  rw [firRound_eq (Nat.mul_le_mul_left _ hv)]
  omega

theorem firRound_mono (maxValue : Nat) {a b : Nat} (h : a ≤ b) : firRound maxValue a ≤ firRound maxValue b :=
  min_le_min_left _ (Nat.div_le_div_right (Nat.add_le_add_right h _))

/-- Every output lies between the bounds of the inputs (R223 a). -/
theorem firLine_between {q : List Nat} {maxValue lo hi : Nat} {x : List Nat} (hq : q.sum = 65536) (hM : hi ≤ maxValue)
    (hx : ∀ v ∈ x, lo ≤ v ∧ v ≤ hi) : ∀ v ∈ firLine q maxValue x, lo ≤ v ∧ v ≤ hi := by
  intro v hv
  obtain ⟨i, hrange, rfl⟩ := List.mem_map.mp hv
  have hpos : 0 < x.length := Nat.zero_lt_of_lt (List.mem_range.mp hrange)
  have hbetween (j : Int) := hx _ (clampedAt_mem hpos j)
  obtain ⟨hlo0, hhi0⟩ := hbetween 0
  have hlo := firRound_mono maxValue (le_firSum (fun j => (hbetween j).1) q i)
  have hhi := firRound_mono maxValue (firSum_le (fun w hw => (hx w hw).2) q i)
  rw [hq] at hlo hhi
  rw [firRound_mul hM] at hhi
  rw [firRound_mul ((hlo0.trans hhi0).trans hM)] at hlo
  exact ⟨hlo, hhi⟩

/-- A uniform line is reproduced (R223 b): its least and its greatest value are one. -/
theorem firLine_replicate {q : List Nat} {maxValue v : Nat} (hq : q.sum = 65536) (hv : v ≤ maxValue) (n : Nat) :
    firLine q maxValue (List.replicate n v) = List.replicate n v := by
  have hx : ∀ w ∈ List.replicate n v, v ≤ w ∧ w ≤ v := fun w hw => (List.eq_of_mem_replicate hw) ▸ ⟨le_rfl, le_rfl⟩
  refine List.eq_replicate_iff.mpr ⟨by simp, fun u hu => ?_⟩
  obtain ⟨hlo, hhi⟩ := firLine_between hq hv hx u hu
  exact Nat.le_antisymm hhi hlo

/-! ### The kernel of length 1 -/

theorem firSum_singleton (a : Nat) {x : List Nat} {i : Nat} (hi : i < x.length) : firSum [a] x i = a * x.getD i 0 := by
  have hcentre : centreTap [a].length = 0 := by simp [centreTap]
  rw [firSum_eq_sum, hcentre, List.length_singleton, Finset.sum_range_one]
  simp [clampedAt_natCast x hi]

/-- `K = 1` is the identity (R223 c). -/
theorem firLine_of_length_one {q : List Nat} {maxValue : Nat} {x : List Nat} (hq : q.sum = 65536) (hlength : q.length = 1)
    (hx : BoundedBy maxValue x) : firLine q maxValue x = x := by
  obtain ⟨a, rfl⟩ := List.length_eq_one_iff.mp hlength
  obtain rfl : a = 65536 := by simpa using hq
  refine Eq.trans (List.map_congr_left fun i hi => ?_) (map_range_getD x)
  have hi := List.mem_range.mp hi
  rw [firSum_singleton _ hi, firRound_mul]
  rw [List.getD_eq_getElem x 0 hi]
  exact hx _ (List.getElem_mem hi)

/-! ### Reversal -/

/-- Clamping commutes with reversing the line (R11). -/
theorem clampedAt_reverse {x : List Nat} (hx : 0 < x.length) (j : Int) :
    clampedAt x.reverse j = clampedAt x ((x.length : Int) - 1 - j) := by
  have hmirror : x.length - 1 - clamp j x.length = clamp ((x.length : Int) - 1 - j) x.length := by
    delta clamp
    split_ifs <;> omega
  have hlt : clamp j x.length < x.length := clamp_lt j hx
  delta clampedAt
  rw [List.length_reverse, List.getD_eq_getElem?_getD, List.getElem?_reverse hlt, hmirror, List.getD_eq_getElem?_getD]

/-- A symmetric kernel has the same coefficient at mirrored taps (R218 c). -/
theorem getD_mirror {q : List Nat} (hq : q.reverse = q) {k : Nat} (hk : k < q.length) :
    q.getD (q.length - 1 - k) 0 = q.getD k 0 := by
  rw [List.getD_eq_getElem?_getD, ← List.getElem?_reverse hk, hq, List.getD_eq_getElem?_getD]

/-- The window of the reversed line, read from its other end, is the window of the line (R223 e). -/
theorem firSum_reverse {q x : List Nat} (hodd : q.length % 2 = 1) (hq : q.reverse = q) {i : Nat} (hi : i < x.length) :
    firSum q x.reverse i = firSum q x (x.length - 1 - i) := by
  have hc := two_mul_centreTap hodd
  rw [firSum_eq_sum, firSum_eq_sum, ← Finset.sum_range_reflect]
  refine Finset.sum_congr rfl fun k hk => ?_
  have hk := Finset.mem_range.mp hk
  rw [getD_mirror hq hk, clampedAt_reverse (Nat.zero_lt_of_lt hi)]
  congr 2
  omega

/-- Reversing the line reverses the output (R223 e). -/
theorem firLine_reverse {q : List Nat} (hodd : q.length % 2 = 1) (hq : q.reverse = q) (maxValue : Nat) (x : List Nat) :
    firLine q maxValue x.reverse = (firLine q maxValue x).reverse := by
  refine List.ext_getElem (by simp) fun i hi _ => ?_
  have hi : i < x.length := by simpa using hi
  simp [firLine, firSum_reverse hodd hq hi]

/-! ### Impulses -/

/-- The sum sees an impulse once, with the coefficient of its offset, if it reaches it at all (R223 f). -/
theorem firSum_impulse {q : List Nat} {n p i : Nat} (v : Nat) (hodd : q.length % 2 = 1) (hlo : centreTap q.length ≤ p)
    (hhi : p + centreTap q.length + 1 ≤ n) (hi : i < n) :
    firSum q (impulse n p v) i =
      if i ≤ p + centreTap q.length ∧ p ≤ i + centreTap q.length then q.getD (centreTap q.length + p - i) 0 * v else 0 := by
  have hc := two_mul_centreTap hodd
  have hterm : ∀ k ∈ Finset.range q.length,
      q.getD k 0 * clampedAt (impulse n p v) ((i : Int) + k - centreTap q.length) =
        if k + i = centreTap q.length + p then q.getD (centreTap q.length + p - i) 0 * v else 0 := by
    intro k hk
    have hk := Finset.mem_range.mp hk
    rw [clampedAt_impulse hlo hhi hi (by omega) (by omega)]
    by_cases hat : k + i = centreTap q.length + p
    · rw [if_pos (by omega), if_pos hat, ← hat, Nat.add_sub_cancel]
    · rw [if_neg (by omega), if_neg hat, Nat.mul_zero]
  rw [firSum_eq_sum, Finset.sum_congr rfl hterm]
  split_ifs with hreach
  · rw [Finset.sum_eq_single_of_mem (centreTap q.length + p - i) (Finset.mem_range.mpr (by omega))]
    · exact if_pos (by omega)
    · exact fun k _ hk => if_neg (by omega)
  · refine Finset.sum_eq_zero fun k hk => if_neg ?_
    have := Finset.mem_range.mp hk
    omega

/-- The impulse response of `FirLine_q` (R223 f). -/
theorem firLine_impulse_getD {q : List Nat} {maxValue n p v i : Nat} (hodd : q.length % 2 = 1) (hq : q.sum = 65536)
    (hv : v ≤ maxValue) (hlo : centreTap q.length ≤ p) (hhi : p + centreTap q.length + 1 ≤ n) (hi : i < n) :
    (firLine q maxValue (impulse n p v)).getD i 0 =
      if i ≤ p + centreTap q.length ∧ p ≤ i + centreTap q.length then
        (q.getD (centreTap q.length + p - i) 0 * v + 32768) / 65536
      else 0 := by
  have hround (k : Nat) : firRound maxValue (q.getD k 0 * v) = (q.getD k 0 * v + 32768) / 65536 :=
    firRound_eq (Nat.mul_le_mul (hq ▸ getD_le_sum q k) hv)
  have hzero : firRound maxValue 0 = 0 := firRound_mul (Nat.zero_le _)
  delta firLine
  rw [impulse_length, getD_map_range _ hi, firSum_impulse v hodd hlo hhi hi, apply_ite (firRound maxValue), hround, hzero]

/-! ### The laws of `FirLine_q`: O43 -/

/-- Settles O43: one law after the other. -/
theorem firLineLaws : Obligations.FirLineLaws := by
  intro q hodd hq hsymm M
  exact ⟨fun _ _ _ hM hx => firLine_between hq hM hx, fun n v hv => firLine_replicate hq hv n,
    fun _ hlength hx => firLine_of_length_one hq hlength hx, fun v hv => firLine_replicate hq hv 1,
    firLine_reverse hodd hsymm M, fun _ _ _ _ hv hlo hhi hi => firLine_impulse_getD hodd hq hv hlo hhi hi⟩

end Sys2Proof.Machine
end

