-- ==== Sys2Proof/Proofs/Median.lean ====
section
/-! SUPPORT. The rules of spec 44_median.md: the element of rank `(N + 1) div 2` by its counts from below and from above (R241),
the laws of the median (R247), and the bounds of the counters and of the scans' running totals (R248). -/

namespace Sys2Proof.Machine

/-! ### The histogram mechanism: O46 -/

/-- Settles O46: every table of the row counts its window, so the scans of R245 and R246 end at the element of the median's
rank (`medianRow_out`). -/
theorem histogramFindsMedian : Obligations.HistogramFindsMedian :=
  fun cw g r y n hg => medianRow_out cw g hg r y n

/-! ### The element of a rank, by counts: O47 -/

theorem countBelow_mono (xs : List Nat) {u v : Nat} (h : u ≤ v) : countBelow xs u ≤ countBelow xs v :=
  List.countP_mono_left fun _ _ hx => decide_eq_true ((of_decide_eq_true hx).trans_le h)

theorem countBelow_le_length (xs : List Nat) (v : Nat) : countBelow xs v ≤ xs.length := List.countP_le_length

theorem countP_le_eq_countBelow (xs : List Nat) (v : Nat) : (xs.countP fun x => decide (x ≤ v)) = countBelow xs (v + 1) :=
  List.countP_congr fun x _ => by simp

/-- The samples below `v` and those at least `v` are all of them. -/
theorem countBelow_add_countP_ge (xs : List Nat) (v : Nat) :
    countBelow xs v + (xs.countP fun x => decide (v ≤ x)) = xs.length := by
  have hge : (xs.countP fun x => decide (v ≤ x)) = xs.countP fun x => ¬ decide (x < v) = true :=
    List.countP_congr fun x _ => by simp
  rw [hge]
  exact (List.length_eq_countP_add_countP _).symm

theorem elementOfRank_eq_getElem {xs : List Nat} {rank : Nat} (h : rank - 1 < (xs.insertionSort (· ≤ ·)).length) :
    elementOfRank rank xs = (xs.insertionSort (· ≤ ·))[rank - 1] :=
  List.getD_eq_getElem _ _ h

theorem rank_lt_length_sorted {xs : List Nat} {rank : Nat} (hpos : 0 < rank) (hlen : rank ≤ xs.length) :
    rank - 1 < (xs.insertionSort (· ≤ ·)).length := by
  rw [List.length_insertionSort]
  omega

theorem elementOfRank_mem {xs : List Nat} {rank : Nat} (hpos : 0 < rank) (hlen : rank ≤ xs.length) :
    elementOfRank rank xs ∈ xs := by
  rw [elementOfRank_eq_getElem (rank_lt_length_sorted hpos hlen)]
  exact (List.perm_insertionSort _ xs).mem_iff.mp (List.getElem_mem _)

/-- The converse of `elementOfRank_eq`: the element of a rank lies between the counts on both sides of it (R241). -/
theorem hasRank_elementOfRank {xs : List Nat} {rank : Nat} (hpos : 0 < rank) (hlen : rank ≤ xs.length) :
    HasRank xs rank (elementOfRank rank xs) := by
  have hi := rank_lt_length_sorted hpos hlen
  have hiff (u : Nat) : elementOfRank rank xs < u ↔ rank - 1 < countBelow xs u := by
    rw [elementOfRank_eq_getElem hi, sorted_getElem_lt_iff (List.pairwise_insertionSort _ xs) hi,
      countBelow_perm (List.perm_insertionSort _ xs)]
  have hbelow := hiff (elementOfRank rank xs)
  have habove := hiff (elementOfRank rank xs + 1)
  constructor <;> omega

/-- Settles O47: the counts below the element and not above it (`hasRank_elementOfRank`), and their complements, which are
the counts from above. The name `medianRank` is the model's, for the rank itself. -/
theorem medianRank_counts : Obligations.MedianRank := by
  intro w hodd n v
  have hn : n = w.length := rfl
  have hpos : 0 < (n + 1) / 2 := by omega
  have hlen : (n + 1) / 2 ≤ w.length := by omega
  obtain ⟨hbelow, habove⟩ : HasRank w ((n + 1) / 2) v := hasRank_elementOfRank hpos hlen
  refine ⟨elementOfRank_mem hpos hlen, ?_, fun u hu => ?_, ?_, fun u hu => ?_⟩
  · rwa [countP_le_eq_countBelow]
  · rw [countP_le_eq_countBelow]
    exact (countBelow_mono w hu).trans_lt hbelow
  · have := countBelow_add_countP_ge w v
    omega
  · have := countBelow_add_countP_ge w u
    have : countBelow w (v + 1) ≤ countBelow w u := countBelow_mono w hu
    omega

/-! ### The laws of the median: O48 -/

/-- A value that more than half of the samples equal has the middle rank (R247 d). -/
theorem hasRank_of_majority {xs : List Nat} {v : Nat} (h : xs.length / 2 < xs.count v) :
    HasRank xs ((xs.length + 1) / 2) v := by
  have hsucc := countBelow_succ xs v
  have hall := countBelow_le_length xs (v + 1)
  constructor <;> omega

/-- The positions a window reads, before clamping (R240). -/
def windowPositions (r y c : Nat) : List (Int × Int) :=
  (offsets r).flatMap fun dy => (offsets r).map fun dx => (y + dy, c + dx)

theorem windowSamples_eq_map (g : Int → Int → Nat) (r y c : Nat) :
    windowSamples g r y c = (windowPositions r y c).map fun p => g p.1 p.2 := by
  delta windowSamples windowPositions
  simp only [List.map_flatMap, List.map_map, Function.comp_def]

/-- Raising samples leaves no more of them below a value. -/
theorem countBelow_windowSamples_anti {g g' : Int → Int → Nat} (h : ∀ row col, g row col ≤ g' row col) (r y c v : Nat) :
    countBelow (windowSamples g' r y c) v ≤ countBelow (windowSamples g r y c) v := by
  rw [windowSamples_eq_map, windowSamples_eq_map]
  delta countBelow
  rw [List.countP_map, List.countP_map]
  exact List.countP_mono_left fun p _ hp => decide_eq_true ((h p.1 p.2).trans_lt (of_decide_eq_true hp))

theorem medianRank_eq (g : Int → Int → Nat) (r y c : Nat) : medianRank r = ((windowSamples g r y c).length + 1) / 2 := by
  rw [windowSamples_length]
  rfl

theorem medianAt_mem (g : Int → Int → Nat) (r y c : Nat) : medianAt g r y c ∈ windowSamples g r y c := by
  obtain ⟨hpos, hlen⟩ := medianRank_bounds g r y c
  exact elementOfRank_mem hpos hlen

theorem hasRank_medianAt (g : Int → Int → Nat) (r y c : Nat) :
    HasRank (windowSamples g r y c) (medianRank r) (medianAt g r y c) := by
  obtain ⟨hpos, hlen⟩ := medianRank_bounds g r y c
  exact hasRank_elementOfRank hpos hlen

/-- The majority law (R247 d). -/
theorem medianAt_of_majority {g : Int → Int → Nat} {r y c v : Nat}
    (h : (2 * r + 1) * (2 * r + 1) / 2 < (windowSamples g r y c).count v) : medianAt g r y c = v := by
  rw [← windowSamples_length g r y c] at h
  refine elementOfRank_eq ?_
  rw [medianRank_eq g r y c]
  exact hasRank_of_majority h

/-- Outlier rejection: where `N > 2`, all but one are a majority (R247 e). -/
theorem medianAt_of_one_outlier {g : Int → Int → Nat} {r y c v : Nat} (hr : 1 ≤ r)
    (h : (2 * r + 1) * (2 * r + 1) ≤ (windowSamples g r y c).count v + 1) : medianAt g r y c = v := by
  have hN : 3 * 3 ≤ (2 * r + 1) * (2 * r + 1) := Nat.mul_le_mul (by omega) (by omega)
  exact medianAt_of_majority (by omega)

/-- The median is monotone (R247 f): at a lower value the raised samples would reach the rank where the others do not. -/
theorem medianAt_mono {g g' : Int → Int → Nat} (h : ∀ row col, g row col ≤ g' row col) (r y c : Nat) :
    medianAt g r y c ≤ medianAt g' r y c := by
  obtain ⟨hbelow, -⟩ := hasRank_medianAt g r y c
  obtain ⟨-, habove⟩ := hasRank_medianAt g' r y c
  by_contra hlt
  have hraised := countBelow_windowSamples_anti h r y c (medianAt g' r y c + 1)
  have hlower := countBelow_mono (windowSamples g r y c) (Nat.lt_of_not_le hlt)
  rw [Nat.succ_eq_add_one] at hlower
  omega

/-- Settles O48: one law after the other. -/
theorem medianLaws : Obligations.MedianLaws := fun g r y c =>
  ⟨medianAt_mem g r y c, medianAt_zero g y c, fun _ hv => hv _ (medianAt_mem g r y c), fun _ => medianAt_of_majority,
    fun _ => medianAt_of_one_outlier, fun _ h => medianAt_mono h r y c⟩

/-! ### The counters' bounds: O50 -/

theorem length_countTable (xs : List Nat) : (countTable xs).length = 256 := by
  delta countTable
  rw [List.length_map, List.length_range]

theorem countTable_le_length {xs : List Nat} {n : Nat} (h : n ∈ countTable xs) : n ≤ xs.length := by
  obtain ⟨v, -, rfl⟩ := List.mem_map.mp h
  exact List.count_le_length

/-- The counters of the first `n` values count the samples below `n`. -/
theorem sum_counts (xs : List Nat) (n : Nat) : ((List.range n).map fun v => xs.count v).sum = countBelow xs n := by
  induction n with
  | zero => exact (List.countP_eq_zero.mpr fun x _ => by simp).symm
  | succ n ih => simp [List.range_succ, ih, countBelow_succ]

/-- The total of a table whose samples all have a counter (R244). -/
theorem sum_countTable {xs : List Nat} (h : ∀ x ∈ xs, x < 256) : (countTable xs).sum = xs.length :=
  (sum_counts xs 256).trans (countBelow_eq_length h)

/-- The running total of a scan never exceeds where it began and the table's total (R248). -/
theorem rankScan_snd_le (rank : Nat) (table : List Nat) (t v : Nat) : (rankScan rank table t v).2 ≤ t + table.sum := by
  induction table generalizing t v with
  | nil => exact Nat.le_add_right t _
  | cons n table ih =>
    rw [rankScan_cons, List.sum_cons]
    split
    · exact (ih (t + n) (v + 1)).trans_eq (Nat.add_assoc t n _)
    · exact Nat.le_add_right t _

theorem bucketOf_lt {cw : CompWidth} {v : Nat} (h : v ≤ cw.maxValue) : bucketOf cw v < 256 := by
  cases cw with
  | u8 => exact Nat.lt_succ_of_le h
  | u16 => exact Nat.div_lt_of_lt_mul (Nat.lt_succ_of_le h)

theorem lowBytes_length_le (xs : List Nat) (b : Nat) : (lowBytes xs b).length ≤ xs.length := by
  delta lowBytes
  rw [List.length_map]
  exact List.length_filter_le _ xs

/-- The samples in the buckets below `b` and those in bucket `b` are among all samples (R246). -/
theorem countBelow_high_add_lowBytes_le (xs : List Nat) (b : Nat) :
    countBelow (xs.map (· / 256)) b + (lowBytes xs b).length ≤ xs.length := by
  rw [← countBelow_high_succ]
  exact (countBelow_le_length _ _).trans_eq (List.length_map _)

/-- The buckets of the window's samples, which the table of column `c` counts (R243, R246). -/
def windowBuckets (cw : CompWidth) (g : Int → Int → Nat) (r y c : Nat) : List Nat :=
  (windowSamples g r y c).map (bucketOf cw)

theorem windowBuckets_length (cw : CompWidth) (g : Int → Int → Nat) (r y c : Nat) :
    (windowBuckets cw g r y c).length = (2 * r + 1) * (2 * r + 1) :=
  (List.length_map _).trans (windowSamples_length g r y c)

theorem tablesFrom_tableAtStart (cw : CompWidth) (g : Int → Int → Nat) (r y n : Nat) :
    tablesFrom cw g r y 0 (tableAtStart cw g r y) n = (List.range n).map fun c => countTable (windowBuckets cw g r y c) := by
  have hstart : tableAtStart cw g r y = countTable ((windowSamples g r y 0).map (bucketOf cw)) := fillTable_eq _
  rw [hstart, tablesFrom_eq]
  simp only [Nat.zero_add, windowBuckets]

section
variable {cw : CompWidth} {g : Int → Int → Nat} (hg : ∀ row col, g row col ≤ cw.maxValue) (r y c : Nat)
include hg

theorem windowBuckets_lt {v : Nat} (hv : v ∈ windowBuckets cw g r y c) : v < 256 := by
  obtain ⟨x, hx, rfl⟩ := List.mem_map.mp hv
  exact bucketOf_lt (mem_windowSamples_le hg hx)

theorem sum_windowTable : (countTable (windowBuckets cw g r y c)).sum = (2 * r + 1) * (2 * r + 1) :=
  (sum_countTable fun _ => windowBuckets_lt hg r y c).trans (windowBuckets_length cw g r y c)

end

/-- The scan of a fine table starts at the count below its bucket, so its running total stays within the window (R246,
R248). -/
theorem fineScan_snd_le {g : Int → Int → Nat} (hg : ∀ row col, g row col ≤ CompWidth.u16.maxValue) (r y c : Nat) :
    let coarse := rankScan (medianRank r) (countTable (windowBuckets .u16 g r y c)) 0 0
    (rankScan (medianRank r) (fineTable (windowSamples g r y c) coarse.1) coarse.2 0).2 ≤ (2 * r + 1) * (2 * r + 1) := by
  obtain ⟨hpos, hlen⟩ := medianRank_bounds g r y c
  obtain ⟨b, -, hcoarse, -⟩ := rankScan_countTable (base := 0) (xs := windowBuckets .u16 g r y c) hpos
    (by rwa [windowBuckets_length, Nat.zero_add, ← windowSamples_length g r y c])
    fun _ => windowBuckets_lt hg r y c
  rw [Nat.zero_add] at hcoarse
  have hscan := rankScan_snd_le (medianRank r) (countTable (lowBytes (windowSamples g r y c) b))
    (countBelow (windowBuckets .u16 g r y c) b) 0
  rw [sum_countTable fun _ => lowBytes_lt] at hscan
  rw [hcoarse]
  dsimp only
  rw [fineTable_eq, ← windowSamples_length g r y c]
  exact hscan.trans (countBelow_high_add_lowBytes_le (windowSamples g r y c) b)

/-- The window of the largest radius has fewer than `2^34` samples (R248). -/
theorem windowArea_lt {r : Nat} (hr : r ≤ 65535) : (2 * r + 1) * (2 * r + 1) < 2 ^ 34 :=
  calc (2 * r + 1) * (2 * r + 1) ≤ 131071 * 131071 := Nat.mul_le_mul (by omega) (by omega)
    _ < 2 ^ 34 := by decide

/-- Settles O50: every table is the counts of at most the `N` samples of a window. -/
theorem counterBounds : Obligations.CounterBounds := by
  intro cw g r y c n hr hg
  refine ⟨windowArea_lt hr, fun t ht => ?_, ?_, fun b => ⟨?_, fun v hv => ?_⟩⟩
  · rw [tablesFrom_tableAtStart] at ht
    obtain ⟨col, -, rfl⟩ := List.mem_map.mp ht
    have hsum := sum_windowTable hg r y col
    refine ⟨length_countTable _, hsum, fun v hv => ?_, fun rank => ?_⟩
    · exact (countTable_le_length hv).trans_eq (windowBuckets_length cw g r y col)
    · exact (rankScan_snd_le rank _ 0 0).trans_eq ((Nat.zero_add _).trans hsum)
  · rintro rfl hc
    rw [tablesFrom_tableAtStart, getD_map_range _ hc]
    exact fineScan_snd_le hg r y c
  · rw [fineTable_eq, length_countTable]
  · rw [fineTable_eq] at hv
    calc v ≤ (lowBytes (windowSamples g r y c) b).length := countTable_le_length hv
      _ ≤ (windowSamples g r y c).length := lowBytes_length_le _ b
      _ = (2 * r + 1) * (2 * r + 1) := windowSamples_length g r y c

end Sys2Proof.Machine
end

