-- ==== Sys2Proof/Proofs/Exceptions.lean ====
section
/-! SUPPORT. The rules of spec 60_exceptions.md on faults and the interrupt line: what VALIDATE's checks find, in their order (R264
to R268), that fault entry is all a faulting command does (R260, R269), the return from it (R270), and `irq` (R273). -/

namespace Sys2Proof.Machine

/-! ### VALIDATE's checks, one by one -/

/-- The geometry checks report the number of the first that holds (R264). -/
theorem geometrySub_of_fails {b : Buffer} {memBytes n : Nat} (h : GeometryFails b memBytes n) :
    geometrySub b memBytes = some n := by
  delta geometrySub bufEnd
  match n, h with
  | 1, h => exact if_pos h
  | 2, ⟨hw, hh, h⟩ => rw [if_neg (by omega), if_pos h]
  | 3, ⟨hw, hh, hs, h⟩ => rw [if_neg (by omega), if_neg (by omega), if_pos h]
  | 4, ⟨hw, hh, hs, hl, h⟩ => rw [if_neg (by omega), if_neg (by omega), if_neg (by omega), if_pos h]
  | 5, ⟨hw, hh, hs, hl, heven, h⟩ =>
    have halign : ¬(b.cw = .u16 ∧ b.base % 2 = 1) := fun ⟨hcw, hodd⟩ => by
      have := heven hcw
      omega
    rw [if_neg (by omega), if_neg (by omega), if_neg (by omega), if_neg halign, if_pos h]

theorem checkSource_of_fails {b : Buffer} {memBytes n : Nat} (h : GeometryFails b memBytes n) :
    checkSource b memBytes = some ⟨.invalidGeometry, n⟩ := congrArg (Option.map _) (geometrySub_of_fails h)

theorem checkDest_of_fails {b : Buffer} {memBytes n : Nat} (h : GeometryFails b memBytes n) :
    checkDest b memBytes = some ⟨.invalidGeometry, n + 16⟩ := congrArg (Option.map _) (geometrySub_of_fails h)

/-- A legal buffer holds at least one pixel (R264). -/
theorem three_le_len {b : Buffer} {memBytes : Nat} (h : Fits b memBytes) : 3 ≤ b.len := by
  obtain ⟨hw, hh, hs, hl, -⟩ := h
  have hc : 3 ≤ b.channels.count := by cases b.channels <;> decide
  calc 3 ≤ b.channels.count := hc
    _ ≤ b.width * b.channels.count := Nat.le_mul_of_pos_left _ hw
    _ ≤ b.stride := hs
    _ ≤ b.stride * b.height := Nat.le_mul_of_pos_right _ hh
    _ ≤ b.len := hl

/-- Every in-bounds component of a legal buffer lies in memory: its last byte is a pixel's (R264). -/
theorem bufAddr_add_bytes_le {b : Buffer} {memBytes : Nat} (h : Fits b memBytes) {row col ch : Nat}
    (hb : InBounds b row col ch) : bufAddr b row col ch + b.cw.bytes ≤ memBytes := by
  have hbytes := bytes_pos b.cw
  have hlast : bufAddr b row col ch + (b.cw.bytes - 1) < memBytes :=
    pixelArea_lt h (Iff.mpr mem_pixelArea ⟨row, col, ch, b.cw.bytes - 1, hb, by omega, rfl⟩)
  omega

/-- Footprints that share a byte overlap (R267). -/
theorem checkOverlap_of_shared {src dst : Buffer} {a : Nat} (hsrc : inFootprint src a = true) (hdst : inFootprint dst a = true) :
    checkOverlap src dst = some ⟨.overlap, 0⟩ := by
  delta inFootprint at hsrc hdst
  simp only [Bool.and_eq_true, decide_eq_true_eq] at hsrc hdst
  exact if_pos (by omega)

/-- A legal buffer's footprint holds its first byte. -/
theorem inFootprint_base {b : Buffer} {memBytes : Nat} (h : Fits b memBytes) : inFootprint b b.base = true := by
  have hlen : 0 < b.len * b.cw.bytes := Nat.mul_pos (by have := three_le_len h; omega) (bytes_pos b.cw)
  delta inFootprint bufEnd
  simp only [Bool.and_eq_true, decide_eq_true_eq]
  omega

/-! ### VALIDATE's checks in their order -/

/-- VALIDATE's parameter check: GAUSS has one, the other commands have none (R265). -/
def checkParameter : Instr → Option Trap
  | .halt => none
  | .box _ _ _ => none
  | .tent _ _ _ => none
  | .gbox _ _ _ => none
  | .fgauss _ _ => none
  | .fgaussn _ _ => none
  | .gauss _ _ k sigma => checkKernel k sigma
  | .median _ _ _ => none

theorem checkParameter_eq_none {i : Instr} (h : ParameterOk i) : checkParameter i = none := by
  cases i with
  | gauss src dst k sigma => exact Iff.mpr checkKernel_eq_none h
  | _ => rfl

section
variable {src dst : Buffer} {i : Instr} (h : TwoBuffer src dst i)
include h

theorem TwoBuffer.ne_halt : i ≠ .halt := by
  rintro rfl
  obtain ⟨_, h⟩ | ⟨_, h⟩ | ⟨_, h⟩ | ⟨_, _, h⟩ | ⟨_, h⟩ := h <;> contradiction

/-- The checks of a two-buffer command: source, destination, parameters, sizes, overlap (R268). -/
theorem TwoBuffer.checkOf_eq (memBytes : Nat) :
    checkOf i memBytes = ((checkSource src memBytes).or (checkDest dst memBytes)).or
      ((checkParameter i).or ((checkSizes src dst).or (checkOverlap src dst))) := by
  obtain ⟨r, rfl⟩ | ⟨r, rfl⟩ | ⟨r, rfl⟩ | ⟨k, sigma, rfl⟩ | ⟨r, rfl⟩ := h <;> rfl

/-- Once the buffers pass their own checks, the rest decide. -/
theorem TwoBuffer.checkOf_of_fits {memBytes : Nat} (hsrc : Fits src memBytes) (hdst : Fits dst memBytes) :
    checkOf i memBytes = (checkParameter i).or ((checkSizes src dst).or (checkOverlap src dst)) := by
  rw [h.checkOf_eq, Iff.mpr checkSource_eq_none hsrc, Iff.mpr checkDest_eq_none hdst]
  rfl

/-- Once the parameters pass too, the checks on the pair decide. -/
theorem TwoBuffer.checkOf_of_parameterOk {memBytes : Nat} (hsrc : Fits src memBytes) (hdst : Fits dst memBytes)
    (hp : ParameterOk i) : checkOf i memBytes = (checkSizes src dst).or (checkOverlap src dst) := by
  rw [h.checkOf_of_fits hsrc hdst, checkParameter_eq_none hp]
  rfl

end

theorem InPlace.ne_halt {buf : Buffer} {i : Instr} (h : InPlace buf i) : i ≠ .halt := by
  rintro rfl
  obtain ⟨_, h⟩ | ⟨_, h⟩ := h <;> contradiction

/-- An in-place command's buffer is checked as a destination (R264). -/
theorem InPlace.checkOf_eq {buf : Buffer} {i : Instr} (h : InPlace buf i) (memBytes : Nat) :
    checkOf i memBytes = checkDest buf memBytes := by
  obtain ⟨r, rfl⟩ | ⟨r, rfl⟩ := h <;> rfl

/-! ### What a command does by its checks -/

/-- A command takes the fault its checks find and does nothing else (R260, R269). -/
theorem faults_of_check {i : Instr} (hi : i ≠ .halt) {s : State} {tr : Trap} (hc : checkOf i s.memBytes = some tr) :
    Faults i tr.cause.code tr.sub s := ⟨_, exec_traps hi s hc, takesFault_raiseTrap tr s⟩

/-- A command whose checks find nothing takes no fault (R271). -/
theorem exec_keeps_err {i : Instr} (hi : i ≠ .halt) {s : State} (hs : Ready s) (hc : checkOf i s.memBytes = none) :
    ∃ t, exec i s = .next t ∧ t.err = s.err ∧ t.runState = s.runState := by
  obtain ⟨hw, -, hpending⟩ := hs
  exact ⟨_, exec_completes hi s hw hpending hc, rfl, rfl⟩

/-! ### InvalidGeometry, InvalidParameter, SizeMismatch, Overlap: O17 to O20 -/

/-- Settles O17: the first check that finds something is the one `Option.or` keeps. -/
theorem geometryFaults : Obligations.GeometryFaults := by
  refine ⟨fun src dst i s n hi => ⟨fun h => ?source, fun hsrc h => ?destination⟩, fun buf i s n hi h => ?inPlace,
    fun s => ⟨_, rfl, rfl⟩, fun b memBytes h => ⟨three_le_len h, fun row col ch => bufAddr_add_bytes_le h⟩⟩
  case source =>
    refine faults_of_check (tr := ⟨.invalidGeometry, n⟩) hi.ne_halt ?_
    rw [hi.checkOf_eq, checkSource_of_fails h]
    rfl
  case destination =>
    refine faults_of_check (tr := ⟨.invalidGeometry, n + 16⟩) hi.ne_halt ?_
    rw [hi.checkOf_eq, Iff.mpr checkSource_eq_none hsrc, checkDest_of_fails h]
    rfl
  case inPlace =>
    exact faults_of_check (tr := ⟨.invalidGeometry, n + 16⟩) hi.ne_halt ((hi.checkOf_eq _).trans (checkDest_of_fails h))

/-- Settles O18: GAUSS's parameter check comes once its buffers pass, and the others have none. -/
theorem parameterFaults : Obligations.ParameterFaults := by
  refine ⟨fun src dst k sigma s hsrc hdst => ?gauss, fun src dst r s hs h i hi => ?twoBuffer, fun buf r s hs h i hi => ?inPlace⟩
  case gauss =>
    have hi : TwoBuffer src dst (.gauss src dst k sigma) := .inr (.inr (.inr (.inl ⟨k, sigma, rfl⟩)))
    have fault {n : Nat} (h : checkKernel k sigma = some ⟨.invalidParameter, n⟩) :
        Faults (.gauss src dst k sigma) 2 n s := by
      refine faults_of_check (tr := ⟨.invalidParameter, n⟩) hi.ne_halt ?_
      rw [hi.checkOf_of_fits hsrc hdst]
      exact congrArg (Option.or · _) h
    refine ⟨fun hk => fault (if_pos hk), fun hk hsigma => fault ?_, fun hk hsigma hmax => fault ?_⟩
    · exact (if_neg (by omega)).trans (if_pos hsigma)
    · exact (if_neg (by omega)).trans ((if_neg (by omega)).trans (if_pos hmax))
  case twoBuffer =>
    have hc := checkTwoBuffers_of_legalPair h
    have hne : i ≠ .halt := by
      rintro rfl
      simp at hi
    have hci : checkOf i s.memBytes = none := by
      simp only [List.mem_cons, List.not_mem_nil, or_false] at hi
      obtain rfl | rfl | rfl | rfl := hi <;> exact hc
    exact exec_keeps_err hne hs hci
  case inPlace =>
    have hi : InPlace buf i := by
      simp only [List.mem_cons, List.not_mem_nil, or_false] at hi
      obtain rfl | rfl := hi
      · exact .inl ⟨r, rfl⟩
      · exact .inr ⟨r, rfl⟩
    exact exec_keeps_err hi.ne_halt hs ((hi.checkOf_eq _).trans (Iff.mpr checkDest_eq_none h))

/-- Settles O19: with geometry and parameters passed, the size checks decide, and then the overlap check. -/
theorem sizeMismatchFaults : Obligations.SizeMismatchFaults := by
  intro src dst i s hi hp hsrc hdst
  have hcheck := hi.checkOf_of_parameterOk hsrc hdst hp
  have fault {n : Nat} (h : checkSizes src dst = some ⟨.sizeMismatch, n⟩) : Faults i 3 n s := by
    refine faults_of_check (tr := ⟨.sizeMismatch, n⟩) hi.ne_halt ?_
    rw [hcheck, h]
    rfl
  refine ⟨fun hw => fault (if_pos hw), fun hw hh => fault ?_, fun hw hh hch => fault ?_, fun hw hh hch hcw => fault ?_,
    fun hsize hapart hs => exec_keeps_err hi.ne_halt hs ?_⟩
  · exact (if_neg (not_not_intro hw)).trans (if_pos hh)
  · exact (if_neg (not_not_intro hw)).trans ((if_neg (not_not_intro hh)).trans (if_pos hch))
  · exact (if_neg (not_not_intro hw)).trans
      ((if_neg (not_not_intro hh)).trans ((if_neg (not_not_intro hch)).trans (if_pos hcw)))
  · rw [hcheck, Iff.mpr checkSizes_eq_none hsize, Iff.mpr checkOverlap_eq_none hapart]
    rfl

/-- Settles O20: with all other checks passed, a shared byte decides; one buffer shares its first byte with itself. -/
theorem overlapFaults : Obligations.OverlapFaults := by
  have hshared (src dst : Buffer) (i : Instr) (s : State) (a : Nat) (hi : TwoBuffer src dst i) (hp : ParameterOk i)
      (hsrc : Fits src s.memBytes) (hdst : Fits dst s.memBytes) (hsize : SameSize src dst)
      (ha : inFootprint src a = true) (ha' : inFootprint dst a = true) : Faults i 4 0 s := by
    refine faults_of_check (tr := ⟨.overlap, 0⟩) hi.ne_halt ?_
    rw [hi.checkOf_of_parameterOk hsrc hdst hp, Iff.mpr checkSizes_eq_none hsize, checkOverlap_of_shared ha ha']
    rfl
  refine ⟨hshared, fun b i s hi hp hb => ?_⟩
  exact hshared b b i s b.base hi hp hb hb ⟨rfl, rfl, rfl, rfl⟩ (inFootprint_base hb) (inFootprint_base hb)

/-! ### The fault a step takes -/

/-- The fault that FETCH, decoding and VALIDATE find at CP, if they find one (R262 to R268). -/
def State.foundTrap (s : State) : Option Trap :=
  if s.memBytes < s.cp.toNat + 40 then some ⟨.descriptorFault, 1⟩
  else
    match decode (s.mem.readDesc s.cp.toNat) with
    | .error e => some (illegalTrap e)
    | .ok i => checkOf i s.memBytes

section
variable {s : State} (hr : s.runState = .run)
include hr

/-- A step that finds a fault enters it and does nothing else but fill the latches, if FETCH came so far (R260, R269). -/
theorem step_of_foundTrap {tr : Trap} (h : s.foundTrap = some tr) : ∃ d, step s = .next { raiseTrap tr s with d := d } := by
  delta State.foundTrap at h
  rcases Nat.lt_or_ge s.memBytes (s.cp.toNat + 40) with hf | hf
  · rw [if_pos hf] at h
    cases h
    exact ⟨s.d, step_of_fetch_fault hr hf⟩
  rw [if_neg (Nat.not_lt_of_le hf)] at h
  cases hd : decode (s.mem.readDesc s.cp.toNat) with
  | error e =>
    rw [hd] at h
    cases h
    exact ⟨_, step_of_illegal hr hf hd⟩
  | ok i =>
    rw [hd] at h
    have hi : i ≠ .halt := by
      rintro rfl
      contradiction
    exact ⟨_, (step_of_command hr hf hd).trans (exec_traps hi (fetched s) h)⟩

/-- Only a step that finds a fault ends in FAULTED. -/
theorem foundTrap_of_faulted (hw : 0 < s.workers.length) (hm : s.mem.wf) {t : State} (h : step s = .next t)
    (ht : t.runState = .faulted) : ∃ tr, s.foundTrap = some tr := by
  delta State.foundTrap
  rcases Nat.lt_or_ge s.memBytes (s.cp.toNat + 40) with hf | hf
  · exact ⟨_, if_pos hf⟩
  rw [if_neg (Nat.not_lt_of_le hf)]
  cases hd : decode (s.mem.readDesc s.cp.toNat) with
  | error e => exact ⟨_, rfl⟩
  | ok i =>
    rw [step_of_command hr hf hd] at h
    by_cases hi : i = .halt
    · subst hi
      cases h
      contradiction
    · obtain ⟨tr, hc, -⟩ | ⟨-, rfl⟩ := exec_cases (s := fetched s) ⟨hw, hm, fetched_pending s⟩ hi h
      · exact ⟨tr, hc⟩
      · exact absurd (hr.symm.trans ht) (by decide)

end

/-! ### Precise faults and the return from them: O7, O8, O21 to O23 -/

/-- Settles O7: it is the step's case out of RUN. -/
theorem stoppedEngineIdles : Obligations.StoppedEngineIdles := fun _ => step_of_not_run

/-- Settles O8: with the descriptor outside memory the step is fault entry, in which memory has no part. -/
theorem fetchOutsideMemoryFaults : Obligations.FetchOutsideMemoryFaults := by
  refine ⟨fun s hr hf => ?_, fun s hf => ⟨_, fetch_ok hf⟩⟩
  refine ⟨_, step_of_fetch_fault hr hf, takesFault_raiseTrap ⟨.descriptorFault, 1⟩ s, rfl, fun m => ?_⟩
  exact step_of_fetch_fault (s := { s with mem := m }) hr hf

/-- Settles O21: of what a step from RUN can do (`step_runStep`), only fault entry ends in FAULTED. -/
theorem faultsArePrecise : Obligations.FaultsArePrecise := by
  intro s t ⟨hw, _, _⟩ hr h ht
  obtain ⟨tr, d, hsub, -, rfl⟩ | ⟨d, -, rfl⟩ | ⟨i, d, -, rfl⟩ := step_runStep hw hr h
  · obtain ⟨-, -, hfault, hhalt, -⟩ := takesFault_raiseTrap tr s
    exact ⟨rfl, rfl, errWord_ne_zero hsub, hfault, hhalt, rfl, rfl, rfl, rfl, rfl⟩
  · contradiction
  · exact absurd (hr.symm.trans ht) (by decide)

/-- A START the port accepts (spec 10_state.md R27). -/
theorem regWrite_start {s : State} (hrst : s.rst = false) (hr : s.runState ≠ .run) :
    regWrite 0x04 4 1#32 s = acceptStart s := (regWrite_ctrl hrst 1#32).trans (writeCtrl_start rfl hr)

/-- Settles O22: what a step finds depends on memory, `MEM_BYTES` and CP only, which fault entry and START keep. -/
theorem restartRepeatsFault : Obligations.RestartRepeatsFault := by
  intro s t ⟨hw, hm, _⟩ hr hrst h ht
  obtain ⟨tr, hfound⟩ := foundTrap_of_faulted hr hw hm h ht
  obtain ⟨d, hstep⟩ := step_of_foundTrap hr hfound
  obtain ⟨⟩ := h.symm.trans hstep
  have hstopped : RunState.faulted ≠ .run := by decide
  rw [regWrite_start (s := { raiseTrap tr s with d := d }) hrst hstopped]
  obtain ⟨d', hstep'⟩ := step_of_foundTrap (s := acceptStart { raiseTrap tr s with d := d }) rfl hfound
  exact ⟨rfl, rfl, rfl, rfl, _, hstep', rfl, rfl, rfl, rfl⟩

/-- Every step answers a next state: with itself, it answers alike (`step_answerAlike`). -/
theorem exists_step_eq_next {s : State} (hw : 0 < s.workers.length) : ∃ t, step s = .next t := by
  have hself : SameButStores s s := ⟨s.d, s.coef, s.workers, s.seq, rfl⟩
  obtain ⟨t, -, ht, -⟩ := step_answerAlike hself hw hw
  exact ⟨t, ht⟩

/-- Settles O23: a validated command completes (`exec_keeps_err`), and a step answers in every case. -/
theorem noFaultAfterValidate : Obligations.NoFaultAfterValidate :=
  ⟨fun _ _ hs hi hc => exec_keeps_err hi hs hc, fun _ ⟨hw, _, _⟩ => exists_step_eq_next hw⟩

/-! ### The interrupt line: O33 -/

/-- The tests `irq` makes are of bits 0 and 1 (R273). -/
theorem irq_eq (s : State) :
    s.irq = ((s.irqStat.getLsbD 0 && s.irqEn.getLsbD 0) || (s.irqStat.getLsbD 1 && s.irqEn.getLsbD 1)) := by
  have hbit (w : Word) (k : Nat) (hk : k < 32) : (w &&& BitVec.twoPow 32 k != 0#32) = w.getLsbD k := by
    rw [BitVec.and_twoPow]
    cases w.getLsbD k with
    | false => rfl
    | true => interval_cases k <;> rfl
  delta State.irq
  rw [show haltBit = BitVec.twoPow 32 0 from rfl, show faultBit = BitVec.twoPow 32 1 from rfl]
  simp only [hbit _ 0 (by decide), hbit _ 1 (by decide)]

/-- Settles O33: an enabled pending bit is what `irq` tests for, and clearing is bit by bit (`interruptStatusSticky`). -/
theorem interruptLine : Obligations.InterruptLine := by
  refine ⟨irq_eq, fun s => ?halt, fun t s => ?fault, fun s v hrst h => ?enable, fun s v hrst h => ?clear⟩
  case halt =>
    obtain ⟨_, ⟨⟩, -, hpending, -⟩ := haltCompletes s
    exact hpending
  case fault =>
    obtain ⟨-, -, hpending, -⟩ := takesFault_raiseTrap t s
    exact hpending
  case enable =>
    rw [regWrite_irqEn hrst, irq_eq]
    have hen (k : Nat) (hk : k < 2) : (writeIrqEn v s).irqEn.getLsbD k = v.getLsbD k := by
      rw [writeIrqEn_irqEn, BitVec.getLsbD_and, getLsbD_irqMask hk, Bool.and_true]
    rw [hen 0 (by decide), hen 1 (by decide)]
    simpa using h
  case clear =>
    obtain ⟨hcleared, -⟩ := interruptStatusSticky
    have hlow (k : Nat) (hk : k < 2) : ((regWrite 0x18 4 v s).irqStat.getLsbD k && s.irqEn.getLsbD k) = false := by
      refine Bool.eq_false_iff.mpr fun hhigh => ?_
      rw [(hcleared v s k hrst hk).1] at hhigh
      simp only [Bool.and_eq_true, Bool.not_eq_true'] at hhigh
      obtain ⟨⟨hpending, hkept⟩, hen⟩ := hhigh
      rw [h k hk (Bool.and_eq_true_iff.mpr ⟨hpending, hen⟩)] at hkept
      contradiction
    rw [irq_eq, show (regWrite 0x18 4 v s).irqEn = s.irqEn by rw [regWrite_irqStat hrst, writeIrqStat_irqEn]]
    exact Bool.or_eq_false_iff.mpr ⟨hlow 0 (by decide), hlow 1 (by decide)⟩

end Sys2Proof.Machine
end

