-- ==== Sys2Proof/Proofs/HostMemory.lean ====
section
/-! SUPPORT. The host's path to memory (spec 60_exceptions.md R275, spec 70_reset_and_hazards.md R306): what the port answers to a
read and a write, and that the running list neither sees a permitted write nor undoes it. -/

namespace Sys2Proof.Machine

/-- The state with one byte of memory written (spec 20_memory.md R72). -/
def State.withByte (s : State) (a : Nat) (b : Byte) : State := { s with mem := s.mem.write a b }

/-! ### What the port answers -/

/-- A byte outside memory (spec 20_memory.md R70; log 15). -/
theorem hostAccess_outside {s : State} {a : Nat} (h : s.memBytes ≤ a) (b : Byte) :
    hostWrite a b s = .fault (.outsideMemory a) ∧ hostRead a s = .error (.outsideMemory a) := ⟨if_pos h, if_pos h⟩

section
variable {s : State} {a : Nat} (ha : a < s.memBytes)
include ha

/-- A write that races with the running list (R306, U15). -/
theorem hostWrite_refused (hr : s.runState = .run) (hu : listUses s a = true) (b : Byte) :
    hostWrite a b s = .refused (.hostRace a) := (if_neg (Nat.not_le_of_lt ha)).trans (if_pos ⟨hr, hu⟩)

/-- Every other write in memory (R275). -/
theorem hostWrite_permitted (h : s.runState = .run → listUses s a = false) (b : Byte) :
    hostWrite a b s = .next (s.withByte a b) :=
  (if_neg (Nat.not_le_of_lt ha)).trans (if_neg fun ⟨hr, hu⟩ => Bool.false_ne_true ((h hr).symm.trans hu))

/-- A read of a byte the running list still has to write (R306, U14). -/
theorem hostRead_free (hr : s.runState = .run) (hw : listWrites s a = true) :
    hostRead a s = .ok ⟨Config.hostRunByte s.draws a, { s with draws := s.draws + 1 }⟩ :=
  (if_neg (Nat.not_le_of_lt ha)).trans (if_pos ⟨hr, hw⟩)

/-- Every other read in memory (R275). -/
theorem hostRead_memory (h : s.runState = .run → listWrites s a = false) : hostRead a s = .ok ⟨s.mem.read a, s⟩ :=
  (if_neg (Nat.not_le_of_lt ha)).trans (if_neg fun ⟨hr, hw⟩ => Bool.false_ne_true ((h hr).symm.trans hw))

end

/-! ### Following the running list -/

/-- A byte that a command of the running list uses is found by following the list. -/
theorem listUses_of_usesByte {n : Nat} {s t : State} {a : Nat} (h : ListReaches n s t) (hu : UsesByte a t) :
    listUses s a = true := by
  refine Bool.of_not_eq_false fun hl => ?_
  have hnot : usesByte a t = false := (of_someCommand_eq_false hl).1 n t h
  rw [Iff.mpr usesByte_eq_true hu] at hnot
  contradiction

/-- Where the list ends in time and none of its commands has the property tested, following it finds nothing (log 11). -/
theorem someCommand_listFuel_eq_false {test : State → Bool} {P : State → Prop} {s : State}
    (htest : ∀ t, test t = true ↔ P t) (hends : ListEnds s) (hnone : ∀ n t, ListReaches n s t → ¬ P t) :
    someCommand test (listFuel s) s = false :=
  someCommand_eq_false_of_ends (fun n t h => Bool.eq_false_iff.mpr fun ht => hnone n t h ((htest t).mp ht)) hends

/-- In RUN the first command of the running list is the one at CP. -/
theorem ListReaches.run {n : Nat} {s t : State} (h : ListReaches n s t) : s.runState = .run := by
  cases n with
  | zero => exact h.1
  | succ n => exact h.1

/-- A write the port permits in RUN is to a byte that no command of the running list uses (R306). -/
theorem not_usesByte_of_hostWrite {s t : State} {a : Nat} {b : Byte} (h : hostWrite a b s = .next t) {n : Nat} {u : State}
    (hu : ListReaches n s u) : ¬ UsesByte a u := by
  intro huse
  obtain ⟨ha, -⟩ := onEvent_hostWrite (a := a) (b := b) h
  rw [hostWrite_refused ha hu.run (listUses_of_usesByte hu huse)] at h
  contradiction

/-! ### The host's accesses: O59 -/

/-- Settles O59: the port's answers, with the two lemmas on what following the list finds. -/
theorem hostMemoryAccess : Obligations.HostMemoryAccess := by
  refine ⟨fun s a b hr ha => ?stopped, fun n s t a b hreach ha huse => ?refused, fun s a b _ ha hends hnone => ?unused,
    fun s a hr ha => ?read, fun s a b ha => hostAccess_outside ha b⟩
  case stopped =>
    refine ⟨hostWrite_permitted ha (absurd · hr) b, hostRead_memory ha (absurd · hr), fun hm =>
      ⟨?_, fun x hx => read_write_other hm b hx⟩⟩
    have hread := hostRead_memory (s := s.withByte a b) ha (absurd · hr)
    rwa [show (s.withByte a b).mem.read a = b from read_write_same hm a b] at hread
  case refused => exact hostWrite_refused ha hreach.run (listUses_of_usesByte hreach huse) b
  case unused =>
    exact hostWrite_permitted ha (fun _ => someCommand_listFuel_eq_false (fun _ => usesByte_eq_true) hends hnone) b
  case read =>
    cases hw : listWrites s a with
    | false => exact ⟨_, s.draws, hostRead_memory ha fun _ => hw, fun _ _ => ⟨rfl, rfl⟩⟩
    | true =>
      refine ⟨_, _, hostRead_free ha hr hw, fun hends hnone => absurd hw (Bool.eq_false_iff.mp ?_)⟩
      exact someCommand_listFuel_eq_false (fun _ => writesByte_eq_true) hends hnone

/-! ### A byte no command uses -/

/-- Two memories that hold one image in a buffer agree on its pixels. -/
theorem read_eq_of_holds {b : Buffer} {m m' : Memory} {img : Image} (h : Holds b m img) (h' : Holds b m' img) {x : Nat}
    (hx : x ∈ pixelArea b) : m'.read x = m.read x := by
  obtain ⟨row, col, ch, k, hb, hk, rfl⟩ := Iff.mp mem_pixelArea hx
  have hbytes : m'.bytesAt (bufAddr b row col ch) b.cw.bytes = m.bytesAt (bufAddr b row col ch) b.cw.bytes :=
    natOfBytes_inj (by simp) ((h' row col ch hb).trans (h row col ch hb).symm)
  exact List.map_inj_left.mp hbytes k (List.mem_range.mpr hk)

/-- A write outside its pixels leaves the image a buffer holds. -/
theorem holds_write {b : Buffer} {m : Memory} (hm : m.wf) {img : Image} (h : Holds b m img) {a : Nat}
    (ha : a ∉ pixelArea b) (v : Byte) : Holds b (m.write a v) img := by
  intro row col ch hb
  rw [← h row col ch hb]
  refine loadComponent_congr fun k hk => read_write_other hm v fun haddr => ha ?_
  exact Iff.mpr mem_pixelArea ⟨row, col, ch, k, hb, hk, haddr.symm⟩

/-- A pass neither sees a write outside the pixels of its two buffers nor undoes it: what it writes is the image it makes of
the one it reads (`passMemory_holds`), and it writes nothing else (`passMemory_sameOutside`). -/
theorem passMemory_write {memBytes : Nat} {p : Pass} (hp : LegalPass memBytes p) (coef : List Nat) {m : Memory} (hm : m.wf)
    {a : Nat} (hreads : a ∉ pixelArea p.reads) (hwrites : a ∉ pixelArea p.writes) (b : Byte) :
    passMemory p coef (m.write a b) = (passMemory p coef m).write a b := by
  have hmw : Memory.wf (m.write a b) := write_wf hm a b
  have hpass : Memory.wf (passMemory p coef m) := linesMemory_wf hm _ p coef
  have hown : Holds p.reads m (imageOf p.reads m) := fun _ _ _ _ => rfl
  refine memory_ext (linesMemory_wf hmw _ p coef) (write_wf hpass a b) fun x => ?_
  by_cases hx : x ∈ pixelArea p.writes
  · have hxa : x ≠ a := fun h => hwrites (h ▸ hx)
    rw [read_write_other hpass b hxa]
    exact read_eq_of_holds (passMemory_holds hp coef hm hown) (passMemory_holds hp coef hmw (holds_write hm hown hreads b)) hx
  · have hout : ∀ {m : Memory}, m.wf → (passMemory p coef m).read x = m.read x :=
      fun hm => passMemory_sameOutside hp coef hm x hx
    calc (passMemory p coef (m.write a b)).read x = (m.write a b).read x := hout hmw
      _ = if x = a then b else m.read x := read_write hm a b x
      _ = if x = a then b else (passMemory p coef m).read x := by rw [hout hm]
      _ = ((passMemory p coef m).write a b).read x := (read_write hpass a b x).symm

/-- So does a pass list. -/
theorem passesMemory_write {memBytes : Nat} {passes : List Pass} {a : Nat}
    (hp : ∀ p ∈ passes, LegalPass memBytes p ∧ a ∉ pixelArea p.reads ∧ a ∉ pixelArea p.writes) (coef : List Nat) {m : Memory}
    (hm : m.wf) (b : Byte) : passesMemory passes coef (m.write a b) = (passesMemory passes coef m).write a b := by
  induction passes generalizing m with
  | nil => rfl
  | cons p passes ih =>
    obtain ⟨hlegal, hreads, hwrites⟩ := hp p List.mem_cons_self
    have hpass : Memory.wf (passMemory p coef m) := linesMemory_wf hm _ p coef
    show passesMemory passes coef (passMemory p coef (m.write a b)) = _
    rw [passMemory_write hlegal coef hm hreads hwrites]
    exact ih (fun q hq => hp q (List.mem_cons_of_mem p hq)) hpass

/-- A byte in no footprint of a command's buffers is no pixel of any of them. -/
theorem command_passesMemory_write {i : Instr} {memBytes : Nat} (hc : checkOf i memBytes = none) {a : Nat}
    (ha : ∀ b ∈ buffersOf i, inFootprint b a = false) {m : Memory} (hm : m.wf) (b : Byte) :
    passesMemory (passesOf i) (coefOf i) (m.write a b) = (passesMemory (passesOf i) (coefOf i) m).write a b := by
  have hpixel : ∀ buf ∈ buffersOf i, a ∉ pixelArea buf := by
    intro buf hbuf hmem
    obtain ⟨hlo, hhi⟩ := pixelArea_inFootprint (checkOf_eq_none hc buf hbuf) hmem
    have hin : inFootprint buf a = true := Bool.and_eq_true_iff.mpr ⟨decide_eq_true hlo, decide_eq_true hhi⟩
    exact Bool.false_ne_true ((ha buf hbuf).symm.trans hin)
  refine passesMemory_write (memBytes := memBytes) (fun p hp => ?_) _ hm b
  obtain ⟨hreads, hwrites⟩ := passesOf_buffers hp
  exact ⟨passesOf_legal hc p hp, hpixel _ hreads, hpixel _ hwrites⟩

/-- FETCH does not see a write outside the descriptor (R141). -/
theorem readDesc_write {m : Memory} (hm : m.wf) {a c : Nat} (h : a < c ∨ c + 40 ≤ a) (b : Byte) :
    (m.write a b).readDesc c = m.readDesc c := by
  refine congrArg descOfBytes (List.map_congr_left fun k hk => read_write_other hm b ?_)
  have := List.mem_range.mp hk
  omega

/-! ### A permitted write during RUN: O58 -/

section
variable {s t : State} (hw : 0 < s.workers.length) (hm : s.mem.wf)
include hw hm

/-- A command neither sees a write outside its buffers' footprints nor undoes it, whether it faults, halts or completes. -/
theorem exec_withByte {i : Instr} (hpending : s.seq.pending = []) (h : exec i s = .next t) {a : Nat}
    (ha : ∀ buf ∈ buffersOf i, inFootprint buf a = false) (b : Byte) : exec i (s.withByte a b) = .next (t.withByte a b) := by
  by_cases hi : i = .halt
  · subst hi
    cases h
    rfl
  · obtain ⟨tr, hc, rfl⟩ | ⟨hc, rfl⟩ := exec_cases ⟨hw, hm, hpending⟩ hi h
    · exact exec_traps hi (s.withByte a b) hc
    · exact (exec_completes hi (s.withByte a b) hw hpending hc).trans
        (congrArg (fun m => Host.Outcome.next { completeCommand s with mem := m }) (command_passesMemory_write hc ha hm b))

/-- A step from RUN neither sees a write to a byte the command at CP does not use nor undoes it. -/
theorem step_withByte (hr : s.runState = .run) (h : step s = .next t) {a : Nat} (ha : ¬ UsesByte a s) (b : Byte) :
    step (s.withByte a b) = .next (t.withByte a b) := by
  rcases Nat.lt_or_ge s.memBytes (s.cp.toNat + 40) with hf | hf
  · rw [step_of_fetch_fault hr hf] at h
    cases h
    exact step_of_fetch_fault (s := s.withByte a b) hr hf
  have hout : a < s.cp.toNat ∨ s.cp.toNat + 40 ≤ a := by
    by_contra hin
    exact ha (.inl (by omega))
  have hdesc : (s.withByte a b).mem.readDesc s.cp.toNat = s.mem.readDesc s.cp.toNat := readDesc_write hm hout b
  have hfetched : fetched (s.withByte a b) = (fetched s).withByte a b :=
    congrArg (fun d => { s.withByte a b with d := d, seq := Sequencer.empty .validate }) hdesc
  cases hd : decode (s.mem.readDesc s.cp.toNat) with
  | error e =>
    rw [step_of_illegal hr hf hd] at h
    cases h
    rw [step_of_illegal (s := s.withByte a b) hr hf ((congrArg decode hdesc).trans hd), hfetched]
    rfl
  | ok i =>
    rw [step_of_command hr hf hd] at h
    rw [step_of_command (s := s.withByte a b) hr hf ((congrArg decode hdesc).trans hd), hfetched]
    have hnext : s.nextCommand = some i := by
      rw [nextCommand_of_fetch hf, hd]
      rfl
    refine exec_withByte (s := fetched s) hw hm (fetched_pending s) h (fun buf hbuf => ?_) b
    exact Bool.eq_false_iff.mpr fun hin => ha (.inr ⟨i, buf, hnext, hbuf, hin⟩)

end

/-- Settles O58: a permitted write is to a byte the command at CP does not use (`not_usesByte_of_hostWrite`), so
`step_withByte` applies. -/
theorem hostWriteOutsideListIsHarmless : Obligations.HostWriteOutsideListIsHarmless := by
  intro s s' t a b hi hr hwrite h
  have hnot : ¬ UsesByte a s := not_usesByte_of_hostWrite hwrite (n := 0) ⟨hr, rfl⟩
  obtain ⟨-, rfl⟩ := onEvent_hostWrite (a := a) (b := b) hwrite
  exact step_withByte (Inv.workers_pos hi) (Inv.memory_wf hi) hr h hnot b

end Sys2Proof.Machine
end

