-- ==== Sys2Proof/Proofs/Reset.lean ====
section
/-! SUPPORT. Reset (spec 70_reset_and_hazards.md R300 to R302): the values it gives the registers and the hidden state, what can
happen while `rst` holds the engine in them, and the bytes a reset during RUN cuts. -/

namespace Sys2Proof.Machine

/-! ### The reset values -/

/-- The registers, `irq` and the hidden state hold their values of reset (spec 10_state.md R43, R300). -/
abbrev ResetValues (s : State) : Prop :=
  s.runState = .idle ∧ s.cp = 0#32 ∧ s.err = 0#32 ∧ s.irqEn = 0#32 ∧ s.irqStat = 0#32 ∧ s.irq = false ∧
    s.seq = Sequencer.empty .idle

/-- With nothing pending the interrupt line is low (spec 60_exceptions.md R273). -/
theorem irq_of_irqStat_zero {s : State} (h : s.irqStat = 0#32) : s.irq = false := by
  rw [irq_eq, h]
  simp

theorem reset_resetValues : ResetValues State.reset :=
  ⟨rfl, rfl, rfl, rfl, rfl, irq_of_irqStat_zero rfl, rfl⟩

theorem assertReset_resetValues (s : State) : ResetValues (assertReset s) :=
  ⟨rfl, rfl, rfl, rfl, rfl, irq_of_irqStat_zero rfl, rfl⟩

theorem hardReset_resetValues (s : State) : ResetValues (hardReset s) := assertReset_resetValues s

/-- The invariant holds an engine with `rst` high in its reset values (R300; log 21). -/
theorem Inv.resetValues {s : State} (hi : Inv s) (hrst : s.rst = true) : ResetValues s := by
  obtain ⟨-, -, -, -, -, -, herr, -, hheld, -, hseq, -, -⟩ := hi
  obtain ⟨hidle, hcp, hen, hstat⟩ := hheld hrst
  have hnofault : s.err = 0#32 := by simpa [hidle] using herr
  have hempty : s.seq = Sequencer.empty .idle := by rw [hseq, hidle, restPhase]
  exact ⟨hidle, hcp, hnofault, hen, hstat, irq_of_irqStat_zero hstat, hempty⟩

/-- The engine in IDLE steps to itself, and ID and CTRL read as they always do (spec 10_state.md R26, R27, R300). -/
theorem ResetValues.quiet {s : State} (h : ResetValues s) :
    (regRead 0x00 4 s).value = idWord ∧ (regRead 0x04 4 s).value = 0#32 ∧ step s = .next s := by
  obtain ⟨hidle, -⟩ := h
  exact ⟨rfl, rfl, step_of_not_run (by simp [hidle])⟩

/-! ### The bytes a reset cuts -/

/-- Out of RUN there is no command to abandon (R302). -/
theorem cutCells_of_not_run {s : State} (h : s.runState ≠ .run) : cutCells s = [] := by
  delta cutCells
  cases hr : s.runState with
  | run => exact absurd hr h
  | idle => rfl
  | halted => rfl
  | faulted => rfl

/-- The command an engine in RUN is about to fetch or has fetched, whether or not VALIDATE passes it (R301; log 12). -/
def State.foundCommand (s : State) : Option Instr := if s.seq.phase = .fetch then s.nextCommand else s.command

theorem abandonedCommand_eq_some_iff {s : State} {i : Instr} :
    abandonedCommand s = some i ↔ s.foundCommand = some i ∧ checkOf i s.memBytes = none :=
  Option.filter_eq_some_iff.trans (and_congr_right' Option.isNone_iff_eq_none)

theorem abandonedCommand_eq_none_iff {s : State} :
    abandonedCommand s = none ↔ ∀ i, s.foundCommand = some i → checkOf i s.memBytes ≠ none := by
  simp [Option.eq_none_iff_forall_ne_some, abandonedCommand_eq_some_iff]

/-- A reset keeps every byte outside the destination pixels of the command it abandons (R301). -/
theorem hardReset_sameOutside {s : State} (hm : Memory.wf s.mem) {i : Instr} (h : abandonedCommand s = some i) :
    SameOutside ((destOf i).flatMap pixelArea) s.mem (hardReset s).mem := by
  intro a ha
  refine read_writeAll_other hm fun c hc hca => ha ?_
  obtain ⟨j, b, hj, hb, hpixel⟩ := mem_cutCells hc
  obtain rfl : i = j := Option.some.inj (h.symm.trans hj)
  exact List.mem_flatMap.mpr ⟨b, hb, hca ▸ hpixel⟩

/-- A reset that abandons no command keeps memory (R302). -/
theorem cutCells_of_abandons_none {s : State} (h : abandonedCommand s = none) : cutCells s = [] := by
  refine List.eq_nil_iff_forall_not_mem.mpr fun c hc => ?_
  obtain ⟨i, -, hi, -⟩ := mem_cutCells hc
  exact Option.some_ne_none i (hi.symm.trans h)

theorem reset_mem_of_cutCells_nil {s : State} (h : cutCells s = []) :
    (hardReset s).mem = s.mem ∧ (assertReset s).mem = s.mem := by simp [h]

/-! ### While `rst` is high -/

/-- All that an event can do to an engine that `rst` holds out of RUN (R300; logs 13 and 21). -/
theorem onEvent_held {e : Event} {s t : State} (hrst : s.rst = true) (hr : s.runState ≠ .run) (h : onEvent e s = .next t) :
    (e = .rstHigh ∧ t = assertReset s) ∨ (e = .rstLow ∧ t = releaseReset s) ∨
      (∃ a b, e = .hostWrite a b ∧ t = s.withByte a b) ∨ (e ≠ .rstLow ∧ ∃ n, t = { s with draws := n }) := by
  have hstep (h : step s = .next t) : t = { s with draws := s.draws } := by
    cases (step_of_not_run hr).symm.trans h
    rfl
  cases e with
  | engine => exact .inr (.inr (.inr ⟨nofun, _, hstep h⟩))
  | engineWhileClearing v =>
    obtain h | ⟨hlow, -⟩ := step_of_clearing h
    · exact .inr (.inr (.inr ⟨nofun, _, hstep h⟩))
    · exact absurd (hrst.symm.trans hlow) (by decide)
  | regRead offset size => exact .inr (.inr (.inr ⟨nofun, onEvent_regRead h⟩))
  | regWrite offset size v =>
    cases h
    exact .inr (.inr (.inr ⟨nofun, s.draws, regWrite_of_rst hrst offset size v⟩))
  | hostRead a => exact .inr (.inr (.inr ⟨nofun, onEvent_hostRead h⟩))
  | hostWrite a b =>
    obtain ⟨-, rfl⟩ := onEvent_hostWrite h
    exact .inr (.inr (.inl ⟨a, b, rfl, rfl⟩))
  | rstHigh =>
    cases h
    exact .inl ⟨rfl, rfl⟩
  | rstLow =>
    cases h
    exact .inr (.inl ⟨rfl, rfl⟩)

/-- No event moves the engine off its reset values while `rst` is high, only `rst` going low ends the hold, and only a host
write reaches memory (R300, R302; log 21). -/
theorem ResetValues.held {e : Event} {s t : State} (hv : ResetValues s) (hrst : s.rst = true) (h : onEvent e s = .next t) :
    ResetValues t ∧ (t.rst = true ↔ e ≠ .rstLow) ∧ ((∀ a b, e ≠ .hostWrite a b) → t.mem = s.mem) := by
  have hr : s.runState ≠ .run := by
    obtain ⟨hidle, -⟩ := hv
    simp [hidle]
  obtain ⟨rfl, rfl⟩ | ⟨rfl, rfl⟩ | ⟨a, b, rfl, rfl⟩ | ⟨hlow, n, rfl⟩ := onEvent_held hrst hr h
  · exact ⟨assertReset_resetValues s, by simp, fun _ => (reset_mem_of_cutCells_nil (cutCells_of_not_run hr)).2⟩
  · exact ⟨hv, by simp, fun _ => rfl⟩
  · exact ⟨hv, iff_of_true hrst nofun, fun hno => absurd rfl (hno a b)⟩
  · exact ⟨hv, iff_of_true hrst hlow, fun _ => rfl⟩

/-! ### Reset: O36 and O37 -/

/-- Settles O36: `ResetValues` holds at power-up and after `rst` goes high or low, and `ResetValues.held` says the rest of an
engine with `rst` high. -/
theorem resetState : Obligations.ResetState := by
  refine ⟨fun s t ht => ?values, fun s => ⟨rfl, rfl, rfl⟩, fun offset size v s hrst => ?ignored, fun e s t hi hrst h => ?held⟩
  case values =>
    have hv : ResetValues t := by
      obtain rfl | rfl | rfl := ht
      · exact reset_resetValues
      · exact hardReset_resetValues s
      · exact assertReset_resetValues s
    obtain ⟨hid, hctrl, hstep⟩ := hv.quiet
    obtain ⟨hidle, hcp, herr, hen, hstat, hirq, hseq⟩ := hv
    exact ⟨hidle, hcp, herr, hen, hstat, hirq, hid, hctrl, hseq, hstep, fun hr =>
      reset_mem_of_cutCells_nil (cutCells_of_not_run hr)⟩
  case ignored => exact ⟨regWrite_of_rst hrst offset size v, congrArg step (regWrite_of_rst hrst 0x18 4 v)⟩
  case held =>
    obtain ⟨⟨hidle, hcp, herr, hen, hstat, hirq, hseq⟩, hhold, hmem⟩ := (hi.resetValues hrst).held hrst h
    exact ⟨hhold, hidle, hcp, herr, hen, hstat, hirq, hseq, hmem⟩

/-- Settles O37: the abandoned command is the one found, if VALIDATE passes it, and a reset cuts pixels of no other. -/
theorem resetCutsOnlyDestinationPixels : Obligations.ResetCutsOnlyDestinationPixels := by
  intro s hm _
  refine ⟨fun i hfound hc => ?_, fun hrefused => ?_⟩
  · have h : abandonedCommand s = some i := abandonedCommand_eq_some_iff.mpr ⟨hfound, hc⟩
    exact ⟨h, hardReset_sameOutside hm h⟩
  · have h : abandonedCommand s = none := abandonedCommand_eq_none_iff.mpr hrefused
    exact ⟨h, (reset_mem_of_cutCells_nil (cutCells_of_abandons_none h)).1⟩

end Sys2Proof.Machine
end
